-- ==== Sys2Proof/Word.lean ====
section
/-! DEFINITION. The widths of the block (00_scope.md section 6) and the four-fold record of its channels. -/

namespace Sys2Proof

/-- `u8`: the data of a register access. -/
abbrev Byte := BitVec 8
/-- `u16`. -/
abbrev Half := BitVec 16
/-- `u32`: addresses and the internal counters. -/
abbrev Word := BitVec 32
/-- A channel index 0..3; the index is the priority, 0 highest (R20). -/
abbrev ChanIdx := Fin 4
/-- A bitset of channels: bit `c` is set when channel `c` is a member (00_scope.md section 6). -/
abbrev ChanSet := BitVec 4

/-- One thing for each of the four channels. -/
structure Quad (α : Type) where
  c0 : α
  c1 : α
  c2 : α
  c3 : α
  deriving DecidableEq, Repr

/-- The entry of channel `c`. -/
def Quad.get {α : Type} (q : Quad α) (c : ChanIdx) : α :=
  match c with
  | 0 => q.c0
  | 1 => q.c1
  | 2 => q.c2
  | 3 => q.c3

/-- `q` with the entry of channel `c` replaced. -/
def Quad.set {α : Type} (q : Quad α) (c : ChanIdx) (x : α) : Quad α :=
  match c with
  | 0 => { q with c0 := x }
  | 1 => { q with c1 := x }
  | 2 => { q with c2 := x }
  | 3 => { q with c3 := x }

/-- The same entry for all four channels. -/
def Quad.all {α : Type} (x : α) : Quad α := ⟨x, x, x, x⟩

end Sys2Proof
end

