-- ==== Sys2Proof/Config.lean ====
section
/-! DEFINITION. The named parameters the spec leaves to the machine (00_scope.md section 5), and the free values of
the bus. The parameters are plain data that State carries and no operation writes, so a statement about every state
is about every value of them; `Config.standard` holds the spec's defaults (log entries 4 to 9, 22). -/

namespace Sys2Proof

/-- P5, `CTRL_HI_LAYOUT`: the bit of the control-high byte that holds each field bit. -/
structure CtlHiLayout where
  srcControl1 : Fin 8
  repeats : Fin 8
  unitSize : Fin 8
  gamepak : Fin 8
  timing0 : Fin 8
  timing1 : Fin 8
  interrupt : Fin 8
  enable : Fin 8
  deriving DecidableEq, Repr

/-- P11, `TRIGGER_VARIANT` (R144). -/
inductive TriggerVariant where
  /-- R140 and R141 as written; the only normative value -/
  | documented
  /-- the optional second value of R144 -/
  | scan
  deriving DecidableEq, Repr

structure Config where
  /-- P2 -/
  srcMask : Quad Word
  /-- P3 -/
  dstMask : Quad Word
  /-- P4 -/
  lenMask : Quad Half
  /-- the address bits that select cartridge space (R5) -/
  cartridgeBits : Word
  /-- P5 -/
  ctlHi : CtlHiLayout
  /-- P7, halfword entry -/
  srcReservedHalf : Int
  /-- P7, word entry -/
  srcReservedWord : Int
  /-- P8 -/
  irqBit : Quad Half
  /-- P9; `none`: the platform does not map the register blocks on the bus -/
  dmaBase : Option Word
  /-- D29: the order in which the bytes of a halfword reach the register blocks -/
  halfLanes : List (Fin 2)
  /-- D29: the order in which the bytes of a word reach the register blocks -/
  wordLanes : List (Fin 4)
  /-- P11 -/
  trigger : TriggerVariant
  deriving DecidableEq, Repr

/-- The layout of R63, pattern `eittgurS`. -/
def CtlHiLayout.r63 : CtlHiLayout where
  srcControl1 := 0
  repeats := 1
  unitSize := 2
  gamepak := 3
  timing0 := 4
  timing1 := 5
  interrupt := 6
  enable := 7

/-- The eight bit positions. -/
def CtlHiLayout.positions (l : CtlHiLayout) : List (Fin 8) :=
  [l.srcControl1, l.repeats, l.unitSize, l.gamepak, l.timing0, l.timing1, l.interrupt, l.enable]

/-- Every bit of the byte holds exactly one field bit (R63). -/
def CtlHiLayout.wf (l : CtlHiLayout) : Bool := decide l.positions.Nodup

/-- The "default" column of 00_scope.md section 5. -/
def Config.standard : Config where
  srcMask := ⟨0x07FFFFFF#32, 0x0FFFFFFF#32, 0x0FFFFFFF#32, 0x0FFFFFFF#32⟩
  dstMask := ⟨0x07FFFFFF#32, 0x07FFFFFF#32, 0x07FFFFFF#32, 0x0FFFFFFF#32⟩
  lenMask := ⟨0x3FFF#16, 0x3FFF#16, 0x3FFF#16, 0xFFFF#16⟩
  cartridgeBits := 0x08000000#32
  ctlHi := .r63
  srcReservedHalf := 2
  srcReservedWord := 4
  irqBit := ⟨0x0100#16, 0x0200#16, 0x0400#16, 0x0800#16⟩
  dmaBase := some 0x040000B0#32
  halfLanes := [0, 1]
  wordLanes := [0, 1, 2, 3]
  trigger := .documented

/-- All low bits set: of the form 2^k − 1. -/
def isLowMask {w : Nat} (m : BitVec w) : Bool := decide (m &&& (m + 1) = 0)

/-- What the document demands of the parameters (R5), of the layout (R63) and of the lane orders (each byte once). -/
def Config.wf (g : Config) : Bool :=
  isLowMask g.srcMask.c0 && isLowMask g.srcMask.c1 && isLowMask g.srcMask.c2 && isLowMask g.srcMask.c3
  && isLowMask g.dstMask.c0 && isLowMask g.dstMask.c1 && isLowMask g.dstMask.c2 && isLowMask g.dstMask.c3
  && isLowMask g.lenMask.c0 && isLowMask g.lenMask.c1 && isLowMask g.lenMask.c2 && isLowMask g.lenMask.c3
  && decide (g.srcMask.c0 ≤ g.srcMask.c3) && decide (g.srcMask.c1 ≤ g.srcMask.c3) && decide (g.srcMask.c2 ≤ g.srcMask.c3)
  && decide (g.dstMask.c0 ≤ g.dstMask.c3) && decide (g.dstMask.c1 ≤ g.dstMask.c3) && decide (g.dstMask.c2 ≤ g.dstMask.c3)
  && decide (g.lenMask.c0 ≤ g.lenMask.c3) && decide (g.lenMask.c1 ≤ g.lenMask.c3) && decide (g.lenMask.c2 ≤ g.lenMask.c3)
  && decide (g.srcMask.c0 &&& g.cartridgeBits = 0)
  && g.ctlHi.wf
  && decide (g.halfLanes.length = 2) && decide g.halfLanes.Nodup
  && decide (g.wordLanes.length = 4) && decide g.wordLanes.Nodup

/-- FREE VALUE: what the bus answers to the `n`-th free access when that is a misaligned read (R45: "What a misaligned
halfword or word access does is the bus collaborator's behaviour"; log entry 11). -/
opaque Config.freeRead : Nat → Word

/-- FREE VALUE: the bytes of bus memory that change at the `n`-th free access when that is a misaligned write (R45;
log entry 11). -/
opaque Config.freeStores : Nat → List Host.Cell

end Sys2Proof
end

