-- ==== Sys2Proof/Syntax.lean ====
section
/-! DEFINITION. The operations of the block as syntax: one constructor per row of opcode_table.json (R60, R71). -/

namespace Sys2Proof

/-- The operations other agents may invoke (R60). `W_*` are register writes (channel, data byte), `R_*`
register reads (channel), the last five are event entry points. The digit of `wSrc`, `wDst`, `wLen` is the byte
lane, that of `rZero` the offset; the offset of the reserved rows is an operand because their row covers every
offset from 12 up (R90, R95). -/
inductive Instr where
  | wSrc0 (c : ChanIdx) (b : Byte)
  | wSrc1 (c : ChanIdx) (b : Byte)
  | wSrc2 (c : ChanIdx) (b : Byte)
  | wSrc3 (c : ChanIdx) (b : Byte)
  | wDst0 (c : ChanIdx) (b : Byte)
  | wDst1 (c : ChanIdx) (b : Byte)
  | wDst2 (c : ChanIdx) (b : Byte)
  | wDst3 (c : ChanIdx) (b : Byte)
  | wLen0 (c : ChanIdx) (b : Byte)
  | wLen1 (c : ChanIdx) (b : Byte)
  | wCtlLo (c : ChanIdx) (b : Byte)
  | wCtlHi (c : ChanIdx) (b : Byte)
  | wRsvd (c : ChanIdx) (off : Nat) (b : Byte)
  | rZero0 (c : ChanIdx)
  | rZero1 (c : ChanIdx)
  | rZero2 (c : ChanIdx)
  | rZero3 (c : ChanIdx)
  | rZero4 (c : ChanIdx)
  | rZero5 (c : ChanIdx)
  | rZero6 (c : ChanIdx)
  | rZero7 (c : ChanIdx)
  | rZero8 (c : ChanIdx)
  | rZero9 (c : ChanIdx)
  | rCtlLo (c : ChanIdx)
  | rCtlHi (c : ChanIdx)
  | rRsvd (c : ChanIdx) (off : Nat)
  | triggerHBlank
  | triggerVBlank
  | fifoRequest1
  | fifoRequest2
  | run
  deriving DecidableEq, Repr

/-- `FIFO_CHANNELS` (P14): the channels an audio FIFO may demand. -/
inductive FifoChan where
  | ch1
  | ch2
  deriving DecidableEq, Repr

def FifoChan.idx : FifoChan → ChanIdx
  | .ch1 => 1
  | .ch2 => 2

/-- The `W_SRC` row of byte lane `k` (R81). -/
def Instr.srcWrite (k : Fin 4) (c : ChanIdx) (b : Byte) : Instr :=
  match k with
  | 0 => .wSrc0 c b
  | 1 => .wSrc1 c b
  | 2 => .wSrc2 c b
  | 3 => .wSrc3 c b

/-- The `W_DST` row of byte lane `k` (R82). -/
def Instr.dstWrite (k : Fin 4) (c : ChanIdx) (b : Byte) : Instr :=
  match k with
  | 0 => .wDst0 c b
  | 1 => .wDst1 c b
  | 2 => .wDst2 c b
  | 3 => .wDst3 c b

/-- The `W_LEN` row of byte lane `k` (R83). -/
def Instr.lenWrite (k : Fin 2) (c : ChanIdx) (b : Byte) : Instr :=
  match k with
  | 0 => .wLen0 c b
  | 1 => .wLen1 c b

/-- The `R_ZERO` row of offset `k` (R92). -/
def Instr.zeroRead (k : Fin 10) (c : ChanIdx) : Instr :=
  match k with
  | 0 => .rZero0 c
  | 1 => .rZero1 c
  | 2 => .rZero2 c
  | 3 => .rZero3 c
  | 4 => .rZero4 c
  | 5 => .rZero5 c
  | 6 => .rZero6 c
  | 7 => .rZero7 c
  | 8 => .rZero8 c
  | 9 => .rZero9 c

/-- The `FIFO_REQUEST` row of a FIFO channel (R143). -/
def Instr.fifoRequest : FifoChan → Instr
  | .ch1 => .fifoRequest1
  | .ch2 => .fifoRequest2

end Sys2Proof
end

