-- ==== Sys2Proof/WellFormed.lean ====
section
/-! DEFINITION. Which terms of `Instr` are operations of the block. Channel indices and data bytes cannot be out of
range by their types (R67, 93 I26); what is left to check is the offset of the two reserved rows. -/

namespace Sys2Proof

/-- A reserved offset is 12 or more, of any width (R67, R71; 93 I26). -/
def reservedOffset (off : Nat) : Bool := decide (12 ≤ off)

/-- The operation is one of the block's. -/
def Instr.wf : Instr → Bool
  | .wRsvd _ off _ => reservedOffset off
  | .rRsvd _ off => reservedOffset off
  | .wSrc0 _ _ => true
  | .wSrc1 _ _ => true
  | .wSrc2 _ _ => true
  | .wSrc3 _ _ => true
  | .wDst0 _ _ => true
  | .wDst1 _ _ => true
  | .wDst2 _ _ => true
  | .wDst3 _ _ => true
  | .wLen0 _ _ => true
  | .wLen1 _ _ => true
  | .wCtlLo _ _ => true
  | .wCtlHi _ _ => true
  | .rZero0 _ => true
  | .rZero1 _ => true
  | .rZero2 _ => true
  | .rZero3 _ => true
  | .rZero4 _ => true
  | .rZero5 _ => true
  | .rZero6 _ => true
  | .rZero7 _ => true
  | .rZero8 _ => true
  | .rZero9 _ => true
  | .rCtlLo _ => true
  | .rCtlHi _ => true
  | .triggerHBlank => true
  | .triggerVBlank => true
  | .fifoRequest1 => true
  | .fifoRequest2 => true
  | .run => true

end Sys2Proof
end

