-- ==== Sys2Proof/Decode.lean ====
section
/-! DEFINITION. From the bytes an agent presents to an operation of the block, and back.
The block itself selects a register operation by its direction and byte offset, and an event by its entry point
(R60, R71, R80, R91). The record around that is the model's own (log entries 1 to 3):

| byte | bits | holds |
|---|---|---|
| 0 | 7:0 | register formats: the offset, bits 7:0 (what the table's match and mask apply to). `EVT`: the entry point |
| 1 | 1:0 | the channel; 3:2 the format, 0 `REGW`, 1 `REGR`, 2 `EVT`, 3 the reset event, every other bit of which is zero; 7:4 zero |
| 2 | 7:0 | `REGW`: the data byte. Otherwise zero |
| 3 on | 7:0 | register formats: the offset from bit 8 up, in groups of seven bits, lowest first; bit 7 of a byte says that another group follows, so an offset of any width fits (R71). `EVT`: one zero byte | -/

namespace Sys2Proof

/-- Why bytes are no operation of the block (R60: "Nothing else can be invoked on it"). -/
inductive DecodeError where
  /-- the bytes end inside the record -/
  | truncated
  /-- format code 3 is none of the three formats, and the record is not the reset event's -/
  | noSuchFormat
  /-- bits 7:4 of byte 1 are not zero -/
  | selectorBits
  /-- a byte that carries no operand in this format is not zero -/
  | strayOperand
  /-- an `EVT` record names no entry point -/
  | noSuchEvent
  /-- the last offset group of several is zero: the offset has a shorter record -/
  | paddedOffset
  /-- `FifoRequest` of a channel outside `FIFO_CHANNELS` (93 I20: not an operation of the block) -/
  | notFifoChannel
  deriving DecidableEq, Repr

/-- What decoding answers. -/
inductive Decoded where
  | op (i : Instr) (rest : List Byte)
  /-- the reset event (R170), which is no operation of R60 -/
  | reset (rest : List Byte)
  | bad (e : DecodeError)
  deriving DecidableEq, Repr

/-- A register write is selected by its offset alone (R80, R61). -/
def decodeWrite (c : ChanIdx) (off : Nat) (b : Byte) : Instr :=
  match off with
  | 0 => .wSrc0 c b
  | 1 => .wSrc1 c b
  | 2 => .wSrc2 c b
  | 3 => .wSrc3 c b
  | 4 => .wDst0 c b
  | 5 => .wDst1 c b
  | 6 => .wDst2 c b
  | 7 => .wDst3 c b
  | 8 => .wLen0 c b
  | 9 => .wLen1 c b
  | 10 => .wCtlLo c b
  | 11 => .wCtlHi c b
  | n => .wRsvd c n b

/-- A register read is selected by its offset alone (R91, R61). -/
def decodeRead (c : ChanIdx) (off : Nat) : Instr :=
  match off with
  | 0 => .rZero0 c
  | 1 => .rZero1 c
  | 2 => .rZero2 c
  | 3 => .rZero3 c
  | 4 => .rZero4 c
  | 5 => .rZero5 c
  | 6 => .rZero6 c
  | 7 => .rZero7 c
  | 8 => .rZero8 c
  | 9 => .rZero9 c
  | 10 => .rCtlLo c
  | 11 => .rCtlHi c
  | n => .rRsvd c n

/-- The event entry points: 0 `TRIGGER_HBLANK`, 1 `TRIGGER_VBLANK`, 2 `FIFO_REQUEST`, 3 `RUN`. Only `FIFO_REQUEST`
takes a channel, one of `FIFO_CHANNELS`. -/
def decodeEvent (entry : Nat) (c : ChanIdx) : DecodeError ⊕ Instr :=
  match entry, c with
  | 0, 0 => .inr .triggerHBlank
  | 1, 0 => .inr .triggerVBlank
  | 2, 1 => .inr .fifoRequest1
  | 2, 2 => .inr .fifoRequest2
  | 3, 0 => .inr .run
  | 2, _ => .inl .notFifoChannel
  | 0, _ => .inl .strayOperand
  | 1, _ => .inl .strayOperand
  | 3, _ => .inl .strayOperand
  | _, _ => .inl .noSuchEvent

/-- The number in the groups at the head of the bytes, lowest group first, and the bytes after them. -/
def readGroups : List Byte → DecodeError ⊕ (Nat × List Byte)
  | [] => .inl .truncated
  | g :: rest =>
    if g.toNat < 128 then .inr (g.toNat, rest)
    else
      match readGroups rest with
      | .inl e => .inl e
      | .inr (n, rest') => if n = 0 then .inl .paddedOffset else .inr (g.toNat % 128 + 128 * n, rest')

/-- The offset of a register record from its byte 0 and its groups. -/
def offsetOf (o0 : Byte) (high : Nat) : Nat := o0.toNat + 256 * high

/-- Bits 1:0 of byte 1. -/
def selectorChannel (sel : Byte) : ChanIdx := ⟨sel.toNat % 4, Nat.mod_lt _ (by decide)⟩

/-- One record: its first three bytes and the number in its groups. -/
def decodeRecord (o0 sel b : Byte) (high : Nat) : DecodeError ⊕ Instr :=
  if sel.toNat / 16 ≠ 0 then .inl .selectorBits
  else
    match sel.toNat / 4 % 4 with
    | 0 => .inr (decodeWrite (selectorChannel sel) (offsetOf o0 high) b)
    | 1 => if b = 0 then .inr (decodeRead (selectorChannel sel) (offsetOf o0 high)) else .inl .strayOperand
    | 2 => if b = 0 ∧ high = 0 then decodeEvent o0.toNat (selectorChannel sel) else .inl .strayOperand
    | _ => .inl .noSuchFormat

/-- Byte 1 of the reset event's record (log entry 16). -/
def resetSelector : Byte := 0x0C

/-- What stands at the head of a stream of bytes, and the bytes after it. -/
def decode : List Byte → Decoded
  | o0 :: sel :: b :: tail =>
    match readGroups tail with
    | .inl e => .bad e
    | .inr (high, rest) =>
      if o0 = 0 ∧ sel = resetSelector ∧ b = 0 ∧ high = 0 then .reset rest
      else
        match decodeRecord o0 sel b high with
        | .inr i => .op i rest
        | .inl e => .bad e
  | _ => .bad .truncated

/-- The groups of `n`, lowest first, at most `fuel + 1` of them. -/
def groupsUpTo : Nat → Nat → List Byte
  | 0, n => [BitVec.ofNat 8 (n % 128)]
  | fuel + 1, n =>
    if n < 128 then [BitVec.ofNat 8 n] else BitVec.ofNat 8 (128 + n % 128) :: groupsUpTo fuel (n / 128)

/-- All the groups of `n`. -/
def groups (n : Nat) : List Byte := groupsUpTo n.log2 n

/-- Byte 1 of a record of format `f` for channel `c`. -/
def selector (f : Nat) (c : ChanIdx) : Byte := BitVec.ofNat 8 (4 * f + c.val)

/-- The record of a register access. -/
def registerRecord (f : Nat) (c : ChanIdx) (off : Nat) (b : Byte) : List Byte :=
  BitVec.ofNat 8 off :: selector f c :: b :: groups (off / 256)

def writeRecord (c : ChanIdx) (off : Nat) (b : Byte) : List Byte := registerRecord 0 c off b

def readRecord (c : ChanIdx) (off : Nat) : List Byte := registerRecord 1 c off 0

/-- The record of an event. -/
def eventRecord (entry : Nat) (c : ChanIdx) : List Byte := [BitVec.ofNat 8 entry, selector 2 c, 0, 0]

/-- The record of the reset event. -/
def resetRecord : List Byte := [0, resetSelector, 0, 0]

/-- The record of an operation, from the offsets of R61 and the entry points of R60. -/
def encode : Instr → List Byte
  | .wSrc0 c b => writeRecord c 0 b
  | .wSrc1 c b => writeRecord c 1 b
  | .wSrc2 c b => writeRecord c 2 b
  | .wSrc3 c b => writeRecord c 3 b
  | .wDst0 c b => writeRecord c 4 b
  | .wDst1 c b => writeRecord c 5 b
  | .wDst2 c b => writeRecord c 6 b
  | .wDst3 c b => writeRecord c 7 b
  | .wLen0 c b => writeRecord c 8 b
  | .wLen1 c b => writeRecord c 9 b
  | .wCtlLo c b => writeRecord c 10 b
  | .wCtlHi c b => writeRecord c 11 b
  | .wRsvd c off b => writeRecord c off b
  | .rZero0 c => readRecord c 0
  | .rZero1 c => readRecord c 1
  | .rZero2 c => readRecord c 2
  | .rZero3 c => readRecord c 3
  | .rZero4 c => readRecord c 4
  | .rZero5 c => readRecord c 5
  | .rZero6 c => readRecord c 6
  | .rZero7 c => readRecord c 7
  | .rZero8 c => readRecord c 8
  | .rZero9 c => readRecord c 9
  | .rCtlLo c => readRecord c 10
  | .rCtlHi c => readRecord c 11
  | .rRsvd c off => readRecord c off
  | .triggerHBlank => eventRecord 0 0
  | .triggerVBlank => eventRecord 1 0
  | .fifoRequest1 => eventRecord 2 1
  | .fifoRequest2 => eventRecord 2 2
  | .run => eventRecord 3 0

/-- The bytes whose bits, numbered from bit 0 of byte 0, are the low `nbits` bits of `w`; every higher bit is 0. -/
def tableRecord (nbits w : Nat) : List Byte :=
  (List.range (max 4 ((nbits + 7) / 8))).map fun k => BitVec.ofNat 8 (w % 2 ^ nbits / 256 ^ k)

/-- The operation the decoder reads from a word of opcode_table.json. The table numbers the offset only: it gives
the direction and the entry point no bits, so a word of it always carries format 0, `REGW` (log entry 2). -/
def decodeTableWord (nbits w : Nat) : Option Instr :=
  match decode (tableRecord nbits w) with
  | .op i _ => some i
  | .reset _ => none
  | .bad _ => none

end Sys2Proof
end

