-- ==== Sys2Proof/Machine/State.lean ====
section
/-! DEFINITION. The state of the machine as plain data: the block (10_state.md), its parameters, and the collaborators'
side of its ports (00_scope.md section 4). -/

namespace Sys2Proof.Machine

/-- R22, code 0 then 1. -/
inductive UnitSize where
  | halfword
  | word
  deriving DecidableEq, Repr

/-- R22, codes 0 to 3. -/
inductive TimingMode where
  | immediate
  | vblank
  | hblank
  | special
  deriving DecidableEq, Repr

/-- R22, codes 0 to 3. -/
inductive DstControl where
  | increment
  | decrement
  | fixed
  | incrementReload
  deriving DecidableEq, Repr

/-- R22, codes 0 to 3. -/
inductive SrcControl where
  | increment
  | decrement
  | fixed
  | reserved
  deriving DecidableEq, Repr

/-- One channel: the programmed fields (R21), then the internal (latched) fields (R23). -/
structure Channel where
  srcAddress : Word
  dstAddress : Word
  length : Half
  dstAddressControl : DstControl
  srcAddressControl : SrcControl
  unitSize : UnitSize
  timingMode : TimingMode
  repeats : Bool
  allowGamepakDrive : Bool
  interruptOnCompletion : Bool
  enable : Bool
  internalSrc : Word
  internalDst : Word
  internalLength : Word
  deriving DecidableEq, Repr

/-- What one transfer unit carries: an opaque 16-bit or 32-bit value (R44, R46). -/
inductive UnitVal where
  | half (v : Half)
  | word (v : Word)
  deriving DecidableEq, Repr

/-- The access-timing class handed to the bus (R43). The block only uses `sequential`. -/
inductive AccessClass where
  | sequential
  | other
  deriving DecidableEq, Repr

/-- What the block shows at its output ports: bus master, irq, and the byte a register read returns. -/
inductive Event where
  | busRead (cls : AccessClass) (addr : Word) (v : UnitVal)
  | busWrite (cls : AccessClass) (addr : Word) (v : UnitVal)
  | irq (c : ChanIdx)
  | regRead (c : ChanIdx) (off : Nat) (b : Byte)
  deriving DecidableEq, Repr

/-- An operation as a collaborator invokes it. These are the ones a bus access of `Run` can bring (R55): all but
`Run` itself, whose caller is waiting for the `Run` in progress (log entry 14). -/
inductive Call where
  | write (c : ChanIdx) (off : Nat) (b : Byte)
  | read (c : ChanIdx) (off : Nat)
  | hblank
  | vblank
  | fifo (f : FifoChan)
  deriving DecidableEq, Repr

/-- What an agent other than the CPU loop sends the block: an operation, or the reset event. The CPU loop sends `RUN`, and
that while something is pending (R104, R190). -/
inductive Signal where
  | call (k : Call)
  | reset
  deriving DecidableEq, Repr

/-- How the platform answers one bus access of the engine (log entry 12): a value of its own in place of memory's for a
read, a list of changed bytes in place of the plain store for a write, and the operations it delivers at this access. -/
structure BusTurn where
  answer : Option Word
  stores : Option (List Host.Cell)
  calls : List Call
  deriving DecidableEq, Repr

/-- The platform leaves the access to memory and delivers nothing. -/
def BusTurn.quiet : BusTurn := ⟨none, none, []⟩

structure State where
  /-- `Chan[0..3]` (R20) -/
  chans : Quad Channel
  /-- R26 -/
  hblankMask : ChanSet
  /-- R26 -/
  vblankMask : ChanSet
  /-- R26 -/
  runSet : ChanSet
  /-- R26; means nothing while `runSet = 0` -/
  current : ChanIdx
  /-- R26 -/
  interleaved : Bool
  /-- the parameters P2 to P11 (log entry 4); no operation writes them -/
  cfg : Config
  /-- bus memory (R40), canonical; see `Memory.wf` -/
  mem : List Host.Cell
  /-- the interrupt controller's flag register `IF`, as far as the block's requests go (R153; log entry 7) -/
  irqFlags : Half
  /-- what the block has shown at its output ports, newest first -/
  log : List Event
  /-- the values `Budget()` will return, next first; past the end it is exhausted (R114; log entry 13) -/
  budget : List Int
  /-- the platform's turns at the bus accesses to come, next first; past the end `BusTurn.quiet` (log entry 12) -/
  bus : List BusTurn
  /-- the bytes of the operations and reset events that will arrive, next first (log entries 1, 16); once it is empty the
  agents fill it with free values (log entry 27) -/
  port : List Byte
  /-- the platform asks for a reset event ahead of the port (R170; log entry 16) -/
  resetReq : Bool
  /-- how many times a free value has been used (log entries 11, 23, 27) -/
  freeCount : Nat
  deriving DecidableEq, Repr

/-- "The list of exception causes is empty" (R150): no operation faults, so there is no fault to name. -/
inductive Fault where
  deriving DecidableEq, Repr

inductive Refusal where
  /-- `exec`, for an operation without a meaning. Safe. -/
  | notModelled (mnemonic : String)
  /-- `RUN`, when nothing is runnable: the document gives it no meaning there (R110, D8). Safe. -/
  | runNotPending
  /-- `step`, when the next bytes at the port are no operation of the block (R60). Safe. -/
  | notAnOperation (e : DecodeError)
  deriving DecidableEq, Repr

/-- A channel after reset (R32). -/
def Channel.reset : Channel where
  srcAddress := 0
  dstAddress := 0
  length := 0
  dstAddressControl := .increment
  srcAddressControl := .increment
  unitSize := .halfword
  timingMode := .immediate
  repeats := false
  allowGamepakDrive := false
  interruptOnCompletion := false
  enable := false
  internalSrc := 0
  internalDst := 0
  internalLength := 0

/-- The machine right after reset: the block as R32 says, the parameters at the spec's defaults, and collaborators
that have done nothing yet. -/
def State.reset : State where
  chans := .all .reset
  hblankMask := 0
  vblankMask := 0
  runSet := 0
  current := 0
  interleaved := false
  cfg := .standard
  mem := []
  irqFlags := 0
  log := []
  budget := []
  bus := []
  port := []
  resetReq := false
  freeCount := 0

end Sys2Proof.Machine

namespace Sys2Proof

/-- FREE VALUE: what the agents send at the `n`-th use of a free value when that fills the port (R170, R177; log entry 27). -/
opaque Config.freeSignals : Nat → List Machine.Signal

/-- FREE VALUE: the draws of `Budget()` that come with it (P10; log entry 27). -/
opaque Config.freeDraws : Nat → List Int

/-- FREE VALUE: the turns of the bus that come with it (R45, R55; log entry 27). -/
opaque Config.freeTurns : Nat → List Machine.BusTurn

end Sys2Proof
end

