-- ==== Sys2Proof/Machine/Operands.lean ====
section
/-! DEFINITION. Operand forms: byte lanes, the two control bytes, the length at the latch, the delta table, units. -/

namespace Sys2Proof.Machine

/-- `w` with byte lane `k` replaced by `b` (R66 (a), R81, R82). -/
def mergeWordLane (w : Word) (k : Nat) (b : Byte) : Word :=
  (w &&& ~~~(0xFF#32 <<< (8 * k))) ||| (b.setWidth 32 <<< (8 * k))

/-- The same on the 16-bit length (R66 (a), R83). -/
def mergeHalfLane (h : Half) (k : Nat) (b : Byte) : Half :=
  (h &&& ~~~(0xFF#16 <<< (8 * k))) ||| (b.setWidth 16 <<< (8 * k))

/-- Codes of R22, bit 1 then bit 0. -/
def DstControl.ofBits (hi lo : Bool) : DstControl :=
  match hi, lo with
  | false, false => .increment
  | false, true => .decrement
  | true, false => .fixed
  | true, true => .incrementReload

def DstControl.bit1 : DstControl → Bool
  | .increment => false
  | .decrement => false
  | .fixed => true
  | .incrementReload => true

def DstControl.bit0 : DstControl → Bool
  | .increment => false
  | .decrement => true
  | .fixed => false
  | .incrementReload => true

def SrcControl.ofBits (hi lo : Bool) : SrcControl :=
  match hi, lo with
  | false, false => .increment
  | false, true => .decrement
  | true, false => .fixed
  | true, true => .reserved

def SrcControl.bit1 : SrcControl → Bool
  | .increment => false
  | .decrement => false
  | .fixed => true
  | .reserved => true

def SrcControl.bit0 : SrcControl → Bool
  | .increment => false
  | .decrement => true
  | .fixed => false
  | .reserved => true

def TimingMode.ofBits (hi lo : Bool) : TimingMode :=
  match hi, lo with
  | false, false => .immediate
  | false, true => .vblank
  | true, false => .hblank
  | true, true => .special

def TimingMode.bit1 : TimingMode → Bool
  | .immediate => false
  | .vblank => false
  | .hblank => true
  | .special => true

def TimingMode.bit0 : TimingMode → Bool
  | .immediate => false
  | .vblank => true
  | .hblank => false
  | .special => true

def UnitSize.ofBit : Bool → UnitSize
  | false => .halfword
  | true => .word

def UnitSize.bit : UnitSize → Bool
  | .halfword => false
  | .word => true

/-- The byte with bit `p` set to `v` and every other bit 0. -/
def placeBit (v : Bool) (p : Nat) : Byte := if v then 1#8 <<< p else 0

/-- Control low, pattern `sddxxxxx` (R62, R84): source-control bit 0 and destination control; bits 4:0 ignored. -/
def Channel.storeCtlLo (ch : Channel) (b : Byte) : Channel :=
  { ch with
    dstAddressControl := .ofBits (b.getLsbD 6) (b.getLsbD 5)
    srcAddressControl := .ofBits ch.srcAddressControl.bit1 (b.getLsbD 7) }

/-- Control low reconstructed; bits 4:0 are 0 (R93). -/
def Channel.ctlLo (ch : Channel) : Byte :=
  placeBit ch.srcAddressControl.bit0 7 ||| placeBit ch.dstAddressControl.bit1 6 ||| placeBit ch.dstAddressControl.bit0 5

/-- Control high, step 1 of 4 (R85): all seven fields, source-control bit 0 kept. -/
def Channel.storeCtlHi (ch : Channel) (l : CtlHiLayout) (b : Byte) : Channel :=
  { ch with
    srcAddressControl := .ofBits (b.getLsbD l.srcControl1) ch.srcAddressControl.bit0
    repeats := b.getLsbD l.repeats
    unitSize := .ofBit (b.getLsbD l.unitSize)
    allowGamepakDrive := b.getLsbD l.gamepak
    timingMode := .ofBits (b.getLsbD l.timing1) (b.getLsbD l.timing0)
    interruptOnCompletion := b.getLsbD l.interrupt
    enable := b.getLsbD l.enable }

/-- Control high reconstructed from the live fields (R94). -/
def Channel.ctlHi (ch : Channel) (l : CtlHiLayout) : Byte :=
  placeBit ch.enable l.enable ||| placeBit ch.interruptOnCompletion l.interrupt
  ||| placeBit ch.timingMode.bit1 l.timing1 ||| placeBit ch.timingMode.bit0 l.timing0
  ||| placeBit ch.allowGamepakDrive l.gamepak ||| placeBit ch.unitSize.bit l.unitSize
  ||| placeBit ch.repeats l.repeats ||| placeBit ch.srcAddressControl.bit1 l.srcControl1

/-- `LatchLength(c, len)` for the length mask of channel `c` (R25). -/
def latchLength (mask len : Half) : Word :=
  let m := len.setWidth 32 &&& mask.setWidth 32
  if m = 0 then mask.setWidth 32 + 1 else m

/-- The size of a unit in bytes (R116, R117). -/
def UnitSize.bytes : UnitSize → Nat
  | .halfword => 2
  | .word => 4

/-- `DstDelta(u, ·)` (R112). -/
def DstControl.delta (u : UnitSize) : DstControl → Int
  | .increment => u.bytes
  | .decrement => -u.bytes
  | .fixed => 0
  | .incrementReload => u.bytes

/-- `SRC_RESERVED_DELTA[u]`, parameter P7. -/
def srcReservedDelta (g : Config) : UnitSize → Int
  | .halfword => g.srcReservedHalf
  | .word => g.srcReservedWord

/-- `SrcDelta(u, ·)` (R112). -/
def SrcControl.delta (g : Config) (u : UnitSize) : SrcControl → Int
  | .increment => u.bytes
  | .decrement => -u.bytes
  | .fixed => 0
  | .reserved => srcReservedDelta g u

/-- A signed delta added modulo 2^32 (R56, R118). -/
def stepAddress (a : Word) (d : Int) : Word := a + BitVec.ofInt 32 d

/-- The unit of size `u` in the low bits of `w`. -/
def UnitVal.ofWord (u : UnitSize) (w : Word) : UnitVal :=
  match u with
  | .halfword => .half (w.setWidth 16)
  | .word => .word w

/-- The bytes of a unit, lowest address first: little-endian bus memory (R44, PRESUMED; log entry 10). -/
def UnitVal.bytes : UnitVal → List Byte
  | .half v => [v.extractLsb' 0 8, v.extractLsb' 8 8]
  | .word v => [v.extractLsb' 0 8, v.extractLsb' 8 8, v.extractLsb' 16 8, v.extractLsb' 24 8]

/-- An address the bus sees as aligned for a unit of size `u` (R189). -/
def aligned (u : UnitSize) (a : Word) : Bool := decide (a.toNat % u.bytes = 0)

end Sys2Proof.Machine
end

