-- ==== Sys2Proof/Machine/Flags.lean ====
section
/-! DEFINITION. Bitsets of channels and the block's flags (R31): the blank masks, `runSet`, the edge of `enable`. -/

namespace Sys2Proof.Machine

/-- `S[c]`. -/
def member (S : ChanSet) (c : ChanIdx) : Bool := S.getLsbD c.val

/-- `S | (1 << c)`. -/
def insertChan (S : ChanSet) (c : ChanIdx) : ChanSet := S ||| (1#4 <<< c.val)

/-- `S & ~(1 << c)`. -/
def removeChan (S : ChanSet) (c : ChanIdx) : ChanSet := S &&& ~~~(1#4 <<< c.val)

/-- `Lowest(S)`: the least member (R100); the empty set has none. -/
def lowest? (S : ChanSet) : Option ChanIdx :=
  if S.getLsbD 0 then some 0
  else if S.getLsbD 1 then some 1
  else if S.getLsbD 2 then some 2
  else if S.getLsbD 3 then some 3
  else none

/-- The set with `c` in it exactly when `b`. -/
def assignChan (S : ChanSet) (c : ChanIdx) (b : Bool) : ChanSet := if b then insertChan S c else removeChan S c

/-- The `enable` bit goes from 0 to 1 (R87). -/
def risingEdge (was now : Bool) : Bool := !was && now

end Sys2Proof.Machine
end

