-- ==== Sys2Proof/Machine/Ops.lean ====
section
/-! DEFINITION. The named operations over the state: channels, bus memory, output ports, the arbitrator (R100 to R104),
the latch (R87) and the reset event (R170). `markRunnable` is the block's analogue of taking an exception (R157) and
`reselect` of returning from one (R158). -/

namespace Sys2Proof.Machine

/-! ### Channels -/

def State.chan (s : State) (c : ChanIdx) : Channel := s.chans.get c

def State.setChan (s : State) (c : ChanIdx) (x : Channel) : State := { s with chans := s.chans.set c x }

/-! ### Bus memory: a list of cells, addresses strictly rising, no cell equal to what an unlisted address reads as -/

/-- What an address that nothing has written reads as (log entry 10, DESIGN CHOICE). -/
def unwrittenByte : Byte := 0

def Memory.read : List Host.Cell → Nat → Byte
  | [], _ => unwrittenByte
  | (k, v) :: rest, a => if k = a then v else Memory.read rest a

def Memory.write : List Host.Cell → Nat → Byte → List Host.Cell
  | [], a, v => if v = unwrittenByte then [] else [(a, v)]
  | (k, w) :: rest, a, v =>
    if a < k then (if v = unwrittenByte then (k, w) :: rest else (a, v) :: (k, w) :: rest)
    else if a = k then (if v = unwrittenByte then rest else (a, v) :: rest)
    else (k, w) :: Memory.write rest a v

/-- Every address of the list is above `lo`, the list rises, and no cell holds the unwritten byte. -/
def Memory.wfAbove : Option Nat → List Host.Cell → Bool
  | _, [] => true
  | lo, (k, v) :: rest =>
    (match lo with | none => true | some l => decide (l < k)) && decide (v ≠ unwrittenByte) && decide (k < 4294967296)
      && Memory.wfAbove (some k) rest

/-- The canonical form. -/
def Memory.wf (m : List Host.Cell) : Bool := Memory.wfAbove none m

/-- The changes of a list of cells in turn, each address taken modulo 2^32. -/
def Memory.apply (m : List Host.Cell) (cells : List Host.Cell) : List Host.Cell :=
  cells.foldl (fun m c => Memory.write m (c.1 % 4294967296) c.2) m

/-! ### Output ports -/

def State.emit (s : State) (e : Event) : State := { s with log := e :: s.log }

/-- `IrqRaise(c)`: an event toward the interrupt controller, whose `IF` takes the channel's bit in (R153). -/
def State.irqRaise (s : State) (c : ChanIdx) : State :=
  { s.emit (.irq c) with irqFlags := s.irqFlags ||| s.cfg.irqBit.get c }

/-- `Pending` (R104). -/
def State.pending (s : State) : Bool := decide (s.runSet ≠ 0)

/-! ### The arbitrator -/

/-- `MarkRunnable(id)` (R101, R102; preemption entry, R157). -/
def State.markRunnable (s : State) (id : ChanIdx) : State :=
  if s.runSet = 0 then { s with runSet := insertChan s.runSet id, current := id }
  else if id < s.current then
    { s with runSet := insertChan s.runSet id, current := id, interleaved := true }
  else { s with runSet := insertChan s.runSet id }

/-- Channel `c` leaves `runSet` (R123, R125). -/
def State.leaveRunSet (s : State) (c : ChanIdx) : State := { s with runSet := removeChan s.runSet c }

/-- The last step of completion, and the resumption of a preempted channel (R126, R158). -/
def State.reselect (s : State) : State :=
  match lowest? s.runSet with
  | some c => { s with current := c }
  | none => s

/-! ### The latch and the masks -/

/-- R87: the programmed addresses and length, masked, into the internal fields. -/
def State.latch (s : State) (c : ChanIdx) : State :=
  s.setChan c { s.chan c with
    internalSrc := (s.chan c).srcAddress &&& s.cfg.srcMask.get c
    internalDst := (s.chan c).dstAddress &&& s.cfg.dstMask.get c
    internalLength := latchLength (s.cfg.lenMask.get c) (s.chan c).length }

/-- R86: bit `c` of the two blank masks from the channel's timing mode. -/
def State.syncBlankMasks (s : State) (c : ChanIdx) : State :=
  { s with
    hblankMask := assignChan s.hblankMask c (decide ((s.chan c).timingMode = .hblank))
    vblankMask := assignChan s.vblankMask c (decide ((s.chan c).timingMode = .vblank)) }

/-! ### Reset -/

/-- The reset event (R170): every field of the block at the value of R32, the collaborators untouched. -/
def State.resetEvent (s : State) : State :=
  { s with
    chans := .all .reset
    hblankMask := 0
    vblankMask := 0
    runSet := 0
    current := 0
    interleaved := false
    resetReq := false }

end Sys2Proof.Machine
end

