-- ==== Sys2Proof/Machine/RegRead.lean ====
section
/-! DEFINITION. Register reads (40_register_interface.md section 2). A read changes nothing (R96); the byte it returns
is recorded at the output port (log entry 19). -/

namespace Sys2Proof.Machine

/-- The byte `Read(c, off)` returns (R91): the two control bytes, and 0x00 at every other offset (R92, R95). -/
def State.regByte (s : State) (c : ChanIdx) (off : Nat) : Byte :=
  if off = 10 then (s.chan c).ctlLo
  else if off = 11 then (s.chan c).ctlHi s.cfg.ctlHi
  else 0

/-- A read returns the byte `b` to its caller. -/
def State.returnByte (s : State) (c : ChanIdx) (off : Nat) (b : Byte) : State := s.emit (.regRead c off b)

/-- `Read(c, off)` (R91). -/
def State.regRead (s : State) (c : ChanIdx) (off : Nat) : State := s.returnByte c off (s.regByte c off)

/-! ### One meaning for each row -/

/-- `R_ZERO`, offset 0 (R92). -/
def execRZero0 (c : ChanIdx) (s : State) : Host.Outcome State Fault Refusal := .next (s.returnByte c 0 0)

/-- `R_ZERO`, offset 1 (R92). -/
def execRZero1 (c : ChanIdx) (s : State) : Host.Outcome State Fault Refusal := .next (s.returnByte c 1 0)

/-- `R_ZERO`, offset 2 (R92). -/
def execRZero2 (c : ChanIdx) (s : State) : Host.Outcome State Fault Refusal := .next (s.returnByte c 2 0)

/-- `R_ZERO`, offset 3 (R92). -/
def execRZero3 (c : ChanIdx) (s : State) : Host.Outcome State Fault Refusal := .next (s.returnByte c 3 0)

/-- `R_ZERO`, offset 4 (R92). -/
def execRZero4 (c : ChanIdx) (s : State) : Host.Outcome State Fault Refusal := .next (s.returnByte c 4 0)

/-- `R_ZERO`, offset 5 (R92). -/
def execRZero5 (c : ChanIdx) (s : State) : Host.Outcome State Fault Refusal := .next (s.returnByte c 5 0)

/-- `R_ZERO`, offset 6 (R92). -/
def execRZero6 (c : ChanIdx) (s : State) : Host.Outcome State Fault Refusal := .next (s.returnByte c 6 0)

/-- `R_ZERO`, offset 7 (R92). -/
def execRZero7 (c : ChanIdx) (s : State) : Host.Outcome State Fault Refusal := .next (s.returnByte c 7 0)

/-- `R_ZERO`, offset 8 (R92). -/
def execRZero8 (c : ChanIdx) (s : State) : Host.Outcome State Fault Refusal := .next (s.returnByte c 8 0)

/-- `R_ZERO`, offset 9 (R92). -/
def execRZero9 (c : ChanIdx) (s : State) : Host.Outcome State Fault Refusal := .next (s.returnByte c 9 0)

/-- `R_CTL_LO` (R93). -/
def execRCtlLo (c : ChanIdx) (s : State) : Host.Outcome State Fault Refusal := .next (s.returnByte c 10 (s.chan c).ctlLo)

/-- `R_CTL_HI` (R94). -/
def execRCtlHi (c : ChanIdx) (s : State) : Host.Outcome State Fault Refusal :=
  .next (s.returnByte c 11 ((s.chan c).ctlHi s.cfg.ctlHi))

/-- `R_RSVD` (R95): "read-as-zero". -/
def execRRsvd (c : ChanIdx) (off : Nat) (s : State) : Host.Outcome State Fault Refusal := .next (s.returnByte c off 0)

end Sys2Proof.Machine
end

