-- ==== Sys2Proof/Machine/RegWrite.lean ====
section
/-! DEFINITION. Register writes (40_register_interface.md section 1). -/

namespace Sys2Proof.Machine

/-- R81: one byte lane of `srcAddress`, nothing else. -/
def State.writeSrcLane (s : State) (c : ChanIdx) (k : Nat) (b : Byte) : State :=
  s.setChan c { s.chan c with srcAddress := mergeWordLane (s.chan c).srcAddress k b }

/-- R82: one byte lane of `dstAddress`, nothing else. -/
def State.writeDstLane (s : State) (c : ChanIdx) (k : Nat) (b : Byte) : State :=
  s.setChan c { s.chan c with dstAddress := mergeWordLane (s.chan c).dstAddress k b }

/-- R83: one byte lane of `length`, nothing else. -/
def State.writeLenLane (s : State) (c : ChanIdx) (k : Nat) (b : Byte) : State :=
  s.setChan c { s.chan c with length := mergeHalfLane (s.chan c).length k b }

/-- R84. -/
def State.writeCtlLo (s : State) (c : ChanIdx) (b : Byte) : State := s.setChan c ((s.chan c).storeCtlLo b)

/-- R85, R86: the seven fields are stored and the blank masks recomputed, whatever the enable bit. -/
def State.storeCtlHi (s : State) (c : ChanIdx) (b : Byte) : State :=
  (s.setChan c ((s.chan c).storeCtlHi s.cfg.ctlHi b)).syncBlankMasks c

/-- R87, R88: what a rising edge of `enable` does once the fields are stored. -/
def State.arm (s : State) (c : ChanIdx) : State :=
  if (s.chan c).timingMode = .immediate then (s.latch c).markRunnable c else s.latch c

/-- R85 to R89. The enable flag is sampled before anything is stored. -/
def State.writeCtlHi (s : State) (c : ChanIdx) (b : Byte) : State :=
  if risingEdge (s.chan c).enable ((s.storeCtlHi c b).chan c).enable then (s.storeCtlHi c b).arm c
  else s.storeCtlHi c b

/-- `Write(c, off, b)` (R80): the offset alone selects what happens; from 12 up, nothing (R90). -/
def State.regWrite (s : State) (c : ChanIdx) (off : Nat) (b : Byte) : State :=
  if off < 4 then s.writeSrcLane c off b
  else if off < 8 then s.writeDstLane c (off - 4) b
  else if off < 10 then s.writeLenLane c (off - 8) b
  else if off = 10 then s.writeCtlLo c b
  else if off = 11 then s.writeCtlHi c b
  else s

/-! ### One meaning for each row -/

/-- `W_SRC`, offset 0 (R81). -/
def execWSrc0 (c : ChanIdx) (b : Byte) (s : State) : Host.Outcome State Fault Refusal := .next (s.writeSrcLane c 0 b)

/-- `W_SRC`, offset 1 (R81). -/
def execWSrc1 (c : ChanIdx) (b : Byte) (s : State) : Host.Outcome State Fault Refusal := .next (s.writeSrcLane c 1 b)

/-- `W_SRC`, offset 2 (R81). -/
def execWSrc2 (c : ChanIdx) (b : Byte) (s : State) : Host.Outcome State Fault Refusal := .next (s.writeSrcLane c 2 b)

/-- `W_SRC`, offset 3 (R81). -/
def execWSrc3 (c : ChanIdx) (b : Byte) (s : State) : Host.Outcome State Fault Refusal := .next (s.writeSrcLane c 3 b)

/-- `W_DST`, offset 4 (R82). -/
def execWDst0 (c : ChanIdx) (b : Byte) (s : State) : Host.Outcome State Fault Refusal := .next (s.writeDstLane c 0 b)

/-- `W_DST`, offset 5 (R82). -/
def execWDst1 (c : ChanIdx) (b : Byte) (s : State) : Host.Outcome State Fault Refusal := .next (s.writeDstLane c 1 b)

/-- `W_DST`, offset 6 (R82). -/
def execWDst2 (c : ChanIdx) (b : Byte) (s : State) : Host.Outcome State Fault Refusal := .next (s.writeDstLane c 2 b)

/-- `W_DST`, offset 7 (R82). -/
def execWDst3 (c : ChanIdx) (b : Byte) (s : State) : Host.Outcome State Fault Refusal := .next (s.writeDstLane c 3 b)

/-- `W_LEN`, offset 8 (R83). -/
def execWLen0 (c : ChanIdx) (b : Byte) (s : State) : Host.Outcome State Fault Refusal := .next (s.writeLenLane c 0 b)

/-- `W_LEN`, offset 9 (R83). -/
def execWLen1 (c : ChanIdx) (b : Byte) (s : State) : Host.Outcome State Fault Refusal := .next (s.writeLenLane c 1 b)

/-- `W_CTL_LO` (R84). -/
def execWCtlLo (c : ChanIdx) (b : Byte) (s : State) : Host.Outcome State Fault Refusal := .next (s.writeCtlLo c b)

/-- `W_CTL_HI` (R85 to R89). -/
def execWCtlHi (c : ChanIdx) (b : Byte) (s : State) : Host.Outcome State Fault Refusal := .next (s.writeCtlHi c b)

/-- `W_RSVD` (R90): "write-as-no-op". -/
def execWRsvd (_c : ChanIdx) (_off : Nat) (_b : Byte) (s : State) : Host.Outcome State Fault Refusal := .next s

end Sys2Proof.Machine
end

