-- ==== Sys2Proof/Machine/Triggers.lean ====
section
/-! DEFINITION. The event entry points of the video timing and the audio FIFO (43_triggers_and_demand.md). -/

namespace Sys2Proof.Machine

/-- R140, R141 as documented: re-mark the lowest channel that is both runnable and in the blank mask. -/
def State.documentedTrigger (s : State) (mask : ChanSet) : State :=
  match lowest? (s.runSet &&& mask) with
  | some id => s.markRunnable id
  | none => s

/-- The optional variant of R144 for one channel. -/
def State.scanOne (s : State) (m : TimingMode) (c : ChanIdx) : State :=
  if (s.chan c).enable && decide ((s.chan c).timingMode = m) then s.markRunnable c else s

/-- The optional variant of R144: channels 0, 1, 2, 3 in that order. -/
def State.scanTrigger (s : State) (m : TimingMode) : State :=
  (((s.scanOne m 0).scanOne m 1).scanOne m 2).scanOne m 3

/-- `TriggerHBlank()` (R140; R144). -/
def State.hblankTrigger (s : State) : State :=
  match s.cfg.trigger with
  | .documented => s.documentedTrigger s.hblankMask
  | .scan => s.scanTrigger .hblank

/-- `TriggerVBlank()` (R141; R144). -/
def State.vblankTrigger (s : State) : State :=
  match s.cfg.trigger with
  | .documented => s.documentedTrigger s.vblankMask
  | .scan => s.scanTrigger .vblank

/-- `FifoRequest(c)` (R143): the request is unconditional inside the block. -/
def State.fifoRequest (s : State) (f : FifoChan) : State := s.markRunnable f.idx

/-! ### One meaning for each row -/

/-- `TRIGGER_HBLANK` (R140). -/
def execTriggerHBlank (s : State) : Host.Outcome State Fault Refusal := .next s.hblankTrigger

/-- `TRIGGER_VBLANK` (R141). -/
def execTriggerVBlank (s : State) : Host.Outcome State Fault Refusal := .next s.vblankTrigger

/-- `FIFO_REQUEST` of channel 1 (R143). -/
def execFifoRequest1 (s : State) : Host.Outcome State Fault Refusal := .next (s.fifoRequest .ch1)

/-- `FIFO_REQUEST` of channel 2 (R143). -/
def execFifoRequest2 (s : State) : Host.Outcome State Fault Refusal := .next (s.fifoRequest .ch2)

end Sys2Proof.Machine
end

