-- ==== Sys2Proof/Machine/Bus.lean ====
section
/-! DEFINITION. The bus as the engine meets it: `MemRead` and `MemWrite` (R43 to R46), the block's own registers when
the platform maps them on the bus (R49, R55, R187), and the operations a bus access brings (R55). -/

namespace Sys2Proof.Machine

/-! ### Operations a collaborator invokes -/

/-- One operation, executed completely. -/
def State.perform (s : State) : Call → State
  | .write c off b => s.regWrite c off b
  | .read c off => s.regRead c off
  | .hblank => s.hblankTrigger
  | .vblank => s.vblankTrigger
  | .fifo f => s.fifoRequest f

def State.performAll (s : State) (calls : List Call) : State := calls.foldl State.perform s

/-! ### Addresses -/

/-- The register a bus address is, if the platform maps the blocks there: block `c` at `DMA_BASE + 12 * c` (R49). -/
def registerAt (g : Config) (a : Word) : Option (ChanIdx × Nat) :=
  match g.dmaBase with
  | none => none
  | some base =>
    if h : (a - base).toNat < 48 then some (⟨(a - base).toNat / 12, by omega⟩, (a - base).toNat % 12) else none

/-- One byte of the bus space. A register byte is what `Read` returns, which changes nothing (R96). -/
def State.busByte (s : State) (a : Word) : Byte :=
  match registerAt s.cfg a with
  | some (c, off) => s.regByte c off
  | none => Memory.read s.mem a.toNat

/-- The address of byte `k` of a unit at `a`. -/
def byteAddr (a : Word) (k : Nat) : Word := a + BitVec.ofNat 32 k

/-- The unit of size `u` at `a`, least significant byte at the lowest address (log entry 10). -/
def State.loadUnit (s : State) (u : UnitSize) (a : Word) : UnitVal :=
  match u with
  | .halfword => .half (s.busByte (byteAddr a 1) ++ s.busByte a)
  | .word => .word (s.busByte (byteAddr a 3) ++ s.busByte (byteAddr a 2) ++ s.busByte (byteAddr a 1) ++ s.busByte a)

/-- One byte written to bus memory; a register byte is no memory. -/
def State.storeMemByte (s : State) (a : Word) (b : Byte) : State :=
  match registerAt s.cfg a with
  | some _ => s
  | none => { s with mem := Memory.write s.mem a.toNat b }

/-- One byte written to a register block: a nested `Write` (R187); a memory byte is no register. -/
def State.storeRegByte (s : State) (a : Word) (b : Byte) : State :=
  match registerAt s.cfg a with
  | some (c, off) => s.regWrite c off b
  | none => s

/-- The bytes of a unit into bus memory, from address `a` up. -/
def State.storeMemBytes (s : State) (a : Word) : List Byte → State
  | [] => s
  | b :: rest => (s.storeMemByte a b).storeMemBytes (a + 1) rest

/-- The order in which the bytes of a unit reach the register blocks (D29, R176; log entry 8). -/
def laneOrder (g : Config) : UnitVal → List Nat
  | .half _ => g.halfLanes.map Fin.val
  | .word _ => g.wordLanes.map Fin.val

/-- The bytes of a unit into the register blocks, in the platform's lane order. -/
def State.storeRegBytes (s : State) (a : Word) (bytes : List Byte) (order : List Nat) : State :=
  order.foldl (fun s k => s.storeRegByte (byteAddr a k) (bytes.getD k 0)) s

/-- An aligned write of a unit. -/
def State.storeUnit (s : State) (a : Word) (v : UnitVal) : State :=
  (s.storeMemBytes a v.bytes).storeRegBytes a v.bytes (laneOrder s.cfg v)

/-! ### Bus accesses -/

/-- The platform's turn at the next bus access. -/
def State.turn (s : State) : BusTurn :=
  match s.bus with
  | [] => .quiet
  | t :: _ => t

def State.nextTurn (s : State) : State := { s with bus := s.bus.tail }

/-- One free value has been used. -/
def State.useFree (s : State) : State := { s with freeCount := s.freeCount + 1 }

/-- What a read of size `u` at `a` returns: the platform's own answer if it gives one, else memory; if the address is
misaligned, what the bus makes of it, a free value (R45). -/
def State.readValue (s : State) (u : UnitSize) (a : Word) : UnitVal :=
  match s.turn.answer with
  | some w => .ofWord u w
  | none => if aligned u a then s.loadUnit u a else .ofWord u (Config.freeRead s.freeCount)

/-- Whether that value is a free one. -/
def State.readIsFree (s : State) (u : UnitSize) (a : Word) : Bool := s.turn.answer.isNone && !aligned u a

/-- The read itself: the access is shown, class sequential (R43), and the platform's turn is over. -/
def State.readAccess (s : State) (u : UnitSize) (a : Word) : State :=
  ((if s.readIsFree u a then s.useFree else s).emit (.busRead .sequential a (s.readValue u a))).nextTurn

/-- `MemRead(a, n)`, and the operations the access brings (R55). -/
def State.busRead (s : State) (u : UnitSize) (a : Word) : UnitVal × State :=
  (s.readValue u a, (s.readAccess u a).performAll s.turn.calls)

def UnitVal.size : UnitVal → UnitSize
  | .half _ => .halfword
  | .word _ => .word

/-- What a write of `v` at `a` does on the bus: the platform's own changes if it gives them, else the plain store; if the
address is misaligned, free changes (R45). -/
def State.writeEffect (s : State) (a : Word) (v : UnitVal) (t : BusTurn) : State :=
  match t.stores with
  | some cells => { s with mem := Memory.apply s.mem cells }
  | none =>
    if aligned v.size a then s.storeUnit a v
    else { s.useFree with mem := Memory.apply s.mem (Config.freeStores s.freeCount) }

/-- The write itself: the access is shown, class sequential (R43), it takes effect, and the platform's turn is over. -/
def State.writeAccess (s : State) (a : Word) (v : UnitVal) : State :=
  ((s.emit (.busWrite .sequential a v)).nextTurn).writeEffect a v s.turn

/-- `MemWrite(a, n, v)`, and the operations the access brings (R55). -/
def State.busWrite (s : State) (a : Word) (v : UnitVal) : State := (s.writeAccess a v).performAll s.turn.calls

end Sys2Proof.Machine
end

