-- ==== Sys2Proof/Machine/Engine.lean ====
section
/-! DEFINITION. The transfer engine, `Run` (42_transfer_engine.md). -/

namespace Sys2Proof.Machine

/-- R118: both addresses by their deltas, the length by one. -/
def State.advance (s : State) (ch : ChanIdx) (dSrc dDst : Int) : State :=
  s.setChan ch { s.chan ch with
    internalSrc := stepAddress (s.chan ch).internalSrc dSrc
    internalDst := stepAddress (s.chan ch).internalDst dDst
    internalLength := (s.chan ch).internalLength - 1 }

/-- One unit (R116, R117, R118): read, write, advance. An operation that a bus access brings takes effect before what
follows it, so the destination and the advance use the fields as they then stand (R55, R187). -/
def State.transferUnit (s : State) (ch : ChanIdx) (u : UnitSize) (dSrc dDst : Int) : State :=
  let r := s.busRead u (s.chan ch).internalSrc
  (r.2.busWrite (r.2.chan ch).internalDst r.1).advance ch dSrc dDst

/-- R121. -/
def State.reloadLength (s : State) (ch : ChanIdx) : State :=
  s.setChan ch { s.chan ch with internalLength := latchLength (s.cfg.lenMask.get ch) (s.chan ch).length }

/-- R122: only in increment-and-reload mode. -/
def State.reloadDst (s : State) (ch : ChanIdx) : State :=
  if (s.chan ch).dstAddressControl = .incrementReload then
    s.setChan ch { s.chan ch with internalDst := (s.chan ch).dstAddress &&& s.cfg.dstMask.get ch }
  else s

/-- R121, R122: a repeating channel takes its length, and where configured its destination, from the programmed fields. -/
def State.reload (s : State) (ch : ChanIdx) : State := (s.reloadLength ch).reloadDst ch

/-- R121 to R124: a repeating channel is re-armed, and leaves `runSet` unless its timing is immediate. -/
def State.rearm (s : State) (ch : ChanIdx) : State :=
  if ((s.reload ch).chan ch).timingMode = .immediate then s.reload ch else (s.reload ch).leaveRunSet ch

/-- R125: a channel that does not repeat clears its `enable` and leaves `runSet`. -/
def State.retire (s : State) (ch : ChanIdx) : State :=
  (s.setChan ch { s.chan ch with enable := false }).leaveRunSet ch

/-- R120: the interrupt request, if configured. -/
def State.raiseCompletion (s : State) (ch : ChanIdx) : State :=
  if (s.chan ch).interruptOnCompletion then s.irqRaise ch else s

/-- R121 to R125: what completion does with the channel. -/
def State.settle (s : State) (ch : ChanIdx) : State :=
  if (s.chan ch).repeats then s.rearm ch else s.retire ch

/-- `Complete(ch)` (R120 to R126). -/
def State.complete (s : State) (ch : ChanIdx) : State := ((s.raiseCompletion ch).settle ch).reselect

/-- The loop of `Run` (R113 to R119), by recursion on the budget draws: the length test first (R113), then the budget
check, which takes one draw (R114; past the last draw it is exhausted, log entry 13), then the preemption check (R115),
then one unit. -/
def State.runLoop (ch : ChanIdx) (u : UnitSize) (dSrc dDst : Int) : List Int → State → State
  | [], s => if (s.chan ch).internalLength = 0 then s.complete ch else s
  | d :: ds, s =>
    if (s.chan ch).internalLength = 0 then s.complete ch
    else if d ≤ 0 then { s with budget := ds }
    else if s.interleaved then { s with budget := ds, interleaved := false }
    else State.runLoop ch u dSrc dDst ds (State.transferUnit { s with budget := ds } ch u dSrc dDst)

/-- `Run` past its precondition: the channel, the unit size and the deltas are sampled once (R110, R111). -/
def State.runEngine (s : State) : State :=
  let ch := s.current
  let u := (s.chan ch).unitSize
  State.runLoop ch u ((s.chan ch).srcAddressControl.delta s.cfg u) ((s.chan ch).dstAddressControl.delta u) s.budget s

/-- `RUN` (R110). With `runSet = 0` the document gives it no meaning and the model refuses (R6, R110, D8). -/
def execRun (s : State) : Host.Outcome State Fault Refusal :=
  if s.runSet = 0 then .refused .runNotPending else .next s.runEngine

end Sys2Proof.Machine
end

