-- ==== Sys2Proof/Machine/Dispatch.lean ====
section
/-! DEFINITION. One arm per row of opcode_table.json. -/

namespace Sys2Proof.Machine

def exec (i : Instr) (s : State) : Host.Outcome State Fault Refusal :=
  match i with
  | .wSrc0 c b => Sys2Proof.Machine.execWSrc0 c b s
  | .wSrc1 c b => Sys2Proof.Machine.execWSrc1 c b s
  | .wSrc2 c b => Sys2Proof.Machine.execWSrc2 c b s
  | .wSrc3 c b => Sys2Proof.Machine.execWSrc3 c b s
  | .wDst0 c b => Sys2Proof.Machine.execWDst0 c b s
  | .wDst1 c b => Sys2Proof.Machine.execWDst1 c b s
  | .wDst2 c b => Sys2Proof.Machine.execWDst2 c b s
  | .wDst3 c b => Sys2Proof.Machine.execWDst3 c b s
  | .wLen0 c b => Sys2Proof.Machine.execWLen0 c b s
  | .wLen1 c b => Sys2Proof.Machine.execWLen1 c b s
  | .wCtlLo c b => Sys2Proof.Machine.execWCtlLo c b s
  | .wCtlHi c b => Sys2Proof.Machine.execWCtlHi c b s
  | .wRsvd c off b => Sys2Proof.Machine.execWRsvd c off b s
  | .rZero0 c => Sys2Proof.Machine.execRZero0 c s
  | .rZero1 c => Sys2Proof.Machine.execRZero1 c s
  | .rZero2 c => Sys2Proof.Machine.execRZero2 c s
  | .rZero3 c => Sys2Proof.Machine.execRZero3 c s
  | .rZero4 c => Sys2Proof.Machine.execRZero4 c s
  | .rZero5 c => Sys2Proof.Machine.execRZero5 c s
  | .rZero6 c => Sys2Proof.Machine.execRZero6 c s
  | .rZero7 c => Sys2Proof.Machine.execRZero7 c s
  | .rZero8 c => Sys2Proof.Machine.execRZero8 c s
  | .rZero9 c => Sys2Proof.Machine.execRZero9 c s
  | .rCtlLo c => Sys2Proof.Machine.execRCtlLo c s
  | .rCtlHi c => Sys2Proof.Machine.execRCtlHi c s
  | .rRsvd c off => Sys2Proof.Machine.execRRsvd c off s
  | .triggerHBlank => Sys2Proof.Machine.execTriggerHBlank s
  | .triggerVBlank => Sys2Proof.Machine.execTriggerVBlank s
  | .fifoRequest1 => Sys2Proof.Machine.execFifoRequest1 s
  | .fifoRequest2 => Sys2Proof.Machine.execFifoRequest2 s
  | .run => Sys2Proof.Machine.execRun s

end Sys2Proof.Machine
end

