-- ==== Sys2Proof/Machine/Fetch.lean ====
section
/-! DEFINITION. What reaches the block next (log entries 1, 16, 17, 27). -/

namespace Sys2Proof.Machine

/-- The bytes of a signal at the port. -/
def Signal.record : Signal → List Byte
  | .call (.write c off b) => writeRecord c off b
  | .call (.read c off) => readRecord c off
  | .call .hblank => encode .triggerHBlank
  | .call .vblank => encode .triggerVBlank
  | .call (.fifo f) => encode (Instr.fifoRequest f)
  | .reset => resetRecord

/-- The bytes of signals, in order. -/
def portBytes (ks : List Signal) : List Byte := ks.flatMap Signal.record

/-- The port is served, and the agents send what they send next: free values, any number of signals with any draws and
any turns of the bus (log entry 27). The block is as it was. -/
def State.supplied (s : State) : State :=
  { s with
    port := portBytes (Config.freeSignals s.freeCount)
    budget := s.budget ++ Config.freeDraws s.freeCount
    bus := s.bus ++ Config.freeTurns s.freeCount
    freeCount := s.freeCount + 1 }

/-- What the outside world does next, and the state it leaves the block with. -/
inductive Arrival where
  /-- the reset event (R170) -/
  | reset (s : State)
  /-- nothing: the block is idle (R32, R170) -/
  | nothing (s : State)
  /-- an operation -/
  | operation (i : Instr) (s : State)
  /-- bytes that are no operation of the block -/
  | unknown (e : DecodeError)

/-- The reset request first, then the port in order (log entry 16). Once it is served the agents send more (log entry 27), and if the
block is `Pending` the CPU loop invokes `RUN` (R104; the fairness that R190 asks for). So a reset may come between any two
operations, any number of times, and a repeating immediate channel is run for ever (R177). -/
def State.arrival (s : State) : Arrival :=
  if s.resetReq then .reset s
  else
    match s.port with
    | [] => if s.pending then .operation .run s.supplied else .nothing s.supplied
    | b :: rest =>
      match decode (b :: rest) with
      | .op i rest' => .operation i { s with port := rest' }
      | .reset rest' => .reset { s with port := rest' }
      | .bad e => .unknown e

/-- `s` with the operation of a table word next at the port. -/
def State.presentWord (s : State) (nbits w : Nat) : State :=
  { s with port := tableRecord nbits w ++ s.port, resetReq := false }

end Sys2Proof.Machine
end

