-- ==== Sys2Proof/Machine/Step.lean ====
section
/-! DEFINITION. One step: the next arrival, executed completely (R4). -/

namespace Sys2Proof.Machine

def step (s : State) : Host.Outcome State Fault Refusal :=
  match s.arrival with
  | .reset s' => .next s'.resetEvent
  | .nothing s' => .next s'
  | .operation i s' => exec i s'
  | .unknown e => .refused (.notAnOperation e)

/-- `s` with the operation of a table word where `step` takes its next one (log entries 1, 2). -/
def State.withFetchWord (s : State) (nbits w : Nat) : State := s.presentWord nbits w

end Sys2Proof.Machine
end

