-- ==== Sys2Proof/Safety.lean ====
section
/-! DEFINITION. What claims about the machine speak of: its invariants, what an operation leaves alone, the units of an
undisturbed transfer, and steps in a row. -/

namespace Sys2Proof.Machine

/-! ### Invariants -/

/-- R28: while something is runnable, `current` is the lowest member of `runSet`. -/
def State.CurrentIsLowest (s : State) : Prop := s.runSet ≠ 0 → lowest? s.runSet = some s.current

/-- R26: a channel's bit in each blank mask says whether it is programmed for that blank timing. -/
def State.MasksMatchTiming (s : State) : Prop :=
  ∀ c, member s.hblankMask c = decide ((s.chan c).timingMode = .hblank)
    ∧ member s.vblankMask c = decide ((s.chan c).timingMode = .vblank)

/-- R57, R25: no internal length is above its channel's mask + 1. -/
def State.LengthsBounded (s : State) : Prop :=
  ∀ c, (s.chan c).internalLength ≤ (s.cfg.lenMask.get c).setWidth 32 + 1

/-- Bus memory is in its canonical form. -/
def State.MemoryCanonical (s : State) : Prop := Memory.wf s.mem = true

/-- The invariant of the machine. -/
structure State.Inv (s : State) : Prop where
  currentIsLowest : s.CurrentIsLowest
  masksMatchTiming : s.MasksMatchTiming
  lengthsBounded : s.LengthsBounded
  memoryCanonical : s.MemoryCanonical

/-! ### What stays the same -/

/-- Every channel but `c` is as it was. -/
def SameOtherChannels (c : ChanIdx) (s t : State) : Prop := ∀ d, d ≠ c → t.chan d = s.chan d

/-- The controller's five fields (R26) are as they were. -/
def SameController (s t : State) : Prop :=
  t.hblankMask = s.hblankMask ∧ t.vblankMask = s.vblankMask ∧ t.runSet = s.runSet ∧ t.current = s.current
    ∧ t.interleaved = s.interleaved

/-- The scheduling fields of the controller are as they were. -/
def SameSchedule (s t : State) : Prop :=
  t.runSet = s.runSet ∧ t.current = s.current ∧ t.interleaved = s.interleaved

/-- Every byte of bus memory reads as it did. -/
def SameMemory (s t : State) : Prop := ∀ a : Nat, Memory.read t.mem a = Memory.read s.mem a

/-- Parameters, interrupt flags, budget, bus script, port, reset request and free values are as they were. -/
def SameEnvironment (s t : State) : Prop :=
  t.cfg = s.cfg ∧ t.irqFlags = s.irqFlags ∧ t.budget = s.budget ∧ t.bus = s.bus ∧ t.port = s.port
    ∧ t.resetReq = s.resetReq ∧ t.freeCount = s.freeCount

/-- The internal (latched) fields of channel `c` are as they were (R23). -/
def SameInternals (c : ChanIdx) (s t : State) : Prop :=
  (t.chan c).internalSrc = (s.chan c).internalSrc ∧ (t.chan c).internalDst = (s.chan c).internalDst
    ∧ (t.chan c).internalLength = (s.chan c).internalLength

/-! ### Nested operations -/

/-- The instruction an operation nested in a bus access is: the one its offset, or its entry point, selects. -/
def Call.instr : Call → Instr
  | .write c off b => decodeWrite c off b
  | .read c off => decodeRead c off
  | .hblank => .triggerHBlank
  | .vblank => .triggerVBlank
  | .fifo f => .fifoRequest f

/-! ### Undisturbed transfers -/

/-- The byte addresses of a unit of size `u` at `a`. -/
def unitAddrs (u : UnitSize) (a : Word) : List Word := (List.range u.bytes).map (byteAddr a)

/-- The unit lies in plain bus memory: aligned, and no byte of it in the block's own registers. -/
def plainUnit (g : Config) (u : UnitSize) (a : Word) : Bool :=
  aligned u a && (unitAddrs u a).all (fun x => (registerAt g x).isNone)

/-- `base` advanced by `k` deltas: where unit `k` of a transfer is (R129). -/
def unitAddr (base : Word) (d : Int) (k : Nat) : Word := base + BitVec.ofInt 32 (k * d)

/-- The delta of the source side of channel `c`, as `Run` samples it (R111). -/
def State.srcDelta (s : State) (c : ChanIdx) : Int :=
  (s.chan c).srcAddressControl.delta s.cfg (s.chan c).unitSize

/-- The delta of the destination side (R111). -/
def State.dstDelta (s : State) (c : ChanIdx) : Int := (s.chan c).dstAddressControl.delta (s.chan c).unitSize

/-- Where `Run` reads unit `k` of channel `c`. -/
def State.readAddr (s : State) (c : ChanIdx) (k : Nat) : Word := unitAddr (s.chan c).internalSrc (s.srcDelta c) k

/-- Where `Run` writes unit `k` of channel `c`. -/
def State.writeAddr (s : State) (c : ChanIdx) (k : Nat) : Word := unitAddr (s.chan c).internalDst (s.dstDelta c) k

/-! ### Steps in a row -/

/-- `n` steps in a row; one that stops ends them. -/
def stepN : Nat → State → Host.Outcome State Fault Refusal
  | 0, s => .next s
  | n + 1, s =>
    match step s with
    | .next t => stepN n t
    | .fault f => .fault f
    | .refused r => .refused r

/-- `n` invocations of `RUN` in a row; one that stops ends them. -/
def runN : Nat → State → Host.Outcome State Fault Refusal
  | 0, s => .next s
  | n + 1, s =>
    match exec .run s with
    | .next t => runN n t
    | .fault f => .fault f
    | .refused r => .refused r

/-- What waits at the port comes from agents other than the CPU loop, or is a reset event. -/
def State.PortHoldsSignals (s : State) : Prop := ∃ ks : List Signal, s.port = portBytes ks

/-- Channel `c` is runnable and is reselected for ever: immediate timing, repeat (R177). -/
def State.EndlessRepeat (s : State) (c : ChanIdx) : Prop :=
  member s.runSet c = true ∧ (s.chan c).repeats = true ∧ (s.chan c).timingMode = .immediate

/-- Every unit of channel `c`, however many, is written to plain bus memory, from where its destination stands and from
where a reload puts it. -/
def State.DestinationStaysPlain (s : State) (c : ChanIdx) : Prop :=
  ∀ k, plainUnit s.cfg (s.chan c).unitSize (s.writeAddr c k) = true
    ∧ plainUnit s.cfg (s.chan c).unitSize
        (unitAddr ((s.chan c).dstAddress &&& s.cfg.dstMask.get c) (s.dstDelta c) k) = true

/-! ### Events -/

/-- A bus access without its value. -/
inductive BusPort where
  | reads (a : Word)
  | writes (a : Word)
  deriving DecidableEq, Repr

/-- The bus access an event is, if it is one. -/
def Event.port? : Event → Option BusPort
  | .busRead _ a _ => some (.reads a)
  | .busWrite _ a _ => some (.writes a)
  | .irq _ => none
  | .regRead _ _ _ => none

/-- The bus accesses of a list of events. -/
def busPorts (es : List Event) : List BusPort := es.filterMap Event.port?

/-- The interrupt requests among events. -/
def irqsOf (es : List Event) : List ChanIdx :=
  es.filterMap fun e => match e with | .irq c => some c | .busRead _ _ _ => none | .busWrite _ _ _ => none | .regRead _ _ _ => none

end Sys2Proof.Machine
end

