-- ==== Sys2Proof/Certificates/Slice0/Obligations.lean ====
section
/-! DEFINITION. What is claimed of the machine. Each statement names the rule of spec/ it formalises; where a clause
rests on a decision of the spec (92_eei_decisions.md) or on a choice of the model (notes/assumptions), it says so. -/

open Sys2Proof Sys2Proof.Machine

/-! ### Reset, step, encoding -/

/-- R32 (decision D5, the spec's own; log entry 15): after reset every channel field is zero, `false` or the first member of its
enumeration, the controller is zero, nothing is pending, and every register offset reads 0x00. -/
def Obligations.ResetLeavesTheBlockZeroAndIdle : Prop :=
  (∀ c, State.reset.chan c =
    { srcAddress := 0, dstAddress := 0, length := 0, dstAddressControl := .increment, srcAddressControl := .increment,
      unitSize := .halfword, timingMode := .immediate, repeats := false, allowGamepakDrive := false,
      interruptOnCompletion := false, enable := false, internalSrc := 0, internalDst := 0, internalLength := 0 })
  ∧ State.reset.hblankMask = 0 ∧ State.reset.vblankMask = 0 ∧ State.reset.runSet = 0 ∧ State.reset.current = 0
  ∧ State.reset.interleaved = false ∧ State.reset.pending = false
  ∧ ∀ c off, State.reset.regByte c off = 0

/-- A step takes the operation at the port and executes it completely (R4; log entry 1): the bytes of the operation
leave the port, and `exec` does the rest. -/
def Obligations.StepExecutesTheOperationAtThePort : Prop :=
  ∀ (s : State) (i : Instr) (rest : List Byte), s.resetReq = false → decode s.port = .op i rest →
    step s = exec i { s with port := rest }

/-- With no reset asked for and the port served: while nothing is pending the block does nothing (R32, R170: "the block
does nothing until a register write or a `FifoRequest` arrives"), and while something is pending the CPU loop invokes `RUN`
(R104, R190). Either way only what the outside world has still to bring changes before that, by free values: a filled port,
further draws and further turns of the bus (log entries 17, 27). That bytes which are no operation of the block are refused
by name is the model's choice (log entry 26): R60 only says that nothing but its operations can be invoked. The bytes and
the port are the model's too (log entry 1). -/
def Obligations.StepIdlesOrRunsOnAnEmptyPortAndRefusesUnknownBytes : Prop :=
  ∀ s : State, s.resetReq = false →
    (s.port = [] → s.runSet = 0 → step s = .next s.supplied)
    ∧ (s.port = [] → s.runSet ≠ 0 → step s = exec .run s.supplied)
    ∧ (∃ (ks : List Signal) (ds : List Int) (ts : List BusTurn), s.supplied =
        { s with port := portBytes ks, budget := s.budget ++ ds, bus := s.bus ++ ts, freeCount := s.freeCount + 1 })
    ∧ ∀ e, s.port ≠ [] → decode s.port = .bad e → step s = .refused (.notAnOperation e)

/-- R170 (decision D5, log entry 15): the reset event puts every field of the block at its reset value in one step, shows
nothing at the output ports and leaves the collaborators alone. That it arrives by a request field, which a step serves
before whatever waits at the port, or by a record at the port, in its place among the operations, is the model's choice
(log entry 16). -/
def Obligations.ResetEventClearsTheBlockOnly : Prop :=
  ∀ (s : State) (p : List Byte),
    (s.resetReq = true ∧ s.port = p) ∨ (s.resetReq = false ∧ s.port = resetRecord ++ p) → ∃ t, step s = .next t
    ∧ (∀ c, t.chan c = State.reset.chan c)
    ∧ t.hblankMask = 0 ∧ t.vblankMask = 0 ∧ t.runSet = 0 ∧ t.current = 0 ∧ t.interleaved = false
    ∧ t.resetReq = false ∧ t.log = s.log ∧ t.mem = s.mem ∧ t.irqFlags = s.irqFlags ∧ t.cfg = s.cfg
    ∧ t.budget = s.budget ∧ t.bus = s.bus ∧ t.port = p ∧ t.freeCount = s.freeCount

/-- Decoding the record of a well-formed operation gives the operation back, with every operand, and leaves the bytes
after it. -/
def Obligations.DecodeReadsBackEveryEncoding : Prop :=
  ∀ (i : Instr) (rest : List Byte), i.wf = true → decode (encode i ++ rest) = .op i rest

/-- A few records written out (R60, R61; the record around the offset is the model's, log entries 1, 3), one of them
with an offset of 37 bits. -/
def Obligations.WrittenOutRecordsDecodeByTheOffsetTable : Prop :=
  decode [0x03, 0x02, 0x7A, 0x00] = .op (.wSrc3 2 0x7A) []
  ∧ decode [0x07, 0x01, 0x04, 0x00] = .op (.wDst3 1 0x04) []
  ∧ decode [0x09, 0x03, 0xC0, 0x00] = .op (.wLen1 3 0xC0) []
  ∧ decode [0x0B, 0x00, 0x84, 0x00] = .op (.wCtlHi 0 0x84) []
  ∧ decode [0x0A, 0x07, 0x00, 0x00] = .op (.rCtlLo 3) []
  ∧ decode [0x00, 0x04, 0x00, 0x01] = .op (.rRsvd 0 256) []
  ∧ decode [0x0B, 0x02, 0x80, 0x80, 0x80, 0x80, 0x80, 0x01] = .op (.wRsvd 2 68719476747 0x80) []
  ∧ decode [0x02, 0x09, 0x00, 0x00] = .op .fifoRequest1 []
  ∧ decode [0x03, 0x08, 0x00, 0x00] = .op .run []

/-- R80, R71: a write is dispatched on the offset alone, an offset of any width, for every channel alike; it touches no
other channel, and the controller at offset 11 only. The record is the model's (log entries 1, 3). -/
def Obligations.WriteDispatchesOnTheOffsetAlone : Prop :=
  ∀ (c : ChanIdx) (off : Nat) (b : Byte) (rest : List Byte) (s : State),
    ∃ i t, decode (writeRecord c off b ++ rest) = .op i rest ∧ exec i s = .next t
      ∧ (∀ k : Fin 4, off = k.val → i = .srcWrite k c b)
      ∧ (∀ k : Fin 4, off = 4 + k.val → i = .dstWrite k c b)
      ∧ (∀ k : Fin 2, off = 8 + k.val → i = .lenWrite k c b)
      ∧ (off = 10 → i = .wCtlLo c b) ∧ (off = 11 → i = .wCtlHi c b) ∧ (12 ≤ off → i = .wRsvd c off b)
      ∧ SameOtherChannels c s t ∧ (off ≠ 11 → SameController s t)

/-- R91, R96, R71: a read is dispatched on the offset alone, an offset of any width, changes nothing, and returns 0x00 at
every offset but 10 and 11. The byte it returns is recorded in the log (log entry 19), the record is the model's (log
entries 1, 3). -/
def Obligations.ReadDispatchesOnTheOffsetAndChangesNothing : Prop :=
  ∀ (c : ChanIdx) (off : Nat) (rest : List Byte) (s : State),
    ∃ i b, decode (readRecord c off ++ rest) = .op i rest
      ∧ exec i s = .next { s with log := .regRead c off b :: s.log }
      ∧ (∀ k : Fin 10, off = k.val → i = .zeroRead k c)
      ∧ (off = 10 → i = .rCtlLo c) ∧ (off = 11 → i = .rCtlHi c) ∧ (12 ≤ off → i = .rRsvd c off)
      ∧ (off ≠ 10 → off ≠ 11 → b = 0)

/-- R22 (decision D2, the spec's own codes): the field values of each enumeration in the order of their codes, bit 1
then bit 0, both as the writes read them and as the reads give them back. -/
def Obligations.FieldCodesAreTheListedOrder : Prop :=
  (DstControl.ofBits false false = .increment ∧ DstControl.ofBits false true = .decrement
    ∧ DstControl.ofBits true false = .fixed ∧ DstControl.ofBits true true = .incrementReload)
  ∧ (SrcControl.ofBits false false = .increment ∧ SrcControl.ofBits false true = .decrement
    ∧ SrcControl.ofBits true false = .fixed ∧ SrcControl.ofBits true true = .reserved)
  ∧ (TimingMode.ofBits false false = .immediate ∧ TimingMode.ofBits false true = .vblank
    ∧ TimingMode.ofBits true false = .hblank ∧ TimingMode.ofBits true true = .special)
  ∧ (UnitSize.ofBit false = .halfword ∧ UnitSize.ofBit true = .word)
  ∧ (∀ d : DstControl, DstControl.ofBits d.bit1 d.bit0 = d) ∧ (∀ r : SrcControl, SrcControl.ofBits r.bit1 r.bit0 = r)
  ∧ (∀ m : TimingMode, TimingMode.ofBits m.bit1 m.bit0 = m) ∧ ∀ u : UnitSize, UnitSize.ofBit u.bit = u

/-! ### Register writes -/

/-- R81 (`wSrc0`..`wSrc3`): lane `k` of `srcAddress` becomes the data byte, the other lanes keep their value, and
nothing else changes. -/
def Obligations.WSrcReplacesOneByteLaneAndNothingElse : Prop :=
  ∀ (k : Fin 4) (c : ChanIdx) (b : Byte) (s : State), ∃ v : Word,
    exec (.srcWrite k c b) s = .next (s.setChan c { s.chan c with srcAddress := v })
    ∧ ∀ j : Nat, j < 32 →
        v.getLsbD j = if j / 8 = k.val then b.getLsbD (j % 8) else (s.chan c).srcAddress.getLsbD j

/-- R82 (`wDst0`..`wDst3`): the same on `dstAddress`; the next destination reload of the channel uses the new value. -/
def Obligations.WDstReplacesOneByteLaneAndFeedsTheNextReload : Prop :=
  ∀ (k : Fin 4) (c : ChanIdx) (b : Byte) (s : State), ∃ v : Word, ∃ t : State,
    exec (.dstWrite k c b) s = .next t ∧ t = s.setChan c { s.chan c with dstAddress := v }
    ∧ (∀ j : Nat, j < 32 →
        v.getLsbD j = if j / 8 = k.val then b.getLsbD (j % 8) else (s.chan c).dstAddress.getLsbD j)
    ∧ ((s.chan c).dstAddressControl = .incrementReload →
        ((t.reloadDst c).chan c).internalDst = v &&& s.cfg.dstMask.get c)

/-- R83 (`wLen0`, `wLen1`): the same on the 16-bit `length`; the next length reload uses the new value, 0 meaning
mask + 1. -/
def Obligations.WLenReplacesOneByteLaneAndFeedsTheNextReload : Prop :=
  ∀ (k : Fin 2) (c : ChanIdx) (b : Byte) (s : State), ∃ v : Half, ∃ t : State,
    exec (.lenWrite k c b) s = .next t ∧ t = s.setChan c { s.chan c with length := v }
    ∧ (∀ j : Nat, j < 16 →
        v.getLsbD j = if j / 8 = k.val then b.getLsbD (j % 8) else (s.chan c).length.getLsbD j)
    ∧ ((t.reloadLength c).chan c).internalLength = latchLength (s.cfg.lenMask.get c) v
    ∧ (v = 0 → ((t.reloadLength c).chan c).internalLength.toNat = (s.cfg.lenMask.get c).toNat + 1)

/-- R84 (`wCtlLo`): destination control from bits 6:5, source-control bit 0 from bit 7, source-control bit 1 kept;
bits 4:0 ignored, which is the spec's own decision D20 (log entry 25); nothing else changes. -/
def Obligations.WCtlLoStoresTwoFieldsAndNothingElse : Prop :=
  ∀ (c : ChanIdx) (b : Byte) (s : State), ∃ (d : DstControl) (r : SrcControl),
    exec (.wCtlLo c b) s = .next (s.setChan c { s.chan c with dstAddressControl := d, srcAddressControl := r })
    ∧ d.bit1 = b.getLsbD 6 ∧ d.bit0 = b.getLsbD 5
    ∧ r.bit0 = b.getLsbD 7 ∧ r.bit1 = (s.chan c).srcAddressControl.bit1

/-- R85 (`wCtlHi`), for every layout of the byte (P5): all seven fields are stored whatever the enable bit, source
control bit 0 and the programmed addresses and length are kept, and nothing outside the channel and the controller
changes. -/
def Obligations.WCtlHiStoresSevenFields : Prop :=
  ∀ (c : ChanIdx) (b : Byte) (s : State), ∃ t, exec (.wCtlHi c b) s = .next t
    ∧ (t.chan c).srcAddressControl.bit1 = b.getLsbD s.cfg.ctlHi.srcControl1
    ∧ (t.chan c).srcAddressControl.bit0 = (s.chan c).srcAddressControl.bit0
    ∧ (t.chan c).repeats = b.getLsbD s.cfg.ctlHi.repeats
    ∧ (t.chan c).unitSize.bit = b.getLsbD s.cfg.ctlHi.unitSize
    ∧ (t.chan c).allowGamepakDrive = b.getLsbD s.cfg.ctlHi.gamepak
    ∧ (t.chan c).timingMode.bit1 = b.getLsbD s.cfg.ctlHi.timing1
    ∧ (t.chan c).timingMode.bit0 = b.getLsbD s.cfg.ctlHi.timing0
    ∧ (t.chan c).interruptOnCompletion = b.getLsbD s.cfg.ctlHi.interrupt
    ∧ (t.chan c).enable = b.getLsbD s.cfg.ctlHi.enable
    ∧ (t.chan c).srcAddress = (s.chan c).srcAddress ∧ (t.chan c).dstAddress = (s.chan c).dstAddress
    ∧ (t.chan c).length = (s.chan c).length ∧ (t.chan c).dstAddressControl = (s.chan c).dstAddressControl
    ∧ SameOtherChannels c s t ∧ SameMemory s t ∧ SameEnvironment s t ∧ t.log = s.log

/-- R86 (`wCtlHi`): on every control-high write, enabled or not, edge or not, the channel is in `hblankMask` exactly
when its new timing mode is hblank and in `vblankMask` exactly when it is vblank; no other channel's bits change. -/
def Obligations.WCtlHiRecomputesBlankMembership : Prop :=
  ∀ (c : ChanIdx) (b : Byte) (s : State), ∃ t, exec (.wCtlHi c b) s = .next t
    ∧ ∀ d, member t.hblankMask d = (if d = c then decide ((t.chan c).timingMode = .hblank) else member s.hblankMask d)
      ∧ member t.vblankMask d = (if d = c then decide ((t.chan c).timingMode = .vblank) else member s.vblankMask d)

/-- R87, R88 (`wCtlHi`): on the rising edge of `enable` the masked addresses and length are latched; with immediate
timing the channel is handed to the arbitrator, with any other timing nothing is scheduled. -/
def Obligations.RisingEdgeLatchesAndSchedulesImmediate : Prop :=
  ∀ (c : ChanIdx) (b : Byte) (s : State),
    (s.chan c).enable = false → b.getLsbD s.cfg.ctlHi.enable = true →
    ∃ t, exec (.wCtlHi c b) s = .next t
      ∧ (t.chan c).internalSrc = (s.chan c).srcAddress &&& s.cfg.srcMask.get c
      ∧ (t.chan c).internalDst = (s.chan c).dstAddress &&& s.cfg.dstMask.get c
      ∧ (t.chan c).internalLength = latchLength (s.cfg.lenMask.get c) (s.chan c).length
      ∧ ((t.chan c).timingMode = .immediate → SameSchedule (s.markRunnable c) t)
      ∧ ((t.chan c).timingMode ≠ .immediate → SameSchedule s t)

/-- R89 (decision D19 for the 1→0 case) (`wCtlHi`): without a rising edge nothing is latched and nothing is scheduled
or removed from the schedule. -/
def Obligations.NoRisingEdgeNeitherLatchesNorSchedules : Prop :=
  ∀ (c : ChanIdx) (b : Byte) (s : State),
    ((s.chan c).enable = true ∨ b.getLsbD s.cfg.ctlHi.enable = false) →
    ∃ t, exec (.wCtlHi c b) s = .next t ∧ SameInternals c s t ∧ SameSchedule s t

/-- R5, R24, R50: a latched address lies inside the channel's range, and channel 0 latches no source in cartridge
space. Rests on the constraints of R5 (`Config.wf`), not on their default values. -/
def Obligations.LatchedAddressesLieInTheChannelRange : Prop :=
  ∀ (c : ChanIdx) (b : Byte) (s t : State), s.cfg.wf = true →
    (s.chan c).enable = false → b.getLsbD s.cfg.ctlHi.enable = true → exec (.wCtlHi c b) s = .next t →
      (t.chan c).internalSrc ≤ s.cfg.srcMask.get c ∧ (t.chan c).internalDst ≤ s.cfg.dstMask.get c
      ∧ (c = 0 → (t.chan c).internalSrc &&& s.cfg.cartridgeBits = 0)

/-- R90 (`wRsvd`): a write to an offset of 12 or more changes nothing. -/
def Obligations.WRsvdChangesNothing : Prop :=
  ∀ (c : ChanIdx) (off : Nat) (b : Byte) (s : State), 12 ≤ off → exec (.wRsvd c off b) s = .next s

/-! ### Register reads -/

/-- R92, R95 (`rZero0`..`rZero9`, `rRsvd`): address, length and out-of-range offsets return 0x00 whatever they hold;
nothing changes but the record of the returned byte (log entry 19). -/
def Obligations.WriteOnlyAndReservedOffsetsReadZero : Prop :=
  (∀ (k : Fin 10) (c : ChanIdx) (s : State),
    exec (.zeroRead k c) s = .next { s with log := .regRead c k.val 0 :: s.log })
  ∧ ∀ (c : ChanIdx) (off : Nat) (s : State), 12 ≤ off →
    exec (.rRsvd c off) s = .next { s with log := .regRead c off 0 :: s.log }

/-- R93 (`rCtlLo`): source-control bit 0, destination control, five zeros; nothing changes but the record of the byte. The
five zeros are the spec's own decision D20 (log entry 25), the record of the byte is the model's (log entry 19). -/
def Obligations.RCtlLoReconstructsTheControlLowByte : Prop :=
  ∀ (c : ChanIdx) (s : State), ∃ b : Byte,
    exec (.rCtlLo c) s = .next { s with log := .regRead c 10 b :: s.log }
    ∧ b.getLsbD 7 = (s.chan c).srcAddressControl.bit0 ∧ b.getLsbD 6 = (s.chan c).dstAddressControl.bit1
    ∧ b.getLsbD 5 = (s.chan c).dstAddressControl.bit0 ∧ ∀ j, j < 5 → b.getLsbD j = false

/-- R94 (decision D27) (`rCtlHi`), for every layout in which each bit holds one field bit (R63, P5): the eight bits
are the live fields; nothing changes but the record of the byte, which is the model's (log entry 19; D27: log entry 25). -/
def Obligations.RCtlHiReconstructsTheControlHighByte : Prop :=
  ∀ (c : ChanIdx) (s : State), s.cfg.ctlHi.wf = true → ∃ b : Byte,
    exec (.rCtlHi c) s = .next { s with log := .regRead c 11 b :: s.log }
    ∧ b.getLsbD s.cfg.ctlHi.enable = (s.chan c).enable
    ∧ b.getLsbD s.cfg.ctlHi.interrupt = (s.chan c).interruptOnCompletion
    ∧ b.getLsbD s.cfg.ctlHi.timing1 = (s.chan c).timingMode.bit1
    ∧ b.getLsbD s.cfg.ctlHi.timing0 = (s.chan c).timingMode.bit0
    ∧ b.getLsbD s.cfg.ctlHi.gamepak = (s.chan c).allowGamepakDrive
    ∧ b.getLsbD s.cfg.ctlHi.unitSize = (s.chan c).unitSize.bit
    ∧ b.getLsbD s.cfg.ctlHi.repeats = (s.chan c).repeats
    ∧ b.getLsbD s.cfg.ctlHi.srcControl1 = (s.chan c).srcAddressControl.bit1

/-- R62, R94: what a control write stored is what the next read of that byte returns: bits 7:5 of the low byte, all of
the high byte. That bits 4:0 of the low byte read 0 is the spec's own decision D20 (log entry 25); the record of the
byte is the model's (log entry 19). -/
def Obligations.ControlBytesReadBackAsWritten : Prop :=
  ∀ (c : ChanIdx) (b : Byte) (s : State),
    (∃ t, exec (.wCtlLo c b) s = .next t
      ∧ exec (.rCtlLo c) t = .next { t with log := .regRead c 10 (b &&& 0xE0) :: t.log })
    ∧ (s.cfg.ctlHi.wf = true → ∃ t, exec (.wCtlHi c b) s = .next t
      ∧ exec (.rCtlHi c) t = .next { t with log := .regRead c 11 b :: t.log })

/-! ### The arbitrator -/

/-- R100: `Lowest` is the least member of a non-empty set. -/
def Obligations.LowestIsTheLeastMember : Prop :=
  ∀ S : ChanSet, (lowest? S = none ↔ S = 0)
    ∧ ∀ c, lowest? S = some c ↔ (member S c = true ∧ ∀ d, d < c → member S d = false)

/-- R101: `MarkRunnable(id)` puts `id` into `runSet`; on an empty set it becomes `current`; a strictly lower index
preempts and sets `interleaved`; otherwise it waits. Nothing else changes. -/
def Obligations.MarkRunnableSchedulesAndPreempts : Prop :=
  ∀ (s : State) (id : ChanIdx), ∃ (S : ChanSet) (k : ChanIdx) (f : Bool),
    s.markRunnable id = { s with runSet := S, current := k, interleaved := f }
    ∧ (∀ d, member S d = (member s.runSet d || decide (d = id)))
    ∧ (s.runSet = 0 → k = id ∧ f = s.interleaved)
    ∧ (s.runSet ≠ 0 → id < s.current → k = id ∧ f = true)
    ∧ (s.runSet ≠ 0 → s.current ≤ id → k = s.current ∧ f = s.interleaved)

/-- R143 (decision D14) (`fifoRequest1`, `fifoRequest2`): the request marks its channel runnable, unconditionally; the
block is pending afterwards (R104). -/
def Obligations.FifoRequestMarksItsChannelRunnable : Prop :=
  ∀ s : State, exec .fifoRequest1 s = .next (s.markRunnable 1) ∧ exec .fifoRequest2 s = .next (s.markRunnable 2)
    ∧ ∀ c, (s.markRunnable c).pending = true

/-- R106: of two channels scheduled by an immediate rising edge, in either order, the lower index is `current` and the
higher keeps its bit in `runSet`; when the lower completes without repeat, the higher becomes `current`. -/
def Obligations.LowerIndexedOfTwoImmediateChannelsIsCurrent : Prop :=
  ∀ (s t u : State) (i j a b : ChanIdx) (x y : Byte), s.runSet = 0 → i < j → ((a = i ∧ b = j) ∨ (a = j ∧ b = i)) →
    (s.chan a).enable = false → (s.chan b).enable = false →
    x.getLsbD s.cfg.ctlHi.enable = true → y.getLsbD s.cfg.ctlHi.enable = true →
    exec (.wCtlHi a x) s = .next t → exec (.wCtlHi b y) t = .next u →
    (u.chan a).timingMode = .immediate → (u.chan b).timingMode = .immediate →
      u.current = i ∧ member u.runSet i = true ∧ member u.runSet j = true
      ∧ ((u.chan i).repeats = false →
          (u.complete i).current = j ∧ member (u.complete i).runSet i = false ∧ member (u.complete i).runSet j = true)

/-- R140, R141 (`triggerHBlank`, `triggerVBlank`) as documented: the lowest channel that is runnable and in the blank
mask is marked again; if there is none, nothing happens. -/
def Obligations.BlankTriggersRemarkTheLowestRunnableMember : Prop :=
  ∀ s : State, s.cfg.trigger = .documented →
    (∀ id, lowest? (s.runSet &&& s.hblankMask) = some id → exec .triggerHBlank s = .next (s.markRunnable id))
    ∧ (s.runSet &&& s.hblankMask = 0 → exec .triggerHBlank s = .next s)
    ∧ (∀ id, lowest? (s.runSet &&& s.vblankMask) = some id → exec .triggerVBlank s = .next (s.markRunnable id))
    ∧ (s.runSet &&& s.vblankMask = 0 → exec .triggerVBlank s = .next s)

/-- R142 (derived by the spec): where `current` is the lowest runnable channel, as it is in every reachable state, the
documented blank triggers change nothing. -/
def Obligations.DocumentedBlankTriggersAreInert : Prop :=
  ∀ s : State, s.cfg.trigger = .documented → s.CurrentIsLowest →
    exec .triggerHBlank s = .next s ∧ exec .triggerVBlank s = .next s

/-- R144, the optional variant (the spec's guess, not normative): a trigger puts every enabled channel of its timing
mode into `runSet`, removes none and touches no channel. -/
def Obligations.ScanTriggersMarkEveryEnabledChannelOfTheMode : Prop :=
  ∀ s : State, s.cfg.trigger = .scan →
    (∃ t, exec .triggerHBlank s = .next t ∧ t.chans = s.chans ∧ ∀ d, member t.runSet d =
      (member s.runSet d || ((s.chan d).enable && decide ((s.chan d).timingMode = .hblank))))
    ∧ ∃ t, exec .triggerVBlank s = .next t ∧ t.chans = s.chans ∧ ∀ d, member t.runSet d =
      (member s.runSet d || ((s.chan d).enable && decide ((s.chan d).timingMode = .vblank)))

/-! ### The transfer engine -/

/-- R6 (R110, decision D8): every operation answers a next state in every state, but for `RUN` when nothing is
runnable, which is refused by name. -/
def Obligations.EveryOperationRunsButRunWithNothingRunnable : Prop :=
  (∀ (i : Instr) (s : State), (∃ t, exec i s = .next t) ↔ ¬(i = .run ∧ s.runSet = 0))
  ∧ ∀ s : State, s.runSet = 0 → exec .run s = .refused .runNotPending

/-- What `Run` does with its first look at length, budget and flag (`run`). R114: with units left and the budget exhausted
(zero counts as exhausted), it returns with nothing changed, the preemption flag included. R115: with units left and
budget, a set `interleaved` is cleared and it returns; nothing else of the block changes, whichever channel the flag was
set for. R113 (decision D7), R156 (a): with no unit left it completes at once; neither the budget nor the flag is looked
at. That a list of draws stands for the counter, and that past its end it is exhausted, is the model's choice (log entry
13). -/
def Obligations.RunYieldsOnBudgetThenOnPreemptionAndCompletesOnLength : Prop :=
  (∀ s : State, s.runSet ≠ 0 → (s.chan s.current).internalLength ≠ 0 →
    (s.budget = [] → exec .run s = .next s)
    ∧ ∀ d ds, s.budget = d :: ds → d ≤ 0 → exec .run s = .next { s with budget := ds })
  ∧ (∀ (s : State) (d : Int) (ds : List Int), s.runSet ≠ 0 → (s.chan s.current).internalLength ≠ 0 →
    s.budget = d :: ds → 0 < d → s.interleaved = true →
    exec .run s = .next { s with budget := ds, interleaved := false })
  ∧ ∀ s : State, s.runSet ≠ 0 → (s.chan s.current).internalLength = 0 →
    ∃ t, exec .run s = .next t ∧ t = s.complete s.current ∧ t.budget = s.budget ∧ t.interleaved = s.interleaved
      ∧ busPorts t.log = busPorts s.log

/-- R190, R104: the fairness of the CPU loop. From every state, at most one step for each byte at the port and one for a
reset request lead to a served port, unless bytes are refused on the way (bad bytes, or a listed `RUN` with nothing
runnable); and then, while the block is pending, the next step is an invocation of `RUN` that goes on. That the fairness is
built into the step, after finitely many signals at a time, is log entry 27. -/
def Obligations.PendingBlockIsRunAgain : Prop :=
  ∀ s : State, ∃ n t, n ≤ s.port.length + 1 ∧ stepN n s = .next t
    ∧ ((t.port = [] ∧ t.resetReq = false
        ∧ (t.pending = true → ∃ u, exec .run t.supplied = .next u ∧ step t = .next u ∧ stepN (n + 1) s = .next u))
      ∨ ∃ r, step t = .refused r)

/-- R177, I23: no run of the machine has to end. Where the port holds what agents other than the CPU loop send, so from a
served port on (log entry 27), any number of steps go on. A runnable channel of immediate timing with `repeat` set stays so
through every operation but `RUN` and a control-high write of that channel. `RUN` after `RUN`, any number of them, on a
quiet bus with its units in plain bus memory (log entries 10, 12), it stays `current` and the block stays pending, and
(R178) no other channel is touched. -/
def Obligations.EndlessRepeatIsRunForEver : Prop :=
  (∀ (n : Nat) (s : State), s.PortHoldsSignals → ∃ t, stepN n s = .next t ∧ t.PortHoldsSignals)
  ∧ (∀ (i : Instr) (s t : State) (c : ChanIdx), i ≠ .run → (∀ b, i ≠ .wCtlHi c b) → s.EndlessRepeat c →
    exec i s = .next t → t.EndlessRepeat c)
  ∧ ∀ (n : Nat) (s : State) (c : ChanIdx), s.EndlessRepeat c → s.CurrentIsLowest → s.current = c → s.bus = [] →
    s.DestinationStaysPlain c →
    ∃ t, runN n s = .next t ∧ t.EndlessRepeat c ∧ t.current = c ∧ t.pending = true ∧ SameOtherChannels c s t

/-- R112: the delta table, entry by entry; the reserved source code is parameter P7. -/
def Obligations.DeltaTableIsAsListed : Prop :=
  ∀ g : Config,
    (DstControl.delta .halfword .increment = 2 ∧ DstControl.delta .word .increment = 4
      ∧ DstControl.delta .halfword .decrement = -2 ∧ DstControl.delta .word .decrement = -4
      ∧ DstControl.delta .halfword .fixed = 0 ∧ DstControl.delta .word .fixed = 0
      ∧ DstControl.delta .halfword .incrementReload = 2 ∧ DstControl.delta .word .incrementReload = 4)
    ∧ (SrcControl.delta g .halfword .increment = 2 ∧ SrcControl.delta g .word .increment = 4
      ∧ SrcControl.delta g .halfword .decrement = -2 ∧ SrcControl.delta g .word .decrement = -4
      ∧ SrcControl.delta g .halfword .fixed = 0 ∧ SrcControl.delta g .word .fixed = 0
      ∧ SrcControl.delta g .halfword .reserved = g.srcReservedHalf
      ∧ SrcControl.delta g .word .reserved = g.srcReservedWord)

/-- R25: a masked length of zero means mask + 1; any other is itself; the result is never zero and at most mask + 1. -/
def Obligations.LatchLengthTurnsZeroIntoMaskPlusOne : Prop :=
  ∀ mask len : Half,
    (len &&& mask = 0 → (latchLength mask len).toNat = mask.toNat + 1)
    ∧ (len &&& mask ≠ 0 → (latchLength mask len).toNat = (len &&& mask).toNat)
    ∧ 1 ≤ (latchLength mask len).toNat ∧ (latchLength mask len).toNat ≤ mask.toNat + 1

/-- R116, R117, R118, R44 on plain bus memory, in its canonical form (`StepKeepsMemoryCanonical`), that brings no
operation of its own: the destination unit takes the bytes the source unit held, every other byte of memory is
unchanged, one read and then one write of the same value appear on the bus, and both addresses and the length advance.
That a quiet bus behaves as memory is the model's choice (log entry 10). -/
def Obligations.UnitCopiesMemoryAndAdvances : Prop :=
  ∀ (s : State) (ch : ChanIdx) (u : UnitSize) (dSrc dDst : Int), s.MemoryCanonical → s.bus = [] →
    plainUnit s.cfg u (s.chan ch).internalSrc = true → plainUnit s.cfg u (s.chan ch).internalDst = true →
    (∀ k, k < u.bytes → Memory.read (s.transferUnit ch u dSrc dDst).mem (byteAddr (s.chan ch).internalDst k).toNat
      = Memory.read s.mem (byteAddr (s.chan ch).internalSrc k).toNat)
    ∧ (∀ a : Nat, (∀ x ∈ unitAddrs u (s.chan ch).internalDst, x.toNat ≠ a) →
        Memory.read (s.transferUnit ch u dSrc dDst).mem a = Memory.read s.mem a)
    ∧ (∃ v : UnitVal, v.size = u ∧ (s.transferUnit ch u dSrc dDst).log
        = .busWrite .sequential (s.chan ch).internalDst v :: .busRead .sequential (s.chan ch).internalSrc v :: s.log)
    ∧ (s.transferUnit ch u dSrc dDst).chan ch = { s.chan ch with
        internalSrc := (s.chan ch).internalSrc + BitVec.ofInt 32 dSrc
        internalDst := (s.chan ch).internalDst + BitVec.ofInt 32 dDst
        internalLength := (s.chan ch).internalLength - 1 }
    ∧ SameOtherChannels ch s (s.transferUnit ch u dSrc dDst) ∧ SameController s (s.transferUnit ch u dSrc dDst)
    ∧ SameEnvironment s (s.transferUnit ch u dSrc dDst)

/-- R43, R44, R45 (decision D10): whatever the bus makes of the accesses, aligned or not, answered by memory or by the
platform, a unit whose accesses bring no operation shows one sequential read at the source address and one sequential
write at the destination address, both as they stand, of the same value in the width of the unit. -/
def Obligations.UnitPassesAddressesAndValueUnchanged : Prop :=
  ∀ (s : State) (ch : ChanIdx) (u : UnitSize) (dSrc dDst : Int),
    s.turn.calls = [] → s.nextTurn.turn.calls = [] →
    ∃ v : UnitVal, v.size = u ∧ (s.transferUnit ch u dSrc dDst).log
      = .busWrite .sequential (s.chan ch).internalDst v :: .busRead .sequential (s.chan ch).internalSrc v :: s.log

/-- R55, R187 (decision D18; log entries 8, 12, 20): an operation nested in a bus access does what `exec` does for the
instruction its offset or entry point selects, at every offset; several nest in order. A unit reads, performs what that
access brings, writes to the destination as it then stands, performs what that access brings, and then advances. A
register byte met on the bus is written and read as the instruction of its offset; a unit of either size that lies in the
register blocks is such a write for each of its bytes, in the platform's lane order (D29, log entry 8), and stores
nothing to memory. In particular a halfword stored to the two control bytes of a channel is a write of offset 10 and a
write of offset 11. -/
def Obligations.NestedOperationsActAsTheirInstructions : Prop :=
  (∀ (s : State) (k : Call), exec k.instr s = .next (s.perform k))
  ∧ (∀ s : State, s.performAll [] = s)
  ∧ (∀ (s t : State) (k : Call) (ks : List Call), exec k.instr s = .next t → s.performAll (k :: ks) = t.performAll ks)
  ∧ (∀ (s r w : State) (ch : ChanIdx) (u : UnitSize) (dSrc dDst : Int) (v : UnitVal),
    v = s.readValue u (s.chan ch).internalSrc →
    r = (s.readAccess u (s.chan ch).internalSrc).performAll s.turn.calls →
    w = (r.writeAccess (r.chan ch).internalDst v).performAll r.turn.calls →
    s.transferUnit ch u dSrc dDst = w.setChan ch { w.chan ch with
      internalSrc := (w.chan ch).internalSrc + BitVec.ofInt 32 dSrc
      internalDst := (w.chan ch).internalDst + BitVec.ofInt 32 dDst
      internalLength := (w.chan ch).internalLength - 1 })
  ∧ (∀ (s : State) (a : Word) (b : Byte) (c : ChanIdx) (off : Nat), registerAt s.cfg a = some (c, off) →
    exec (decodeWrite c off b) s = .next (s.storeRegByte a b)
    ∧ exec (decodeRead c off) s = .next { s with log := .regRead c off (s.busByte a) :: s.log })
  ∧ (∀ (s : State) (ch : ChanIdx) (u : UnitSize) (dSrc dDst : Int) (v : UnitVal), s.bus = [] →
    aligned u (s.chan ch).internalSrc = true → aligned u (s.chan ch).internalDst = true →
    (∀ x ∈ unitAddrs u (s.chan ch).internalDst, registerAt s.cfg x ≠ none) → v = s.loadUnit u (s.chan ch).internalSrc →
    s.transferUnit ch u dSrc dDst = State.advance ((laneOrder s.cfg v).foldl
      (fun t k => t.storeRegByte (byteAddr (s.chan ch).internalDst k) (v.bytes.getD k 0))
      ((s.emit (.busRead .sequential (s.chan ch).internalSrc v)).emit
        (.busWrite .sequential (s.chan ch).internalDst v))) ch dSrc dDst)
  ∧ (
    ∀ (s : State) (ch c : ChanIdx) (dSrc dDst : Int) (lo hi : Byte), s.bus = [] →
      s.cfg.halfLanes = [0, 1] → aligned .halfword (s.chan ch).internalSrc = true →
      aligned .halfword (s.chan ch).internalDst = true →
      s.loadUnit .halfword (s.chan ch).internalSrc = .half (hi ++ lo) →
      registerAt s.cfg (s.chan ch).internalDst = some (c, 10) →
      registerAt s.cfg ((s.chan ch).internalDst + 1) = some (c, 11) →
      s.transferUnit ch .halfword dSrc dDst =
        (((((s.emit (.busRead .sequential (s.chan ch).internalSrc (.half (hi ++ lo)))).emit
          (.busWrite .sequential (s.chan ch).internalDst (.half (hi ++ lo)))).writeCtlLo c lo).writeCtlHi c hi).advance
            ch dSrc dDst))

/-- R113, R129, R51 (`run`): with `n` units left, budget for `n` checks, no pending preemption, and a destination in
plain bus memory that brings no operation of its own (the list of draws is log entry 13, the quiet bus log entries 10 and
12), `Run` performs exactly the `n` units in order (unit `k` reads
`S + k*dSrc` and writes `D + k*dDst`), leaves every other byte of memory alone, and then completes the channel. -/
def Obligations.RunPerformsAllRemainingUnitsAndCompletes : Prop :=
  ∀ (s : State) (n : Nat), s.runSet ≠ 0 → (s.chan s.current).internalLength.toNat = n → n ≤ s.budget.length →
    (∀ d ∈ s.budget.take n, 0 < d) → s.interleaved = false → s.bus = [] →
    (∀ k, k < n → plainUnit s.cfg (s.chan s.current).unitSize (s.writeAddr s.current k) = true) →
    ∃ t u : State, exec .run s = .next t ∧ t = u.complete s.current
      ∧ u.chan s.current = { s.chan s.current with
          internalSrc := s.readAddr s.current n, internalDst := s.writeAddr s.current n, internalLength := 0 }
      ∧ SameOtherChannels s.current s u ∧ SameController s u ∧ u.budget = s.budget.drop n
      ∧ u.irqFlags = s.irqFlags ∧ u.cfg = s.cfg ∧ u.bus = [] ∧ u.port = s.port ∧ u.resetReq = s.resetReq
      ∧ (∃ es : List Event, u.log = es ++ s.log ∧ irqsOf es = [] ∧ busPorts es.reverse
          = (List.range n).flatMap fun k => [.reads (s.readAddr s.current k), .writes (s.writeAddr s.current k)])
      ∧ ∀ a : Nat, (∀ k, k < n → ∀ x ∈ unitAddrs (s.chan s.current).unitSize (s.writeAddr s.current k), x.toNat ≠ a) →
          Memory.read t.mem a = Memory.read s.mem a

/-- R116, R117, R118, R129 (`run`): with both sides incrementing over two blocks of plain bus memory that do not overlap
and do not wrap, on a bus that brings no operation of its own, a `Run` with budget for all its `n` units leaves in the
destination block what the source block held, and every other byte of memory as it was. The list of draws is log
entry 13; that a quiet bus behaves as memory is log entries 10 and 12. -/
def Obligations.RunCopiesADisjointBlock : Prop :=
  ∀ (s : State) (n : Nat) (u : UnitSize) (S D : Word), s.MemoryCanonical → s.runSet ≠ 0 →
    (s.chan s.current).internalLength.toNat = n → n ≤ s.budget.length → (∀ d ∈ s.budget.take n, 0 < d) →
    s.interleaved = false → s.bus = [] →
    u = (s.chan s.current).unitSize → S = (s.chan s.current).internalSrc → D = (s.chan s.current).internalDst →
    s.srcDelta s.current = u.bytes → s.dstDelta s.current = u.bytes → aligned u S = true → aligned u D = true →
    S.toNat + n * u.bytes ≤ 4294967296 → D.toNat + n * u.bytes ≤ 4294967296 →
    (S.toNat + n * u.bytes ≤ D.toNat ∨ D.toNat + n * u.bytes ≤ S.toNat) →
    (∀ j, j < n * u.bytes → registerAt s.cfg (byteAddr S j) = none ∧ registerAt s.cfg (byteAddr D j) = none) →
    ∃ t, exec .run s = .next t
      ∧ (∀ j, j < n * u.bytes → Memory.read t.mem (D.toNat + j) = Memory.read s.mem (S.toNat + j))
      ∧ ∀ a : Nat, (a < D.toNat ∨ D.toNat + n * u.bytes ≤ a) → Memory.read t.mem a = Memory.read s.mem a

/-- R114, R119, R128, R47 (`run`): a `Run` that yields on its budget after `k` of its units, and the `Run` that resumes it
with the rest of the budget, together do exactly what one `Run` with the whole budget does: no unit is lost or
repeated. That the first `Run` yields at the end of its list of draws is log entry 13; the quiet bus is log entries 10
and 12. -/
def Obligations.BudgetYieldLosesAndRepeatsNoUnit : Prop :=
  ∀ (s : State) (ps qs : List Int), s.runSet ≠ 0 → (∀ d ∈ ps, 0 < d) →
    ps.length < (s.chan s.current).internalLength.toNat → s.interleaved = false → s.bus = [] →
    (∀ k, k < ps.length → plainUnit s.cfg (s.chan s.current).unitSize (s.writeAddr s.current k) = true) →
    ∃ t, exec .run { s with budget := ps } = .next t
      ∧ (t.chan s.current).internalLength.toNat + ps.length = (s.chan s.current).internalLength.toNat
      ∧ SameController s t
      ∧ exec .run { t with budget := qs } = exec .run { s with budget := ps ++ qs }

/-- R55, R157, R115 (`run`; decision D18): a FIFO request that the bus delivers at the write of a unit, for a channel of
lower index, preempts the running channel: the unit is completed, the next check consumes the flag, and `Run` returns
with the preempting channel current and the preempted one a whole unit further, still runnable and not completed. -/
def Obligations.PreemptionInsideARunFallsAfterAWholeUnit : Prop :=
  ∀ (s : State) (f : FifoChan) (d₁ d₂ : Int) (ds : List Int) (turns : List BusTurn),
    s.runSet ≠ 0 → f.idx < s.current → 2 ≤ (s.chan s.current).internalLength.toNat →
    s.budget = d₁ :: d₂ :: ds → 0 < d₁ → 0 < d₂ → s.interleaved = false →
    s.bus = .quiet :: { BusTurn.quiet with calls := [.fifo f] } :: turns →
    plainUnit s.cfg (s.chan s.current).unitSize (s.writeAddr s.current 0) = true →
    ∃ t, exec .run s = .next t ∧ t.current = f.idx ∧ t.interleaved = false
      ∧ (∀ d, member t.runSet d = (member s.runSet d || decide (d = f.idx)))
      ∧ t.chan s.current = { s.chan s.current with
          internalSrc := s.readAddr s.current 1, internalDst := s.writeAddr s.current 1
          internalLength := (s.chan s.current).internalLength - 1 }
      ∧ SameOtherChannels s.current s t ∧ irqsOf t.log = irqsOf s.log ∧ t.budget = ds ∧ t.bus = turns

/-- R180 (`wCtlHi`, `run`): when a channel preempts between two invocations, the next `Run` with budget is spent on the
flag and does no unit. -/
def Obligations.PreemptionBetweenRunsSpendsOneInvocation : Prop :=
  ∀ (s t : State) (c : ChanIdx) (b : Byte) (d : Int) (ds : List Int), s.runSet ≠ 0 → c < s.current →
    (s.chan c).enable = false → b.getLsbD s.cfg.ctlHi.enable = true → exec (.wCtlHi c b) s = .next t →
    (t.chan c).timingMode = .immediate → 0 < d →
    t.current = c ∧ t.interleaved = true
      ∧ exec .run { t with budget := d :: ds } = .next { t with budget := ds, interleaved := false }

/-- R130 (`run`): where the bus brings no operation and no unit of the transfer is stored to the block's own registers,
`Run` touches no channel but the captured one, of that one no programmed field but `enable`, and of `runSet` no bit but
that channel's; the blank masks stay. The quiet bus is log entry 12. A misaligned destination is allowed, and there it is
only the model's choice that the write reaches no register (log entry 11, unsafe for that case). -/
def Obligations.RunTouchesOnlyTheCapturedChannel : Prop :=
  ∀ s t : State, s.runSet ≠ 0 → s.bus = [] →
    (∀ k, k < (s.chan s.current).internalLength.toNat →
      ∀ x ∈ unitAddrs (s.chan s.current).unitSize (s.writeAddr s.current k), registerAt s.cfg x = none) →
    exec .run s = .next t →
      SameOtherChannels s.current s t ∧ t.hblankMask = s.hblankMask ∧ t.vblankMask = s.vblankMask
      ∧ (∀ d, d ≠ s.current → member t.runSet d = member s.runSet d)
      ∧ ∃ x y z e, t.chan s.current = { s.chan s.current with
          internalSrc := x, internalDst := y, internalLength := z, enable := e }

/-! ### Completion -/

/-- R120, R153: completion raises the channel's request once if it is configured, toward the interrupt controller's flag
register (the bit is parameter P8), and raises nothing otherwise; it makes no bus access. -/
def Obligations.CompletionRaisesTheConfiguredInterrupt : Prop :=
  ∀ (s : State) (ch : ChanIdx),
    ((s.chan ch).interruptOnCompletion = true →
      (s.complete ch).log = .irq ch :: s.log ∧ (s.complete ch).irqFlags = s.irqFlags ||| s.cfg.irqBit.get ch)
    ∧ ((s.chan ch).interruptOnCompletion = false →
      (s.complete ch).log = s.log ∧ (s.complete ch).irqFlags = s.irqFlags)

/-- R121, R123, R124: a repeating channel takes its length from the programmed one, keeps its source and its `enable`,
stays runnable if its timing is immediate and leaves `runSet` otherwise. -/
def Obligations.RepeatingCompletionRearmsTheChannel : Prop :=
  ∀ (s : State) (ch : ChanIdx), (s.chan ch).repeats = true →
    (∃ d, (s.complete ch).chan ch = { s.chan ch with
        internalDst := d, internalLength := latchLength (s.cfg.lenMask.get ch) (s.chan ch).length })
    ∧ (∀ c, member (s.complete ch).runSet c
        = (member s.runSet c && (decide (c ≠ ch) || decide ((s.chan ch).timingMode = .immediate))))
    ∧ SameOtherChannels ch s (s.complete ch) ∧ (s.complete ch).interleaved = s.interleaved

/-- R122 (decision D15: the reload is masked): the destination of a repeating channel goes back to the programmed one
in increment-and-reload mode, and in no other mode; without repeat there is no reload. -/
def Obligations.DestinationIsReloadedOnlyInReloadModeOnRepeat : Prop :=
  ∀ (s : State) (ch : ChanIdx), ((s.complete ch).chan ch).internalDst =
    if (s.chan ch).repeats = true ∧ (s.chan ch).dstAddressControl = .incrementReload then
      (s.chan ch).dstAddress &&& s.cfg.dstMask.get ch
    else (s.chan ch).internalDst

/-- R125: a channel that does not repeat clears `enable`, leaves `runSet`, and keeps everything else. -/
def Obligations.NonRepeatingCompletionDisablesTheChannel : Prop :=
  ∀ (s : State) (ch : ChanIdx), (s.chan ch).repeats = false →
    (s.complete ch).chan ch = { s.chan ch with enable := false }
    ∧ (∀ c, member (s.complete ch).runSet c = (member s.runSet c && decide (c ≠ ch)))
    ∧ SameOtherChannels ch s (s.complete ch) ∧ (s.complete ch).hblankMask = s.hblankMask
    ∧ (s.complete ch).vblankMask = s.vblankMask ∧ (s.complete ch).interleaved = s.interleaved

/-- R126 (decision D22 for the empty set): after completion `current` is the lowest runnable channel, or what it was if
none is left. -/
def Obligations.CompletionReselectsTheLowestRunnableChannel : Prop :=
  ∀ (s : State) (ch : ChanIdx),
    ((s.complete ch).runSet ≠ 0 → lowest? (s.complete ch).runSet = some (s.complete ch).current)
    ∧ ((s.complete ch).runSet = 0 → (s.complete ch).current = s.current)

/-! ### Rules about the whole machine -/

/-- R23, R54: an operation other than `RUN` leaves the internal fields of a channel alone, unless it is a control-high
write of that channel with a rising edge of `enable`. -/
def Obligations.OnlyLatchAndRunTouchInternalFields : Prop :=
  ∀ (i : Instr) (s t : State) (c : ChanIdx), exec i s = .next t → i ≠ .run →
    (∀ b, i = .wCtlHi c b → risingEdge (s.chan c).enable (b.getLsbD s.cfg.ctlHi.enable) = false) →
    SameInternals c s t

/-- R152: an interrupt request appears only where a `RUN` ends in the completion of the captured channel, with no unit left
and the request configured; there it appears once, for that channel, and the flag register takes that channel's bit
(parameter P8, log entry 7). Everything else, a yield and a completion without the request among it, adds no request and
leaves the flag register alone. -/
def Obligations.InterruptRequestsComeFromCompletionsOnly : Prop :=
  ∀ (i : Instr) (s t : State), exec i s = .next t →
    (irqsOf t.log = irqsOf s.log ∧ t.irqFlags = s.irqFlags)
    ∨ (i = .run ∧ ∃ u : State, t = u.complete s.current
        ∧ (u.chan s.current).internalLength = 0 ∧ (u.chan s.current).interruptOnCompletion = true
        ∧ irqsOf u.log = irqsOf s.log ∧ u.irqFlags = s.irqFlags
        ∧ irqsOf t.log = s.current :: irqsOf s.log ∧ t.irqFlags = s.irqFlags ||| s.cfg.irqBit.get s.current)

/-- R48, R96: an operation other than `RUN` makes no bus access and leaves bus memory alone. -/
def Obligations.OnlyRunReachesTheBus : Prop :=
  ∀ (i : Instr) (s t : State), exec i s = .next t → i ≠ .run →
    busPorts t.log = busPorts s.log ∧ t.mem = s.mem ∧ t.bus = s.bus ∧ t.budget = s.budget

/-- R43: every bus access the machine shows carries the class sequential; a step adds no other. -/
def Obligations.EveryBusAccessIsSequential : Prop :=
  ∀ s t : State, step s = .next t →
    (∀ e ∈ s.log, ∀ a v, e ≠ .busRead .other a v ∧ e ≠ .busWrite .other a v) →
    ∀ e ∈ t.log, ∀ a v, e ≠ .busRead .other a v ∧ e ≠ .busWrite .other a v

/-- R5: the parameters are constants of the machine: no step changes them. -/
def Obligations.StepKeepsTheConfiguration : Prop :=
  ∀ s t : State, step s = .next t → t.cfg = s.cfg

/-- R28: every step keeps `current` the lowest member of a non-empty `runSet`. -/
def Obligations.StepKeepsCurrentLowest : Prop :=
  ∀ s t : State, s.CurrentIsLowest → step s = .next t → t.CurrentIsLowest

/-- R26: every step keeps the blank masks in agreement with the timing modes. -/
def Obligations.StepKeepsMasksMatchingTiming : Prop :=
  ∀ s t : State, s.MasksMatchTiming → step s = .next t → t.MasksMatchTiming

/-- R57: every step keeps each internal length at most its channel's mask + 1; in particular it never underflows. -/
def Obligations.StepKeepsLengthsBounded : Prop :=
  ∀ s t : State, s.LengthsBounded → step s = .next t → t.LengthsBounded

/-- Every step keeps bus memory in its canonical form, whatever the bus does at a misaligned access. -/
def Obligations.StepKeepsMemoryCanonical : Prop :=
  ∀ s t : State, s.MemoryCanonical → step s = .next t → t.MemoryCanonical

/-- The invariants hold at reset, and the default parameters meet the constraints of R5. It evaluates choices: the reset
values (decision D5, log entry 15), the default masks (D3, log entry 4), the default layout (D1, log entry 5) and the
default cartridge bit (log entry 22). -/
def Obligations.ResetMeetsTheInvariants : Prop := State.reset.Inv ∧ State.reset.cfg.wf = true
end

