-- ==== Sys2Proof/Laws/State.lean ====
section
/-! SUPPORT. The small lemmas of the state: for each named operation and each field it leaves alone, that it does; and
what a channel reads as after an update. -/

namespace Sys2Proof.Machine

@[simp] theorem Quad.get_set_same {α : Type} (q : Quad α) (c : ChanIdx) (x : α) : (q.set c x).get c = x := by
  fin_cases c <;> rfl

@[simp] theorem Quad.get_set_ne {α : Type} (q : Quad α) {c d : ChanIdx} (x : α) (h : d ≠ c) :
    (q.set c x).get d = q.get d := by
  revert h; fin_cases c <;> fin_cases d <;> simp [Quad.set, Quad.get]

@[simp] theorem Quad.get_all {α : Type} (x : α) (c : ChanIdx) : (Quad.all x).get c = x := by
  fin_cases c <;> rfl

theorem Quad.ext_get {α : Type} {p q : Quad α} (h : ∀ c, p.get c = q.get c) : p = q := by
  cases p; cases q
  simpa [Quad.get] using And.intro (h 0) (And.intro (h 1) (And.intro (h 2) (h 3)))

@[simp] theorem Quad.set_get_self {α : Type} (q : Quad α) (c : ChanIdx) : q.set c (q.get c) = q := by
  fin_cases c <;> rfl

@[simp] theorem State.chan_setChan_same (s : State) (c : ChanIdx) (x : Channel) : (s.setChan c x).chan c = x :=
  Quad.get_set_same _ _ _

@[simp] theorem State.chan_setChan_ne (s : State) {c d : ChanIdx} (x : Channel) (h : d ≠ c) :
    (s.setChan c x).chan d = s.chan d :=
  Quad.get_set_ne _ _ h

theorem State.chan_setChan (s : State) (c d : ChanIdx) (x : Channel) :
    (s.setChan c x).chan d = if d = c then x else s.chan d := by
  by_cases h : d = c
  · subst h; simp
  · simp [h]

/-- Two states with equal fields of the block's channels read alike. -/
theorem State.chan_congr {s t : State} (h : t.chans = s.chans) (c : ChanIdx) : t.chan c = s.chan c := by
  simp [State.chan, h]

/-! ### Operations that are one record update -/

@[simp] theorem State.setChan_hblankMask (s : State) (c : ChanIdx) (x : Channel) : (s.setChan c x).hblankMask = s.hblankMask := rfl
@[simp] theorem State.setChan_vblankMask (s : State) (c : ChanIdx) (x : Channel) : (s.setChan c x).vblankMask = s.vblankMask := rfl
@[simp] theorem State.setChan_runSet (s : State) (c : ChanIdx) (x : Channel) : (s.setChan c x).runSet = s.runSet := rfl
@[simp] theorem State.setChan_current (s : State) (c : ChanIdx) (x : Channel) : (s.setChan c x).current = s.current := rfl
@[simp] theorem State.setChan_interleaved (s : State) (c : ChanIdx) (x : Channel) : (s.setChan c x).interleaved = s.interleaved := rfl
@[simp] theorem State.setChan_cfg (s : State) (c : ChanIdx) (x : Channel) : (s.setChan c x).cfg = s.cfg := rfl
@[simp] theorem State.setChan_mem (s : State) (c : ChanIdx) (x : Channel) : (s.setChan c x).mem = s.mem := rfl
@[simp] theorem State.setChan_irqFlags (s : State) (c : ChanIdx) (x : Channel) : (s.setChan c x).irqFlags = s.irqFlags := rfl
@[simp] theorem State.setChan_log (s : State) (c : ChanIdx) (x : Channel) : (s.setChan c x).log = s.log := rfl
@[simp] theorem State.setChan_budget (s : State) (c : ChanIdx) (x : Channel) : (s.setChan c x).budget = s.budget := rfl
@[simp] theorem State.setChan_bus (s : State) (c : ChanIdx) (x : Channel) : (s.setChan c x).bus = s.bus := rfl
@[simp] theorem State.setChan_port (s : State) (c : ChanIdx) (x : Channel) : (s.setChan c x).port = s.port := rfl
@[simp] theorem State.setChan_resetReq (s : State) (c : ChanIdx) (x : Channel) : (s.setChan c x).resetReq = s.resetReq := rfl
@[simp] theorem State.setChan_freeCount (s : State) (c : ChanIdx) (x : Channel) : (s.setChan c x).freeCount = s.freeCount := rfl

@[simp] theorem State.emit_chans (s : State) (e : Event) : (s.emit e).chans = s.chans := rfl
@[simp] theorem State.emit_hblankMask (s : State) (e : Event) : (s.emit e).hblankMask = s.hblankMask := rfl
@[simp] theorem State.emit_vblankMask (s : State) (e : Event) : (s.emit e).vblankMask = s.vblankMask := rfl
@[simp] theorem State.emit_runSet (s : State) (e : Event) : (s.emit e).runSet = s.runSet := rfl
@[simp] theorem State.emit_current (s : State) (e : Event) : (s.emit e).current = s.current := rfl
@[simp] theorem State.emit_interleaved (s : State) (e : Event) : (s.emit e).interleaved = s.interleaved := rfl
@[simp] theorem State.emit_cfg (s : State) (e : Event) : (s.emit e).cfg = s.cfg := rfl
@[simp] theorem State.emit_mem (s : State) (e : Event) : (s.emit e).mem = s.mem := rfl
@[simp] theorem State.emit_irqFlags (s : State) (e : Event) : (s.emit e).irqFlags = s.irqFlags := rfl
@[simp] theorem State.emit_budget (s : State) (e : Event) : (s.emit e).budget = s.budget := rfl
@[simp] theorem State.emit_bus (s : State) (e : Event) : (s.emit e).bus = s.bus := rfl
@[simp] theorem State.emit_port (s : State) (e : Event) : (s.emit e).port = s.port := rfl
@[simp] theorem State.emit_resetReq (s : State) (e : Event) : (s.emit e).resetReq = s.resetReq := rfl
@[simp] theorem State.emit_freeCount (s : State) (e : Event) : (s.emit e).freeCount = s.freeCount := rfl
@[simp] theorem State.emit_chan (s : State) (e : Event) (d : ChanIdx) : (s.emit e).chan d = s.chan d := State.chan_congr (State.emit_chans s e) d

@[simp] theorem State.irqRaise_chans (s : State) (c : ChanIdx) : (s.irqRaise c).chans = s.chans := rfl
@[simp] theorem State.irqRaise_hblankMask (s : State) (c : ChanIdx) : (s.irqRaise c).hblankMask = s.hblankMask := rfl
@[simp] theorem State.irqRaise_vblankMask (s : State) (c : ChanIdx) : (s.irqRaise c).vblankMask = s.vblankMask := rfl
@[simp] theorem State.irqRaise_runSet (s : State) (c : ChanIdx) : (s.irqRaise c).runSet = s.runSet := rfl
@[simp] theorem State.irqRaise_current (s : State) (c : ChanIdx) : (s.irqRaise c).current = s.current := rfl
@[simp] theorem State.irqRaise_interleaved (s : State) (c : ChanIdx) : (s.irqRaise c).interleaved = s.interleaved := rfl
@[simp] theorem State.irqRaise_cfg (s : State) (c : ChanIdx) : (s.irqRaise c).cfg = s.cfg := rfl
@[simp] theorem State.irqRaise_mem (s : State) (c : ChanIdx) : (s.irqRaise c).mem = s.mem := rfl
@[simp] theorem State.irqRaise_budget (s : State) (c : ChanIdx) : (s.irqRaise c).budget = s.budget := rfl
@[simp] theorem State.irqRaise_bus (s : State) (c : ChanIdx) : (s.irqRaise c).bus = s.bus := rfl
@[simp] theorem State.irqRaise_port (s : State) (c : ChanIdx) : (s.irqRaise c).port = s.port := rfl
@[simp] theorem State.irqRaise_resetReq (s : State) (c : ChanIdx) : (s.irqRaise c).resetReq = s.resetReq := rfl
@[simp] theorem State.irqRaise_freeCount (s : State) (c : ChanIdx) : (s.irqRaise c).freeCount = s.freeCount := rfl
@[simp] theorem State.irqRaise_chan (s : State) (c : ChanIdx) (d : ChanIdx) : (s.irqRaise c).chan d = s.chan d := State.chan_congr (State.irqRaise_chans s c) d

@[simp] theorem State.leaveRunSet_chans (s : State) (c : ChanIdx) : (s.leaveRunSet c).chans = s.chans := rfl
@[simp] theorem State.leaveRunSet_hblankMask (s : State) (c : ChanIdx) : (s.leaveRunSet c).hblankMask = s.hblankMask := rfl
@[simp] theorem State.leaveRunSet_vblankMask (s : State) (c : ChanIdx) : (s.leaveRunSet c).vblankMask = s.vblankMask := rfl
@[simp] theorem State.leaveRunSet_current (s : State) (c : ChanIdx) : (s.leaveRunSet c).current = s.current := rfl
@[simp] theorem State.leaveRunSet_interleaved (s : State) (c : ChanIdx) : (s.leaveRunSet c).interleaved = s.interleaved := rfl
@[simp] theorem State.leaveRunSet_cfg (s : State) (c : ChanIdx) : (s.leaveRunSet c).cfg = s.cfg := rfl
@[simp] theorem State.leaveRunSet_mem (s : State) (c : ChanIdx) : (s.leaveRunSet c).mem = s.mem := rfl
@[simp] theorem State.leaveRunSet_irqFlags (s : State) (c : ChanIdx) : (s.leaveRunSet c).irqFlags = s.irqFlags := rfl
@[simp] theorem State.leaveRunSet_log (s : State) (c : ChanIdx) : (s.leaveRunSet c).log = s.log := rfl
@[simp] theorem State.leaveRunSet_budget (s : State) (c : ChanIdx) : (s.leaveRunSet c).budget = s.budget := rfl
@[simp] theorem State.leaveRunSet_bus (s : State) (c : ChanIdx) : (s.leaveRunSet c).bus = s.bus := rfl
@[simp] theorem State.leaveRunSet_port (s : State) (c : ChanIdx) : (s.leaveRunSet c).port = s.port := rfl
@[simp] theorem State.leaveRunSet_resetReq (s : State) (c : ChanIdx) : (s.leaveRunSet c).resetReq = s.resetReq := rfl
@[simp] theorem State.leaveRunSet_freeCount (s : State) (c : ChanIdx) : (s.leaveRunSet c).freeCount = s.freeCount := rfl
@[simp] theorem State.leaveRunSet_chan (s : State) (c : ChanIdx) (d : ChanIdx) : (s.leaveRunSet c).chan d = s.chan d := State.chan_congr (State.leaveRunSet_chans s c) d

@[simp] theorem State.latch_hblankMask (s : State) (c : ChanIdx) : (s.latch c).hblankMask = s.hblankMask := rfl
@[simp] theorem State.latch_vblankMask (s : State) (c : ChanIdx) : (s.latch c).vblankMask = s.vblankMask := rfl
@[simp] theorem State.latch_runSet (s : State) (c : ChanIdx) : (s.latch c).runSet = s.runSet := rfl
@[simp] theorem State.latch_current (s : State) (c : ChanIdx) : (s.latch c).current = s.current := rfl
@[simp] theorem State.latch_interleaved (s : State) (c : ChanIdx) : (s.latch c).interleaved = s.interleaved := rfl
@[simp] theorem State.latch_cfg (s : State) (c : ChanIdx) : (s.latch c).cfg = s.cfg := rfl
@[simp] theorem State.latch_mem (s : State) (c : ChanIdx) : (s.latch c).mem = s.mem := rfl
@[simp] theorem State.latch_irqFlags (s : State) (c : ChanIdx) : (s.latch c).irqFlags = s.irqFlags := rfl
@[simp] theorem State.latch_log (s : State) (c : ChanIdx) : (s.latch c).log = s.log := rfl
@[simp] theorem State.latch_budget (s : State) (c : ChanIdx) : (s.latch c).budget = s.budget := rfl
@[simp] theorem State.latch_bus (s : State) (c : ChanIdx) : (s.latch c).bus = s.bus := rfl
@[simp] theorem State.latch_port (s : State) (c : ChanIdx) : (s.latch c).port = s.port := rfl
@[simp] theorem State.latch_resetReq (s : State) (c : ChanIdx) : (s.latch c).resetReq = s.resetReq := rfl
@[simp] theorem State.latch_freeCount (s : State) (c : ChanIdx) : (s.latch c).freeCount = s.freeCount := rfl

@[simp] theorem State.syncBlankMasks_chans (s : State) (c : ChanIdx) : (s.syncBlankMasks c).chans = s.chans := rfl
@[simp] theorem State.syncBlankMasks_runSet (s : State) (c : ChanIdx) : (s.syncBlankMasks c).runSet = s.runSet := rfl
@[simp] theorem State.syncBlankMasks_current (s : State) (c : ChanIdx) : (s.syncBlankMasks c).current = s.current := rfl
@[simp] theorem State.syncBlankMasks_interleaved (s : State) (c : ChanIdx) : (s.syncBlankMasks c).interleaved = s.interleaved := rfl
@[simp] theorem State.syncBlankMasks_cfg (s : State) (c : ChanIdx) : (s.syncBlankMasks c).cfg = s.cfg := rfl
@[simp] theorem State.syncBlankMasks_mem (s : State) (c : ChanIdx) : (s.syncBlankMasks c).mem = s.mem := rfl
@[simp] theorem State.syncBlankMasks_irqFlags (s : State) (c : ChanIdx) : (s.syncBlankMasks c).irqFlags = s.irqFlags := rfl
@[simp] theorem State.syncBlankMasks_log (s : State) (c : ChanIdx) : (s.syncBlankMasks c).log = s.log := rfl
@[simp] theorem State.syncBlankMasks_budget (s : State) (c : ChanIdx) : (s.syncBlankMasks c).budget = s.budget := rfl
@[simp] theorem State.syncBlankMasks_bus (s : State) (c : ChanIdx) : (s.syncBlankMasks c).bus = s.bus := rfl
@[simp] theorem State.syncBlankMasks_port (s : State) (c : ChanIdx) : (s.syncBlankMasks c).port = s.port := rfl
@[simp] theorem State.syncBlankMasks_resetReq (s : State) (c : ChanIdx) : (s.syncBlankMasks c).resetReq = s.resetReq := rfl
@[simp] theorem State.syncBlankMasks_freeCount (s : State) (c : ChanIdx) : (s.syncBlankMasks c).freeCount = s.freeCount := rfl
@[simp] theorem State.syncBlankMasks_chan (s : State) (c : ChanIdx) (d : ChanIdx) : (s.syncBlankMasks c).chan d = s.chan d := State.chan_congr (State.syncBlankMasks_chans s c) d

@[simp] theorem State.resetEvent_cfg (s : State) : (s.resetEvent).cfg = s.cfg := rfl
@[simp] theorem State.resetEvent_mem (s : State) : (s.resetEvent).mem = s.mem := rfl
@[simp] theorem State.resetEvent_irqFlags (s : State) : (s.resetEvent).irqFlags = s.irqFlags := rfl
@[simp] theorem State.resetEvent_log (s : State) : (s.resetEvent).log = s.log := rfl
@[simp] theorem State.resetEvent_budget (s : State) : (s.resetEvent).budget = s.budget := rfl
@[simp] theorem State.resetEvent_bus (s : State) : (s.resetEvent).bus = s.bus := rfl
@[simp] theorem State.resetEvent_port (s : State) : (s.resetEvent).port = s.port := rfl
@[simp] theorem State.resetEvent_freeCount (s : State) : (s.resetEvent).freeCount = s.freeCount := rfl

@[simp] theorem State.nextTurn_chans (s : State) : (s.nextTurn).chans = s.chans := rfl
@[simp] theorem State.nextTurn_hblankMask (s : State) : (s.nextTurn).hblankMask = s.hblankMask := rfl
@[simp] theorem State.nextTurn_vblankMask (s : State) : (s.nextTurn).vblankMask = s.vblankMask := rfl
@[simp] theorem State.nextTurn_runSet (s : State) : (s.nextTurn).runSet = s.runSet := rfl
@[simp] theorem State.nextTurn_current (s : State) : (s.nextTurn).current = s.current := rfl
@[simp] theorem State.nextTurn_interleaved (s : State) : (s.nextTurn).interleaved = s.interleaved := rfl
@[simp] theorem State.nextTurn_cfg (s : State) : (s.nextTurn).cfg = s.cfg := rfl
@[simp] theorem State.nextTurn_mem (s : State) : (s.nextTurn).mem = s.mem := rfl
@[simp] theorem State.nextTurn_irqFlags (s : State) : (s.nextTurn).irqFlags = s.irqFlags := rfl
@[simp] theorem State.nextTurn_log (s : State) : (s.nextTurn).log = s.log := rfl
@[simp] theorem State.nextTurn_budget (s : State) : (s.nextTurn).budget = s.budget := rfl
@[simp] theorem State.nextTurn_port (s : State) : (s.nextTurn).port = s.port := rfl
@[simp] theorem State.nextTurn_resetReq (s : State) : (s.nextTurn).resetReq = s.resetReq := rfl
@[simp] theorem State.nextTurn_freeCount (s : State) : (s.nextTurn).freeCount = s.freeCount := rfl
@[simp] theorem State.nextTurn_chan (s : State) (d : ChanIdx) : (s.nextTurn).chan d = s.chan d := State.chan_congr (State.nextTurn_chans s) d

@[simp] theorem State.useFree_chans (s : State) : (s.useFree).chans = s.chans := rfl
@[simp] theorem State.useFree_hblankMask (s : State) : (s.useFree).hblankMask = s.hblankMask := rfl
@[simp] theorem State.useFree_vblankMask (s : State) : (s.useFree).vblankMask = s.vblankMask := rfl
@[simp] theorem State.useFree_runSet (s : State) : (s.useFree).runSet = s.runSet := rfl
@[simp] theorem State.useFree_current (s : State) : (s.useFree).current = s.current := rfl
@[simp] theorem State.useFree_interleaved (s : State) : (s.useFree).interleaved = s.interleaved := rfl
@[simp] theorem State.useFree_cfg (s : State) : (s.useFree).cfg = s.cfg := rfl
@[simp] theorem State.useFree_mem (s : State) : (s.useFree).mem = s.mem := rfl
@[simp] theorem State.useFree_irqFlags (s : State) : (s.useFree).irqFlags = s.irqFlags := rfl
@[simp] theorem State.useFree_log (s : State) : (s.useFree).log = s.log := rfl
@[simp] theorem State.useFree_budget (s : State) : (s.useFree).budget = s.budget := rfl
@[simp] theorem State.useFree_bus (s : State) : (s.useFree).bus = s.bus := rfl
@[simp] theorem State.useFree_port (s : State) : (s.useFree).port = s.port := rfl
@[simp] theorem State.useFree_resetReq (s : State) : (s.useFree).resetReq = s.resetReq := rfl
@[simp] theorem State.useFree_chan (s : State) (d : ChanIdx) : (s.useFree).chan d = s.chan d := State.chan_congr (State.useFree_chans s) d

@[simp] theorem State.writeSrcLane_hblankMask (s : State) (c : ChanIdx) (k : Nat) (b : Byte) : (s.writeSrcLane c k b).hblankMask = s.hblankMask := rfl
@[simp] theorem State.writeSrcLane_vblankMask (s : State) (c : ChanIdx) (k : Nat) (b : Byte) : (s.writeSrcLane c k b).vblankMask = s.vblankMask := rfl
@[simp] theorem State.writeSrcLane_runSet (s : State) (c : ChanIdx) (k : Nat) (b : Byte) : (s.writeSrcLane c k b).runSet = s.runSet := rfl
@[simp] theorem State.writeSrcLane_current (s : State) (c : ChanIdx) (k : Nat) (b : Byte) : (s.writeSrcLane c k b).current = s.current := rfl
@[simp] theorem State.writeSrcLane_interleaved (s : State) (c : ChanIdx) (k : Nat) (b : Byte) : (s.writeSrcLane c k b).interleaved = s.interleaved := rfl
@[simp] theorem State.writeSrcLane_cfg (s : State) (c : ChanIdx) (k : Nat) (b : Byte) : (s.writeSrcLane c k b).cfg = s.cfg := rfl
@[simp] theorem State.writeSrcLane_mem (s : State) (c : ChanIdx) (k : Nat) (b : Byte) : (s.writeSrcLane c k b).mem = s.mem := rfl
@[simp] theorem State.writeSrcLane_irqFlags (s : State) (c : ChanIdx) (k : Nat) (b : Byte) : (s.writeSrcLane c k b).irqFlags = s.irqFlags := rfl
@[simp] theorem State.writeSrcLane_log (s : State) (c : ChanIdx) (k : Nat) (b : Byte) : (s.writeSrcLane c k b).log = s.log := rfl
@[simp] theorem State.writeSrcLane_budget (s : State) (c : ChanIdx) (k : Nat) (b : Byte) : (s.writeSrcLane c k b).budget = s.budget := rfl
@[simp] theorem State.writeSrcLane_bus (s : State) (c : ChanIdx) (k : Nat) (b : Byte) : (s.writeSrcLane c k b).bus = s.bus := rfl
@[simp] theorem State.writeSrcLane_port (s : State) (c : ChanIdx) (k : Nat) (b : Byte) : (s.writeSrcLane c k b).port = s.port := rfl
@[simp] theorem State.writeSrcLane_resetReq (s : State) (c : ChanIdx) (k : Nat) (b : Byte) : (s.writeSrcLane c k b).resetReq = s.resetReq := rfl
@[simp] theorem State.writeSrcLane_freeCount (s : State) (c : ChanIdx) (k : Nat) (b : Byte) : (s.writeSrcLane c k b).freeCount = s.freeCount := rfl

@[simp] theorem State.writeDstLane_hblankMask (s : State) (c : ChanIdx) (k : Nat) (b : Byte) : (s.writeDstLane c k b).hblankMask = s.hblankMask := rfl
@[simp] theorem State.writeDstLane_vblankMask (s : State) (c : ChanIdx) (k : Nat) (b : Byte) : (s.writeDstLane c k b).vblankMask = s.vblankMask := rfl
@[simp] theorem State.writeDstLane_runSet (s : State) (c : ChanIdx) (k : Nat) (b : Byte) : (s.writeDstLane c k b).runSet = s.runSet := rfl
@[simp] theorem State.writeDstLane_current (s : State) (c : ChanIdx) (k : Nat) (b : Byte) : (s.writeDstLane c k b).current = s.current := rfl
@[simp] theorem State.writeDstLane_interleaved (s : State) (c : ChanIdx) (k : Nat) (b : Byte) : (s.writeDstLane c k b).interleaved = s.interleaved := rfl
@[simp] theorem State.writeDstLane_cfg (s : State) (c : ChanIdx) (k : Nat) (b : Byte) : (s.writeDstLane c k b).cfg = s.cfg := rfl
@[simp] theorem State.writeDstLane_mem (s : State) (c : ChanIdx) (k : Nat) (b : Byte) : (s.writeDstLane c k b).mem = s.mem := rfl
@[simp] theorem State.writeDstLane_irqFlags (s : State) (c : ChanIdx) (k : Nat) (b : Byte) : (s.writeDstLane c k b).irqFlags = s.irqFlags := rfl
@[simp] theorem State.writeDstLane_log (s : State) (c : ChanIdx) (k : Nat) (b : Byte) : (s.writeDstLane c k b).log = s.log := rfl
@[simp] theorem State.writeDstLane_budget (s : State) (c : ChanIdx) (k : Nat) (b : Byte) : (s.writeDstLane c k b).budget = s.budget := rfl
@[simp] theorem State.writeDstLane_bus (s : State) (c : ChanIdx) (k : Nat) (b : Byte) : (s.writeDstLane c k b).bus = s.bus := rfl
@[simp] theorem State.writeDstLane_port (s : State) (c : ChanIdx) (k : Nat) (b : Byte) : (s.writeDstLane c k b).port = s.port := rfl
@[simp] theorem State.writeDstLane_resetReq (s : State) (c : ChanIdx) (k : Nat) (b : Byte) : (s.writeDstLane c k b).resetReq = s.resetReq := rfl
@[simp] theorem State.writeDstLane_freeCount (s : State) (c : ChanIdx) (k : Nat) (b : Byte) : (s.writeDstLane c k b).freeCount = s.freeCount := rfl

@[simp] theorem State.writeLenLane_hblankMask (s : State) (c : ChanIdx) (k : Nat) (b : Byte) : (s.writeLenLane c k b).hblankMask = s.hblankMask := rfl
@[simp] theorem State.writeLenLane_vblankMask (s : State) (c : ChanIdx) (k : Nat) (b : Byte) : (s.writeLenLane c k b).vblankMask = s.vblankMask := rfl
@[simp] theorem State.writeLenLane_runSet (s : State) (c : ChanIdx) (k : Nat) (b : Byte) : (s.writeLenLane c k b).runSet = s.runSet := rfl
@[simp] theorem State.writeLenLane_current (s : State) (c : ChanIdx) (k : Nat) (b : Byte) : (s.writeLenLane c k b).current = s.current := rfl
@[simp] theorem State.writeLenLane_interleaved (s : State) (c : ChanIdx) (k : Nat) (b : Byte) : (s.writeLenLane c k b).interleaved = s.interleaved := rfl
@[simp] theorem State.writeLenLane_cfg (s : State) (c : ChanIdx) (k : Nat) (b : Byte) : (s.writeLenLane c k b).cfg = s.cfg := rfl
@[simp] theorem State.writeLenLane_mem (s : State) (c : ChanIdx) (k : Nat) (b : Byte) : (s.writeLenLane c k b).mem = s.mem := rfl
@[simp] theorem State.writeLenLane_irqFlags (s : State) (c : ChanIdx) (k : Nat) (b : Byte) : (s.writeLenLane c k b).irqFlags = s.irqFlags := rfl
@[simp] theorem State.writeLenLane_log (s : State) (c : ChanIdx) (k : Nat) (b : Byte) : (s.writeLenLane c k b).log = s.log := rfl
@[simp] theorem State.writeLenLane_budget (s : State) (c : ChanIdx) (k : Nat) (b : Byte) : (s.writeLenLane c k b).budget = s.budget := rfl
@[simp] theorem State.writeLenLane_bus (s : State) (c : ChanIdx) (k : Nat) (b : Byte) : (s.writeLenLane c k b).bus = s.bus := rfl
@[simp] theorem State.writeLenLane_port (s : State) (c : ChanIdx) (k : Nat) (b : Byte) : (s.writeLenLane c k b).port = s.port := rfl
@[simp] theorem State.writeLenLane_resetReq (s : State) (c : ChanIdx) (k : Nat) (b : Byte) : (s.writeLenLane c k b).resetReq = s.resetReq := rfl
@[simp] theorem State.writeLenLane_freeCount (s : State) (c : ChanIdx) (k : Nat) (b : Byte) : (s.writeLenLane c k b).freeCount = s.freeCount := rfl

@[simp] theorem State.writeCtlLo_hblankMask (s : State) (c : ChanIdx) (b : Byte) : (s.writeCtlLo c b).hblankMask = s.hblankMask := rfl
@[simp] theorem State.writeCtlLo_vblankMask (s : State) (c : ChanIdx) (b : Byte) : (s.writeCtlLo c b).vblankMask = s.vblankMask := rfl
@[simp] theorem State.writeCtlLo_runSet (s : State) (c : ChanIdx) (b : Byte) : (s.writeCtlLo c b).runSet = s.runSet := rfl
@[simp] theorem State.writeCtlLo_current (s : State) (c : ChanIdx) (b : Byte) : (s.writeCtlLo c b).current = s.current := rfl
@[simp] theorem State.writeCtlLo_interleaved (s : State) (c : ChanIdx) (b : Byte) : (s.writeCtlLo c b).interleaved = s.interleaved := rfl
@[simp] theorem State.writeCtlLo_cfg (s : State) (c : ChanIdx) (b : Byte) : (s.writeCtlLo c b).cfg = s.cfg := rfl
@[simp] theorem State.writeCtlLo_mem (s : State) (c : ChanIdx) (b : Byte) : (s.writeCtlLo c b).mem = s.mem := rfl
@[simp] theorem State.writeCtlLo_irqFlags (s : State) (c : ChanIdx) (b : Byte) : (s.writeCtlLo c b).irqFlags = s.irqFlags := rfl
@[simp] theorem State.writeCtlLo_log (s : State) (c : ChanIdx) (b : Byte) : (s.writeCtlLo c b).log = s.log := rfl
@[simp] theorem State.writeCtlLo_budget (s : State) (c : ChanIdx) (b : Byte) : (s.writeCtlLo c b).budget = s.budget := rfl
@[simp] theorem State.writeCtlLo_bus (s : State) (c : ChanIdx) (b : Byte) : (s.writeCtlLo c b).bus = s.bus := rfl
@[simp] theorem State.writeCtlLo_port (s : State) (c : ChanIdx) (b : Byte) : (s.writeCtlLo c b).port = s.port := rfl
@[simp] theorem State.writeCtlLo_resetReq (s : State) (c : ChanIdx) (b : Byte) : (s.writeCtlLo c b).resetReq = s.resetReq := rfl
@[simp] theorem State.writeCtlLo_freeCount (s : State) (c : ChanIdx) (b : Byte) : (s.writeCtlLo c b).freeCount = s.freeCount := rfl

@[simp] theorem State.storeCtlHi_runSet (s : State) (c : ChanIdx) (b : Byte) : (s.storeCtlHi c b).runSet = s.runSet := rfl
@[simp] theorem State.storeCtlHi_current (s : State) (c : ChanIdx) (b : Byte) : (s.storeCtlHi c b).current = s.current := rfl
@[simp] theorem State.storeCtlHi_interleaved (s : State) (c : ChanIdx) (b : Byte) : (s.storeCtlHi c b).interleaved = s.interleaved := rfl
@[simp] theorem State.storeCtlHi_cfg (s : State) (c : ChanIdx) (b : Byte) : (s.storeCtlHi c b).cfg = s.cfg := rfl
@[simp] theorem State.storeCtlHi_mem (s : State) (c : ChanIdx) (b : Byte) : (s.storeCtlHi c b).mem = s.mem := rfl
@[simp] theorem State.storeCtlHi_irqFlags (s : State) (c : ChanIdx) (b : Byte) : (s.storeCtlHi c b).irqFlags = s.irqFlags := rfl
@[simp] theorem State.storeCtlHi_log (s : State) (c : ChanIdx) (b : Byte) : (s.storeCtlHi c b).log = s.log := rfl
@[simp] theorem State.storeCtlHi_budget (s : State) (c : ChanIdx) (b : Byte) : (s.storeCtlHi c b).budget = s.budget := rfl
@[simp] theorem State.storeCtlHi_bus (s : State) (c : ChanIdx) (b : Byte) : (s.storeCtlHi c b).bus = s.bus := rfl
@[simp] theorem State.storeCtlHi_port (s : State) (c : ChanIdx) (b : Byte) : (s.storeCtlHi c b).port = s.port := rfl
@[simp] theorem State.storeCtlHi_resetReq (s : State) (c : ChanIdx) (b : Byte) : (s.storeCtlHi c b).resetReq = s.resetReq := rfl
@[simp] theorem State.storeCtlHi_freeCount (s : State) (c : ChanIdx) (b : Byte) : (s.storeCtlHi c b).freeCount = s.freeCount := rfl

@[simp] theorem State.returnByte_chans (s : State) (c : ChanIdx) (off : Nat) (b : Byte) : (s.returnByte c off b).chans = s.chans := rfl
@[simp] theorem State.returnByte_hblankMask (s : State) (c : ChanIdx) (off : Nat) (b : Byte) : (s.returnByte c off b).hblankMask = s.hblankMask := rfl
@[simp] theorem State.returnByte_vblankMask (s : State) (c : ChanIdx) (off : Nat) (b : Byte) : (s.returnByte c off b).vblankMask = s.vblankMask := rfl
@[simp] theorem State.returnByte_runSet (s : State) (c : ChanIdx) (off : Nat) (b : Byte) : (s.returnByte c off b).runSet = s.runSet := rfl
@[simp] theorem State.returnByte_current (s : State) (c : ChanIdx) (off : Nat) (b : Byte) : (s.returnByte c off b).current = s.current := rfl
@[simp] theorem State.returnByte_interleaved (s : State) (c : ChanIdx) (off : Nat) (b : Byte) : (s.returnByte c off b).interleaved = s.interleaved := rfl
@[simp] theorem State.returnByte_cfg (s : State) (c : ChanIdx) (off : Nat) (b : Byte) : (s.returnByte c off b).cfg = s.cfg := rfl
@[simp] theorem State.returnByte_mem (s : State) (c : ChanIdx) (off : Nat) (b : Byte) : (s.returnByte c off b).mem = s.mem := rfl
@[simp] theorem State.returnByte_irqFlags (s : State) (c : ChanIdx) (off : Nat) (b : Byte) : (s.returnByte c off b).irqFlags = s.irqFlags := rfl
@[simp] theorem State.returnByte_budget (s : State) (c : ChanIdx) (off : Nat) (b : Byte) : (s.returnByte c off b).budget = s.budget := rfl
@[simp] theorem State.returnByte_bus (s : State) (c : ChanIdx) (off : Nat) (b : Byte) : (s.returnByte c off b).bus = s.bus := rfl
@[simp] theorem State.returnByte_port (s : State) (c : ChanIdx) (off : Nat) (b : Byte) : (s.returnByte c off b).port = s.port := rfl
@[simp] theorem State.returnByte_resetReq (s : State) (c : ChanIdx) (off : Nat) (b : Byte) : (s.returnByte c off b).resetReq = s.resetReq := rfl
@[simp] theorem State.returnByte_freeCount (s : State) (c : ChanIdx) (off : Nat) (b : Byte) : (s.returnByte c off b).freeCount = s.freeCount := rfl
@[simp] theorem State.returnByte_chan (s : State) (c : ChanIdx) (off : Nat) (b : Byte) (d : ChanIdx) : (s.returnByte c off b).chan d = s.chan d := State.chan_congr (State.returnByte_chans s c off b) d

@[simp] theorem State.regRead_chans (s : State) (c : ChanIdx) (off : Nat) : (s.regRead c off).chans = s.chans := rfl
@[simp] theorem State.regRead_hblankMask (s : State) (c : ChanIdx) (off : Nat) : (s.regRead c off).hblankMask = s.hblankMask := rfl
@[simp] theorem State.regRead_vblankMask (s : State) (c : ChanIdx) (off : Nat) : (s.regRead c off).vblankMask = s.vblankMask := rfl
@[simp] theorem State.regRead_runSet (s : State) (c : ChanIdx) (off : Nat) : (s.regRead c off).runSet = s.runSet := rfl
@[simp] theorem State.regRead_current (s : State) (c : ChanIdx) (off : Nat) : (s.regRead c off).current = s.current := rfl
@[simp] theorem State.regRead_interleaved (s : State) (c : ChanIdx) (off : Nat) : (s.regRead c off).interleaved = s.interleaved := rfl
@[simp] theorem State.regRead_cfg (s : State) (c : ChanIdx) (off : Nat) : (s.regRead c off).cfg = s.cfg := rfl
@[simp] theorem State.regRead_mem (s : State) (c : ChanIdx) (off : Nat) : (s.regRead c off).mem = s.mem := rfl
@[simp] theorem State.regRead_irqFlags (s : State) (c : ChanIdx) (off : Nat) : (s.regRead c off).irqFlags = s.irqFlags := rfl
@[simp] theorem State.regRead_budget (s : State) (c : ChanIdx) (off : Nat) : (s.regRead c off).budget = s.budget := rfl
@[simp] theorem State.regRead_bus (s : State) (c : ChanIdx) (off : Nat) : (s.regRead c off).bus = s.bus := rfl
@[simp] theorem State.regRead_port (s : State) (c : ChanIdx) (off : Nat) : (s.regRead c off).port = s.port := rfl
@[simp] theorem State.regRead_resetReq (s : State) (c : ChanIdx) (off : Nat) : (s.regRead c off).resetReq = s.resetReq := rfl
@[simp] theorem State.regRead_freeCount (s : State) (c : ChanIdx) (off : Nat) : (s.regRead c off).freeCount = s.freeCount := rfl
@[simp] theorem State.regRead_chan (s : State) (c : ChanIdx) (off : Nat) (d : ChanIdx) : (s.regRead c off).chan d = s.chan d := State.chan_congr (State.regRead_chans s c off) d

@[simp] theorem State.advance_hblankMask (s : State) (c : ChanIdx) (dSrc dDst : Int) : (s.advance c dSrc dDst).hblankMask = s.hblankMask := rfl
@[simp] theorem State.advance_vblankMask (s : State) (c : ChanIdx) (dSrc dDst : Int) : (s.advance c dSrc dDst).vblankMask = s.vblankMask := rfl
@[simp] theorem State.advance_runSet (s : State) (c : ChanIdx) (dSrc dDst : Int) : (s.advance c dSrc dDst).runSet = s.runSet := rfl
@[simp] theorem State.advance_current (s : State) (c : ChanIdx) (dSrc dDst : Int) : (s.advance c dSrc dDst).current = s.current := rfl
@[simp] theorem State.advance_interleaved (s : State) (c : ChanIdx) (dSrc dDst : Int) : (s.advance c dSrc dDst).interleaved = s.interleaved := rfl
@[simp] theorem State.advance_cfg (s : State) (c : ChanIdx) (dSrc dDst : Int) : (s.advance c dSrc dDst).cfg = s.cfg := rfl
@[simp] theorem State.advance_mem (s : State) (c : ChanIdx) (dSrc dDst : Int) : (s.advance c dSrc dDst).mem = s.mem := rfl
@[simp] theorem State.advance_irqFlags (s : State) (c : ChanIdx) (dSrc dDst : Int) : (s.advance c dSrc dDst).irqFlags = s.irqFlags := rfl
@[simp] theorem State.advance_log (s : State) (c : ChanIdx) (dSrc dDst : Int) : (s.advance c dSrc dDst).log = s.log := rfl
@[simp] theorem State.advance_budget (s : State) (c : ChanIdx) (dSrc dDst : Int) : (s.advance c dSrc dDst).budget = s.budget := rfl
@[simp] theorem State.advance_bus (s : State) (c : ChanIdx) (dSrc dDst : Int) : (s.advance c dSrc dDst).bus = s.bus := rfl
@[simp] theorem State.advance_port (s : State) (c : ChanIdx) (dSrc dDst : Int) : (s.advance c dSrc dDst).port = s.port := rfl
@[simp] theorem State.advance_resetReq (s : State) (c : ChanIdx) (dSrc dDst : Int) : (s.advance c dSrc dDst).resetReq = s.resetReq := rfl
@[simp] theorem State.advance_freeCount (s : State) (c : ChanIdx) (dSrc dDst : Int) : (s.advance c dSrc dDst).freeCount = s.freeCount := rfl

@[simp] theorem State.reloadLength_hblankMask (s : State) (c : ChanIdx) : (s.reloadLength c).hblankMask = s.hblankMask := rfl
@[simp] theorem State.reloadLength_vblankMask (s : State) (c : ChanIdx) : (s.reloadLength c).vblankMask = s.vblankMask := rfl
@[simp] theorem State.reloadLength_runSet (s : State) (c : ChanIdx) : (s.reloadLength c).runSet = s.runSet := rfl
@[simp] theorem State.reloadLength_current (s : State) (c : ChanIdx) : (s.reloadLength c).current = s.current := rfl
@[simp] theorem State.reloadLength_interleaved (s : State) (c : ChanIdx) : (s.reloadLength c).interleaved = s.interleaved := rfl
@[simp] theorem State.reloadLength_cfg (s : State) (c : ChanIdx) : (s.reloadLength c).cfg = s.cfg := rfl
@[simp] theorem State.reloadLength_mem (s : State) (c : ChanIdx) : (s.reloadLength c).mem = s.mem := rfl
@[simp] theorem State.reloadLength_irqFlags (s : State) (c : ChanIdx) : (s.reloadLength c).irqFlags = s.irqFlags := rfl
@[simp] theorem State.reloadLength_log (s : State) (c : ChanIdx) : (s.reloadLength c).log = s.log := rfl
@[simp] theorem State.reloadLength_budget (s : State) (c : ChanIdx) : (s.reloadLength c).budget = s.budget := rfl
@[simp] theorem State.reloadLength_bus (s : State) (c : ChanIdx) : (s.reloadLength c).bus = s.bus := rfl
@[simp] theorem State.reloadLength_port (s : State) (c : ChanIdx) : (s.reloadLength c).port = s.port := rfl
@[simp] theorem State.reloadLength_resetReq (s : State) (c : ChanIdx) : (s.reloadLength c).resetReq = s.resetReq := rfl
@[simp] theorem State.reloadLength_freeCount (s : State) (c : ChanIdx) : (s.reloadLength c).freeCount = s.freeCount := rfl

@[simp] theorem State.retire_hblankMask (s : State) (c : ChanIdx) : (s.retire c).hblankMask = s.hblankMask := rfl
@[simp] theorem State.retire_vblankMask (s : State) (c : ChanIdx) : (s.retire c).vblankMask = s.vblankMask := rfl
@[simp] theorem State.retire_current (s : State) (c : ChanIdx) : (s.retire c).current = s.current := rfl
@[simp] theorem State.retire_interleaved (s : State) (c : ChanIdx) : (s.retire c).interleaved = s.interleaved := rfl
@[simp] theorem State.retire_cfg (s : State) (c : ChanIdx) : (s.retire c).cfg = s.cfg := rfl
@[simp] theorem State.retire_mem (s : State) (c : ChanIdx) : (s.retire c).mem = s.mem := rfl
@[simp] theorem State.retire_irqFlags (s : State) (c : ChanIdx) : (s.retire c).irqFlags = s.irqFlags := rfl
@[simp] theorem State.retire_log (s : State) (c : ChanIdx) : (s.retire c).log = s.log := rfl
@[simp] theorem State.retire_budget (s : State) (c : ChanIdx) : (s.retire c).budget = s.budget := rfl
@[simp] theorem State.retire_bus (s : State) (c : ChanIdx) : (s.retire c).bus = s.bus := rfl
@[simp] theorem State.retire_port (s : State) (c : ChanIdx) : (s.retire c).port = s.port := rfl
@[simp] theorem State.retire_resetReq (s : State) (c : ChanIdx) : (s.retire c).resetReq = s.resetReq := rfl
@[simp] theorem State.retire_freeCount (s : State) (c : ChanIdx) : (s.retire c).freeCount = s.freeCount := rfl

/-! ### Operations with a case distinction -/

@[simp] theorem State.markRunnable_chans (s : State) (id : ChanIdx) : (s.markRunnable id).chans = s.chans := by
  unfold State.markRunnable; split <;> [rfl; (split <;> rfl)]
@[simp] theorem State.markRunnable_hblankMask (s : State) (id : ChanIdx) : (s.markRunnable id).hblankMask = s.hblankMask := by
  unfold State.markRunnable; split <;> [rfl; (split <;> rfl)]
@[simp] theorem State.markRunnable_vblankMask (s : State) (id : ChanIdx) : (s.markRunnable id).vblankMask = s.vblankMask := by
  unfold State.markRunnable; split <;> [rfl; (split <;> rfl)]
@[simp] theorem State.markRunnable_cfg (s : State) (id : ChanIdx) : (s.markRunnable id).cfg = s.cfg := by
  unfold State.markRunnable; split <;> [rfl; (split <;> rfl)]
@[simp] theorem State.markRunnable_mem (s : State) (id : ChanIdx) : (s.markRunnable id).mem = s.mem := by
  unfold State.markRunnable; split <;> [rfl; (split <;> rfl)]
@[simp] theorem State.markRunnable_irqFlags (s : State) (id : ChanIdx) : (s.markRunnable id).irqFlags = s.irqFlags := by
  unfold State.markRunnable; split <;> [rfl; (split <;> rfl)]
@[simp] theorem State.markRunnable_log (s : State) (id : ChanIdx) : (s.markRunnable id).log = s.log := by
  unfold State.markRunnable; split <;> [rfl; (split <;> rfl)]
@[simp] theorem State.markRunnable_budget (s : State) (id : ChanIdx) : (s.markRunnable id).budget = s.budget := by
  unfold State.markRunnable; split <;> [rfl; (split <;> rfl)]
@[simp] theorem State.markRunnable_bus (s : State) (id : ChanIdx) : (s.markRunnable id).bus = s.bus := by
  unfold State.markRunnable; split <;> [rfl; (split <;> rfl)]
@[simp] theorem State.markRunnable_port (s : State) (id : ChanIdx) : (s.markRunnable id).port = s.port := by
  unfold State.markRunnable; split <;> [rfl; (split <;> rfl)]
@[simp] theorem State.markRunnable_resetReq (s : State) (id : ChanIdx) : (s.markRunnable id).resetReq = s.resetReq := by
  unfold State.markRunnable; split <;> [rfl; (split <;> rfl)]
@[simp] theorem State.markRunnable_freeCount (s : State) (id : ChanIdx) : (s.markRunnable id).freeCount = s.freeCount := by
  unfold State.markRunnable; split <;> [rfl; (split <;> rfl)]
@[simp] theorem State.markRunnable_chan (s : State) (id : ChanIdx) (d : ChanIdx) : (s.markRunnable id).chan d = s.chan d := State.chan_congr (State.markRunnable_chans s id) d

@[simp] theorem State.reselect_chans (s : State) : (s.reselect).chans = s.chans := by
  unfold State.reselect; split <;> rfl
@[simp] theorem State.reselect_hblankMask (s : State) : (s.reselect).hblankMask = s.hblankMask := by
  unfold State.reselect; split <;> rfl
@[simp] theorem State.reselect_vblankMask (s : State) : (s.reselect).vblankMask = s.vblankMask := by
  unfold State.reselect; split <;> rfl
@[simp] theorem State.reselect_runSet (s : State) : (s.reselect).runSet = s.runSet := by
  unfold State.reselect; split <;> rfl
@[simp] theorem State.reselect_interleaved (s : State) : (s.reselect).interleaved = s.interleaved := by
  unfold State.reselect; split <;> rfl
@[simp] theorem State.reselect_cfg (s : State) : (s.reselect).cfg = s.cfg := by
  unfold State.reselect; split <;> rfl
@[simp] theorem State.reselect_mem (s : State) : (s.reselect).mem = s.mem := by
  unfold State.reselect; split <;> rfl
@[simp] theorem State.reselect_irqFlags (s : State) : (s.reselect).irqFlags = s.irqFlags := by
  unfold State.reselect; split <;> rfl
@[simp] theorem State.reselect_log (s : State) : (s.reselect).log = s.log := by
  unfold State.reselect; split <;> rfl
@[simp] theorem State.reselect_budget (s : State) : (s.reselect).budget = s.budget := by
  unfold State.reselect; split <;> rfl
@[simp] theorem State.reselect_bus (s : State) : (s.reselect).bus = s.bus := by
  unfold State.reselect; split <;> rfl
@[simp] theorem State.reselect_port (s : State) : (s.reselect).port = s.port := by
  unfold State.reselect; split <;> rfl
@[simp] theorem State.reselect_resetReq (s : State) : (s.reselect).resetReq = s.resetReq := by
  unfold State.reselect; split <;> rfl
@[simp] theorem State.reselect_freeCount (s : State) : (s.reselect).freeCount = s.freeCount := by
  unfold State.reselect; split <;> rfl
@[simp] theorem State.reselect_chan (s : State) (d : ChanIdx) : (s.reselect).chan d = s.chan d := State.chan_congr (State.reselect_chans s) d

@[simp] theorem State.arm_hblankMask (s : State) (c : ChanIdx) : (s.arm c).hblankMask = s.hblankMask := by
  unfold State.arm; split <;> simp
@[simp] theorem State.arm_vblankMask (s : State) (c : ChanIdx) : (s.arm c).vblankMask = s.vblankMask := by
  unfold State.arm; split <;> simp
@[simp] theorem State.arm_cfg (s : State) (c : ChanIdx) : (s.arm c).cfg = s.cfg := by
  unfold State.arm; split <;> simp
@[simp] theorem State.arm_mem (s : State) (c : ChanIdx) : (s.arm c).mem = s.mem := by
  unfold State.arm; split <;> simp
@[simp] theorem State.arm_irqFlags (s : State) (c : ChanIdx) : (s.arm c).irqFlags = s.irqFlags := by
  unfold State.arm; split <;> simp
@[simp] theorem State.arm_log (s : State) (c : ChanIdx) : (s.arm c).log = s.log := by
  unfold State.arm; split <;> simp
@[simp] theorem State.arm_budget (s : State) (c : ChanIdx) : (s.arm c).budget = s.budget := by
  unfold State.arm; split <;> simp
@[simp] theorem State.arm_bus (s : State) (c : ChanIdx) : (s.arm c).bus = s.bus := by
  unfold State.arm; split <;> simp
@[simp] theorem State.arm_port (s : State) (c : ChanIdx) : (s.arm c).port = s.port := by
  unfold State.arm; split <;> simp
@[simp] theorem State.arm_resetReq (s : State) (c : ChanIdx) : (s.arm c).resetReq = s.resetReq := by
  unfold State.arm; split <;> simp
@[simp] theorem State.arm_freeCount (s : State) (c : ChanIdx) : (s.arm c).freeCount = s.freeCount := by
  unfold State.arm; split <;> simp

@[simp] theorem State.writeCtlHi_cfg (s : State) (c : ChanIdx) (b : Byte) : (s.writeCtlHi c b).cfg = s.cfg := by
  unfold State.writeCtlHi; split <;> simp
@[simp] theorem State.writeCtlHi_mem (s : State) (c : ChanIdx) (b : Byte) : (s.writeCtlHi c b).mem = s.mem := by
  unfold State.writeCtlHi; split <;> simp
@[simp] theorem State.writeCtlHi_irqFlags (s : State) (c : ChanIdx) (b : Byte) : (s.writeCtlHi c b).irqFlags = s.irqFlags := by
  unfold State.writeCtlHi; split <;> simp
@[simp] theorem State.writeCtlHi_log (s : State) (c : ChanIdx) (b : Byte) : (s.writeCtlHi c b).log = s.log := by
  unfold State.writeCtlHi; split <;> simp
@[simp] theorem State.writeCtlHi_budget (s : State) (c : ChanIdx) (b : Byte) : (s.writeCtlHi c b).budget = s.budget := by
  unfold State.writeCtlHi; split <;> simp
@[simp] theorem State.writeCtlHi_bus (s : State) (c : ChanIdx) (b : Byte) : (s.writeCtlHi c b).bus = s.bus := by
  unfold State.writeCtlHi; split <;> simp
@[simp] theorem State.writeCtlHi_port (s : State) (c : ChanIdx) (b : Byte) : (s.writeCtlHi c b).port = s.port := by
  unfold State.writeCtlHi; split <;> simp
@[simp] theorem State.writeCtlHi_resetReq (s : State) (c : ChanIdx) (b : Byte) : (s.writeCtlHi c b).resetReq = s.resetReq := by
  unfold State.writeCtlHi; split <;> simp
@[simp] theorem State.writeCtlHi_freeCount (s : State) (c : ChanIdx) (b : Byte) : (s.writeCtlHi c b).freeCount = s.freeCount := by
  unfold State.writeCtlHi; split <;> simp

@[simp] theorem State.regWrite_cfg (s : State) (c : ChanIdx) (off : Nat) (b : Byte) : (s.regWrite c off b).cfg = s.cfg := by
  unfold State.regWrite; (repeat' split) <;> simp
@[simp] theorem State.regWrite_mem (s : State) (c : ChanIdx) (off : Nat) (b : Byte) : (s.regWrite c off b).mem = s.mem := by
  unfold State.regWrite; (repeat' split) <;> simp
@[simp] theorem State.regWrite_irqFlags (s : State) (c : ChanIdx) (off : Nat) (b : Byte) : (s.regWrite c off b).irqFlags = s.irqFlags := by
  unfold State.regWrite; (repeat' split) <;> simp
@[simp] theorem State.regWrite_log (s : State) (c : ChanIdx) (off : Nat) (b : Byte) : (s.regWrite c off b).log = s.log := by
  unfold State.regWrite; (repeat' split) <;> simp
@[simp] theorem State.regWrite_budget (s : State) (c : ChanIdx) (off : Nat) (b : Byte) : (s.regWrite c off b).budget = s.budget := by
  unfold State.regWrite; (repeat' split) <;> simp
@[simp] theorem State.regWrite_bus (s : State) (c : ChanIdx) (off : Nat) (b : Byte) : (s.regWrite c off b).bus = s.bus := by
  unfold State.regWrite; (repeat' split) <;> simp
@[simp] theorem State.regWrite_port (s : State) (c : ChanIdx) (off : Nat) (b : Byte) : (s.regWrite c off b).port = s.port := by
  unfold State.regWrite; (repeat' split) <;> simp
@[simp] theorem State.regWrite_resetReq (s : State) (c : ChanIdx) (off : Nat) (b : Byte) : (s.regWrite c off b).resetReq = s.resetReq := by
  unfold State.regWrite; (repeat' split) <;> simp
@[simp] theorem State.regWrite_freeCount (s : State) (c : ChanIdx) (off : Nat) (b : Byte) : (s.regWrite c off b).freeCount = s.freeCount := by
  unfold State.regWrite; (repeat' split) <;> simp

@[simp] theorem State.documentedTrigger_chans (s : State) (m : ChanSet) : (s.documentedTrigger m).chans = s.chans := by
  unfold State.documentedTrigger; split <;> simp
@[simp] theorem State.documentedTrigger_hblankMask (s : State) (m : ChanSet) : (s.documentedTrigger m).hblankMask = s.hblankMask := by
  unfold State.documentedTrigger; split <;> simp
@[simp] theorem State.documentedTrigger_vblankMask (s : State) (m : ChanSet) : (s.documentedTrigger m).vblankMask = s.vblankMask := by
  unfold State.documentedTrigger; split <;> simp
@[simp] theorem State.documentedTrigger_cfg (s : State) (m : ChanSet) : (s.documentedTrigger m).cfg = s.cfg := by
  unfold State.documentedTrigger; split <;> simp
@[simp] theorem State.documentedTrigger_mem (s : State) (m : ChanSet) : (s.documentedTrigger m).mem = s.mem := by
  unfold State.documentedTrigger; split <;> simp
@[simp] theorem State.documentedTrigger_irqFlags (s : State) (m : ChanSet) : (s.documentedTrigger m).irqFlags = s.irqFlags := by
  unfold State.documentedTrigger; split <;> simp
@[simp] theorem State.documentedTrigger_log (s : State) (m : ChanSet) : (s.documentedTrigger m).log = s.log := by
  unfold State.documentedTrigger; split <;> simp
@[simp] theorem State.documentedTrigger_budget (s : State) (m : ChanSet) : (s.documentedTrigger m).budget = s.budget := by
  unfold State.documentedTrigger; split <;> simp
@[simp] theorem State.documentedTrigger_bus (s : State) (m : ChanSet) : (s.documentedTrigger m).bus = s.bus := by
  unfold State.documentedTrigger; split <;> simp
@[simp] theorem State.documentedTrigger_port (s : State) (m : ChanSet) : (s.documentedTrigger m).port = s.port := by
  unfold State.documentedTrigger; split <;> simp
@[simp] theorem State.documentedTrigger_resetReq (s : State) (m : ChanSet) : (s.documentedTrigger m).resetReq = s.resetReq := by
  unfold State.documentedTrigger; split <;> simp
@[simp] theorem State.documentedTrigger_freeCount (s : State) (m : ChanSet) : (s.documentedTrigger m).freeCount = s.freeCount := by
  unfold State.documentedTrigger; split <;> simp
@[simp] theorem State.documentedTrigger_chan (s : State) (m : ChanSet) (d : ChanIdx) : (s.documentedTrigger m).chan d = s.chan d := State.chan_congr (State.documentedTrigger_chans s m) d

@[simp] theorem State.scanOne_chans (s : State) (m : TimingMode) (c : ChanIdx) : (s.scanOne m c).chans = s.chans := by
  unfold State.scanOne; split <;> simp
@[simp] theorem State.scanOne_hblankMask (s : State) (m : TimingMode) (c : ChanIdx) : (s.scanOne m c).hblankMask = s.hblankMask := by
  unfold State.scanOne; split <;> simp
@[simp] theorem State.scanOne_vblankMask (s : State) (m : TimingMode) (c : ChanIdx) : (s.scanOne m c).vblankMask = s.vblankMask := by
  unfold State.scanOne; split <;> simp
@[simp] theorem State.scanOne_cfg (s : State) (m : TimingMode) (c : ChanIdx) : (s.scanOne m c).cfg = s.cfg := by
  unfold State.scanOne; split <;> simp
@[simp] theorem State.scanOne_mem (s : State) (m : TimingMode) (c : ChanIdx) : (s.scanOne m c).mem = s.mem := by
  unfold State.scanOne; split <;> simp
@[simp] theorem State.scanOne_irqFlags (s : State) (m : TimingMode) (c : ChanIdx) : (s.scanOne m c).irqFlags = s.irqFlags := by
  unfold State.scanOne; split <;> simp
@[simp] theorem State.scanOne_log (s : State) (m : TimingMode) (c : ChanIdx) : (s.scanOne m c).log = s.log := by
  unfold State.scanOne; split <;> simp
@[simp] theorem State.scanOne_budget (s : State) (m : TimingMode) (c : ChanIdx) : (s.scanOne m c).budget = s.budget := by
  unfold State.scanOne; split <;> simp
@[simp] theorem State.scanOne_bus (s : State) (m : TimingMode) (c : ChanIdx) : (s.scanOne m c).bus = s.bus := by
  unfold State.scanOne; split <;> simp
@[simp] theorem State.scanOne_port (s : State) (m : TimingMode) (c : ChanIdx) : (s.scanOne m c).port = s.port := by
  unfold State.scanOne; split <;> simp
@[simp] theorem State.scanOne_resetReq (s : State) (m : TimingMode) (c : ChanIdx) : (s.scanOne m c).resetReq = s.resetReq := by
  unfold State.scanOne; split <;> simp
@[simp] theorem State.scanOne_freeCount (s : State) (m : TimingMode) (c : ChanIdx) : (s.scanOne m c).freeCount = s.freeCount := by
  unfold State.scanOne; split <;> simp
@[simp] theorem State.scanOne_chan (s : State) (m : TimingMode) (c : ChanIdx) (d : ChanIdx) : (s.scanOne m c).chan d = s.chan d := State.chan_congr (State.scanOne_chans s m c) d

@[simp] theorem State.scanTrigger_chans (s : State) (m : TimingMode) : (s.scanTrigger m).chans = s.chans := by
  simp [State.scanTrigger]
@[simp] theorem State.scanTrigger_hblankMask (s : State) (m : TimingMode) : (s.scanTrigger m).hblankMask = s.hblankMask := by
  simp [State.scanTrigger]
@[simp] theorem State.scanTrigger_vblankMask (s : State) (m : TimingMode) : (s.scanTrigger m).vblankMask = s.vblankMask := by
  simp [State.scanTrigger]
@[simp] theorem State.scanTrigger_cfg (s : State) (m : TimingMode) : (s.scanTrigger m).cfg = s.cfg := by
  simp [State.scanTrigger]
@[simp] theorem State.scanTrigger_mem (s : State) (m : TimingMode) : (s.scanTrigger m).mem = s.mem := by
  simp [State.scanTrigger]
@[simp] theorem State.scanTrigger_irqFlags (s : State) (m : TimingMode) : (s.scanTrigger m).irqFlags = s.irqFlags := by
  simp [State.scanTrigger]
@[simp] theorem State.scanTrigger_log (s : State) (m : TimingMode) : (s.scanTrigger m).log = s.log := by
  simp [State.scanTrigger]
@[simp] theorem State.scanTrigger_budget (s : State) (m : TimingMode) : (s.scanTrigger m).budget = s.budget := by
  simp [State.scanTrigger]
@[simp] theorem State.scanTrigger_bus (s : State) (m : TimingMode) : (s.scanTrigger m).bus = s.bus := by
  simp [State.scanTrigger]
@[simp] theorem State.scanTrigger_port (s : State) (m : TimingMode) : (s.scanTrigger m).port = s.port := by
  simp [State.scanTrigger]
@[simp] theorem State.scanTrigger_resetReq (s : State) (m : TimingMode) : (s.scanTrigger m).resetReq = s.resetReq := by
  simp [State.scanTrigger]
@[simp] theorem State.scanTrigger_freeCount (s : State) (m : TimingMode) : (s.scanTrigger m).freeCount = s.freeCount := by
  simp [State.scanTrigger]
@[simp] theorem State.scanTrigger_chan (s : State) (m : TimingMode) (d : ChanIdx) : (s.scanTrigger m).chan d = s.chan d := State.chan_congr (State.scanTrigger_chans s m) d

@[simp] theorem State.hblankTrigger_chans (s : State) : (s.hblankTrigger).chans = s.chans := by
  unfold State.hblankTrigger; split <;> simp
@[simp] theorem State.hblankTrigger_hblankMask (s : State) : (s.hblankTrigger).hblankMask = s.hblankMask := by
  unfold State.hblankTrigger; split <;> simp
@[simp] theorem State.hblankTrigger_vblankMask (s : State) : (s.hblankTrigger).vblankMask = s.vblankMask := by
  unfold State.hblankTrigger; split <;> simp
@[simp] theorem State.hblankTrigger_cfg (s : State) : (s.hblankTrigger).cfg = s.cfg := by
  unfold State.hblankTrigger; split <;> simp
@[simp] theorem State.hblankTrigger_mem (s : State) : (s.hblankTrigger).mem = s.mem := by
  unfold State.hblankTrigger; split <;> simp
@[simp] theorem State.hblankTrigger_irqFlags (s : State) : (s.hblankTrigger).irqFlags = s.irqFlags := by
  unfold State.hblankTrigger; split <;> simp
@[simp] theorem State.hblankTrigger_log (s : State) : (s.hblankTrigger).log = s.log := by
  unfold State.hblankTrigger; split <;> simp
@[simp] theorem State.hblankTrigger_budget (s : State) : (s.hblankTrigger).budget = s.budget := by
  unfold State.hblankTrigger; split <;> simp
@[simp] theorem State.hblankTrigger_bus (s : State) : (s.hblankTrigger).bus = s.bus := by
  unfold State.hblankTrigger; split <;> simp
@[simp] theorem State.hblankTrigger_port (s : State) : (s.hblankTrigger).port = s.port := by
  unfold State.hblankTrigger; split <;> simp
@[simp] theorem State.hblankTrigger_resetReq (s : State) : (s.hblankTrigger).resetReq = s.resetReq := by
  unfold State.hblankTrigger; split <;> simp
@[simp] theorem State.hblankTrigger_freeCount (s : State) : (s.hblankTrigger).freeCount = s.freeCount := by
  unfold State.hblankTrigger; split <;> simp
@[simp] theorem State.hblankTrigger_chan (s : State) (d : ChanIdx) : (s.hblankTrigger).chan d = s.chan d := State.chan_congr (State.hblankTrigger_chans s) d

@[simp] theorem State.vblankTrigger_chans (s : State) : (s.vblankTrigger).chans = s.chans := by
  unfold State.vblankTrigger; split <;> simp
@[simp] theorem State.vblankTrigger_hblankMask (s : State) : (s.vblankTrigger).hblankMask = s.hblankMask := by
  unfold State.vblankTrigger; split <;> simp
@[simp] theorem State.vblankTrigger_vblankMask (s : State) : (s.vblankTrigger).vblankMask = s.vblankMask := by
  unfold State.vblankTrigger; split <;> simp
@[simp] theorem State.vblankTrigger_cfg (s : State) : (s.vblankTrigger).cfg = s.cfg := by
  unfold State.vblankTrigger; split <;> simp
@[simp] theorem State.vblankTrigger_mem (s : State) : (s.vblankTrigger).mem = s.mem := by
  unfold State.vblankTrigger; split <;> simp
@[simp] theorem State.vblankTrigger_irqFlags (s : State) : (s.vblankTrigger).irqFlags = s.irqFlags := by
  unfold State.vblankTrigger; split <;> simp
@[simp] theorem State.vblankTrigger_log (s : State) : (s.vblankTrigger).log = s.log := by
  unfold State.vblankTrigger; split <;> simp
@[simp] theorem State.vblankTrigger_budget (s : State) : (s.vblankTrigger).budget = s.budget := by
  unfold State.vblankTrigger; split <;> simp
@[simp] theorem State.vblankTrigger_bus (s : State) : (s.vblankTrigger).bus = s.bus := by
  unfold State.vblankTrigger; split <;> simp
@[simp] theorem State.vblankTrigger_port (s : State) : (s.vblankTrigger).port = s.port := by
  unfold State.vblankTrigger; split <;> simp
@[simp] theorem State.vblankTrigger_resetReq (s : State) : (s.vblankTrigger).resetReq = s.resetReq := by
  unfold State.vblankTrigger; split <;> simp
@[simp] theorem State.vblankTrigger_freeCount (s : State) : (s.vblankTrigger).freeCount = s.freeCount := by
  unfold State.vblankTrigger; split <;> simp
@[simp] theorem State.vblankTrigger_chan (s : State) (d : ChanIdx) : (s.vblankTrigger).chan d = s.chan d := State.chan_congr (State.vblankTrigger_chans s) d

@[simp] theorem State.fifoRequest_chans (s : State) (f : FifoChan) : (s.fifoRequest f).chans = s.chans := State.markRunnable_chans s f.idx
@[simp] theorem State.fifoRequest_hblankMask (s : State) (f : FifoChan) : (s.fifoRequest f).hblankMask = s.hblankMask := State.markRunnable_hblankMask s f.idx
@[simp] theorem State.fifoRequest_vblankMask (s : State) (f : FifoChan) : (s.fifoRequest f).vblankMask = s.vblankMask := State.markRunnable_vblankMask s f.idx
@[simp] theorem State.fifoRequest_cfg (s : State) (f : FifoChan) : (s.fifoRequest f).cfg = s.cfg := State.markRunnable_cfg s f.idx
@[simp] theorem State.fifoRequest_mem (s : State) (f : FifoChan) : (s.fifoRequest f).mem = s.mem := State.markRunnable_mem s f.idx
@[simp] theorem State.fifoRequest_irqFlags (s : State) (f : FifoChan) : (s.fifoRequest f).irqFlags = s.irqFlags := State.markRunnable_irqFlags s f.idx
@[simp] theorem State.fifoRequest_log (s : State) (f : FifoChan) : (s.fifoRequest f).log = s.log := State.markRunnable_log s f.idx
@[simp] theorem State.fifoRequest_budget (s : State) (f : FifoChan) : (s.fifoRequest f).budget = s.budget := State.markRunnable_budget s f.idx
@[simp] theorem State.fifoRequest_bus (s : State) (f : FifoChan) : (s.fifoRequest f).bus = s.bus := State.markRunnable_bus s f.idx
@[simp] theorem State.fifoRequest_port (s : State) (f : FifoChan) : (s.fifoRequest f).port = s.port := State.markRunnable_port s f.idx
@[simp] theorem State.fifoRequest_resetReq (s : State) (f : FifoChan) : (s.fifoRequest f).resetReq = s.resetReq := State.markRunnable_resetReq s f.idx
@[simp] theorem State.fifoRequest_freeCount (s : State) (f : FifoChan) : (s.fifoRequest f).freeCount = s.freeCount := State.markRunnable_freeCount s f.idx
@[simp] theorem State.fifoRequest_chan (s : State) (f : FifoChan) (d : ChanIdx) : (s.fifoRequest f).chan d = s.chan d := State.chan_congr (State.fifoRequest_chans s f) d

@[simp] theorem State.raiseCompletion_chans (s : State) (c : ChanIdx) : (s.raiseCompletion c).chans = s.chans := by
  unfold State.raiseCompletion; split <;> simp
@[simp] theorem State.raiseCompletion_hblankMask (s : State) (c : ChanIdx) : (s.raiseCompletion c).hblankMask = s.hblankMask := by
  unfold State.raiseCompletion; split <;> simp
@[simp] theorem State.raiseCompletion_vblankMask (s : State) (c : ChanIdx) : (s.raiseCompletion c).vblankMask = s.vblankMask := by
  unfold State.raiseCompletion; split <;> simp
@[simp] theorem State.raiseCompletion_runSet (s : State) (c : ChanIdx) : (s.raiseCompletion c).runSet = s.runSet := by
  unfold State.raiseCompletion; split <;> simp
@[simp] theorem State.raiseCompletion_current (s : State) (c : ChanIdx) : (s.raiseCompletion c).current = s.current := by
  unfold State.raiseCompletion; split <;> simp
@[simp] theorem State.raiseCompletion_interleaved (s : State) (c : ChanIdx) : (s.raiseCompletion c).interleaved = s.interleaved := by
  unfold State.raiseCompletion; split <;> simp
@[simp] theorem State.raiseCompletion_cfg (s : State) (c : ChanIdx) : (s.raiseCompletion c).cfg = s.cfg := by
  unfold State.raiseCompletion; split <;> simp
@[simp] theorem State.raiseCompletion_mem (s : State) (c : ChanIdx) : (s.raiseCompletion c).mem = s.mem := by
  unfold State.raiseCompletion; split <;> simp
@[simp] theorem State.raiseCompletion_budget (s : State) (c : ChanIdx) : (s.raiseCompletion c).budget = s.budget := by
  unfold State.raiseCompletion; split <;> simp
@[simp] theorem State.raiseCompletion_bus (s : State) (c : ChanIdx) : (s.raiseCompletion c).bus = s.bus := by
  unfold State.raiseCompletion; split <;> simp
@[simp] theorem State.raiseCompletion_port (s : State) (c : ChanIdx) : (s.raiseCompletion c).port = s.port := by
  unfold State.raiseCompletion; split <;> simp
@[simp] theorem State.raiseCompletion_resetReq (s : State) (c : ChanIdx) : (s.raiseCompletion c).resetReq = s.resetReq := by
  unfold State.raiseCompletion; split <;> simp
@[simp] theorem State.raiseCompletion_freeCount (s : State) (c : ChanIdx) : (s.raiseCompletion c).freeCount = s.freeCount := by
  unfold State.raiseCompletion; split <;> simp
@[simp] theorem State.raiseCompletion_chan (s : State) (c : ChanIdx) (d : ChanIdx) : (s.raiseCompletion c).chan d = s.chan d := State.chan_congr (State.raiseCompletion_chans s c) d

@[simp] theorem State.reloadDst_hblankMask (s : State) (c : ChanIdx) : (s.reloadDst c).hblankMask = s.hblankMask := by
  unfold State.reloadDst; split <;> simp
@[simp] theorem State.reloadDst_vblankMask (s : State) (c : ChanIdx) : (s.reloadDst c).vblankMask = s.vblankMask := by
  unfold State.reloadDst; split <;> simp
@[simp] theorem State.reloadDst_runSet (s : State) (c : ChanIdx) : (s.reloadDst c).runSet = s.runSet := by
  unfold State.reloadDst; split <;> simp
@[simp] theorem State.reloadDst_current (s : State) (c : ChanIdx) : (s.reloadDst c).current = s.current := by
  unfold State.reloadDst; split <;> simp
@[simp] theorem State.reloadDst_interleaved (s : State) (c : ChanIdx) : (s.reloadDst c).interleaved = s.interleaved := by
  unfold State.reloadDst; split <;> simp
@[simp] theorem State.reloadDst_cfg (s : State) (c : ChanIdx) : (s.reloadDst c).cfg = s.cfg := by
  unfold State.reloadDst; split <;> simp
@[simp] theorem State.reloadDst_mem (s : State) (c : ChanIdx) : (s.reloadDst c).mem = s.mem := by
  unfold State.reloadDst; split <;> simp
@[simp] theorem State.reloadDst_irqFlags (s : State) (c : ChanIdx) : (s.reloadDst c).irqFlags = s.irqFlags := by
  unfold State.reloadDst; split <;> simp
@[simp] theorem State.reloadDst_log (s : State) (c : ChanIdx) : (s.reloadDst c).log = s.log := by
  unfold State.reloadDst; split <;> simp
@[simp] theorem State.reloadDst_budget (s : State) (c : ChanIdx) : (s.reloadDst c).budget = s.budget := by
  unfold State.reloadDst; split <;> simp
@[simp] theorem State.reloadDst_bus (s : State) (c : ChanIdx) : (s.reloadDst c).bus = s.bus := by
  unfold State.reloadDst; split <;> simp
@[simp] theorem State.reloadDst_port (s : State) (c : ChanIdx) : (s.reloadDst c).port = s.port := by
  unfold State.reloadDst; split <;> simp
@[simp] theorem State.reloadDst_resetReq (s : State) (c : ChanIdx) : (s.reloadDst c).resetReq = s.resetReq := by
  unfold State.reloadDst; split <;> simp
@[simp] theorem State.reloadDst_freeCount (s : State) (c : ChanIdx) : (s.reloadDst c).freeCount = s.freeCount := by
  unfold State.reloadDst; split <;> simp

@[simp] theorem State.reload_hblankMask (s : State) (c : ChanIdx) : (s.reload c).hblankMask = s.hblankMask := by
  simp [State.reload]
@[simp] theorem State.reload_vblankMask (s : State) (c : ChanIdx) : (s.reload c).vblankMask = s.vblankMask := by
  simp [State.reload]
@[simp] theorem State.reload_runSet (s : State) (c : ChanIdx) : (s.reload c).runSet = s.runSet := by
  simp [State.reload]
@[simp] theorem State.reload_current (s : State) (c : ChanIdx) : (s.reload c).current = s.current := by
  simp [State.reload]
@[simp] theorem State.reload_interleaved (s : State) (c : ChanIdx) : (s.reload c).interleaved = s.interleaved := by
  simp [State.reload]
@[simp] theorem State.reload_cfg (s : State) (c : ChanIdx) : (s.reload c).cfg = s.cfg := by
  simp [State.reload]
@[simp] theorem State.reload_mem (s : State) (c : ChanIdx) : (s.reload c).mem = s.mem := by
  simp [State.reload]
@[simp] theorem State.reload_irqFlags (s : State) (c : ChanIdx) : (s.reload c).irqFlags = s.irqFlags := by
  simp [State.reload]
@[simp] theorem State.reload_log (s : State) (c : ChanIdx) : (s.reload c).log = s.log := by
  simp [State.reload]
@[simp] theorem State.reload_budget (s : State) (c : ChanIdx) : (s.reload c).budget = s.budget := by
  simp [State.reload]
@[simp] theorem State.reload_bus (s : State) (c : ChanIdx) : (s.reload c).bus = s.bus := by
  simp [State.reload]
@[simp] theorem State.reload_port (s : State) (c : ChanIdx) : (s.reload c).port = s.port := by
  simp [State.reload]
@[simp] theorem State.reload_resetReq (s : State) (c : ChanIdx) : (s.reload c).resetReq = s.resetReq := by
  simp [State.reload]
@[simp] theorem State.reload_freeCount (s : State) (c : ChanIdx) : (s.reload c).freeCount = s.freeCount := by
  simp [State.reload]

@[simp] theorem State.rearm_hblankMask (s : State) (c : ChanIdx) : (s.rearm c).hblankMask = s.hblankMask := by
  unfold State.rearm; split <;> simp
@[simp] theorem State.rearm_vblankMask (s : State) (c : ChanIdx) : (s.rearm c).vblankMask = s.vblankMask := by
  unfold State.rearm; split <;> simp
@[simp] theorem State.rearm_current (s : State) (c : ChanIdx) : (s.rearm c).current = s.current := by
  unfold State.rearm; split <;> simp
@[simp] theorem State.rearm_interleaved (s : State) (c : ChanIdx) : (s.rearm c).interleaved = s.interleaved := by
  unfold State.rearm; split <;> simp
@[simp] theorem State.rearm_cfg (s : State) (c : ChanIdx) : (s.rearm c).cfg = s.cfg := by
  unfold State.rearm; split <;> simp
@[simp] theorem State.rearm_mem (s : State) (c : ChanIdx) : (s.rearm c).mem = s.mem := by
  unfold State.rearm; split <;> simp
@[simp] theorem State.rearm_irqFlags (s : State) (c : ChanIdx) : (s.rearm c).irqFlags = s.irqFlags := by
  unfold State.rearm; split <;> simp
@[simp] theorem State.rearm_log (s : State) (c : ChanIdx) : (s.rearm c).log = s.log := by
  unfold State.rearm; split <;> simp
@[simp] theorem State.rearm_budget (s : State) (c : ChanIdx) : (s.rearm c).budget = s.budget := by
  unfold State.rearm; split <;> simp
@[simp] theorem State.rearm_bus (s : State) (c : ChanIdx) : (s.rearm c).bus = s.bus := by
  unfold State.rearm; split <;> simp
@[simp] theorem State.rearm_port (s : State) (c : ChanIdx) : (s.rearm c).port = s.port := by
  unfold State.rearm; split <;> simp
@[simp] theorem State.rearm_resetReq (s : State) (c : ChanIdx) : (s.rearm c).resetReq = s.resetReq := by
  unfold State.rearm; split <;> simp
@[simp] theorem State.rearm_freeCount (s : State) (c : ChanIdx) : (s.rearm c).freeCount = s.freeCount := by
  unfold State.rearm; split <;> simp

@[simp] theorem State.settle_hblankMask (s : State) (c : ChanIdx) : (s.settle c).hblankMask = s.hblankMask := by
  unfold State.settle; split <;> simp
@[simp] theorem State.settle_vblankMask (s : State) (c : ChanIdx) : (s.settle c).vblankMask = s.vblankMask := by
  unfold State.settle; split <;> simp
@[simp] theorem State.settle_current (s : State) (c : ChanIdx) : (s.settle c).current = s.current := by
  unfold State.settle; split <;> simp
@[simp] theorem State.settle_interleaved (s : State) (c : ChanIdx) : (s.settle c).interleaved = s.interleaved := by
  unfold State.settle; split <;> simp
@[simp] theorem State.settle_cfg (s : State) (c : ChanIdx) : (s.settle c).cfg = s.cfg := by
  unfold State.settle; split <;> simp
@[simp] theorem State.settle_mem (s : State) (c : ChanIdx) : (s.settle c).mem = s.mem := by
  unfold State.settle; split <;> simp
@[simp] theorem State.settle_irqFlags (s : State) (c : ChanIdx) : (s.settle c).irqFlags = s.irqFlags := by
  unfold State.settle; split <;> simp
@[simp] theorem State.settle_log (s : State) (c : ChanIdx) : (s.settle c).log = s.log := by
  unfold State.settle; split <;> simp
@[simp] theorem State.settle_budget (s : State) (c : ChanIdx) : (s.settle c).budget = s.budget := by
  unfold State.settle; split <;> simp
@[simp] theorem State.settle_bus (s : State) (c : ChanIdx) : (s.settle c).bus = s.bus := by
  unfold State.settle; split <;> simp
@[simp] theorem State.settle_port (s : State) (c : ChanIdx) : (s.settle c).port = s.port := by
  unfold State.settle; split <;> simp
@[simp] theorem State.settle_resetReq (s : State) (c : ChanIdx) : (s.settle c).resetReq = s.resetReq := by
  unfold State.settle; split <;> simp
@[simp] theorem State.settle_freeCount (s : State) (c : ChanIdx) : (s.settle c).freeCount = s.freeCount := by
  unfold State.settle; split <;> simp

@[simp] theorem State.complete_hblankMask (s : State) (c : ChanIdx) : (s.complete c).hblankMask = s.hblankMask := by
  simp [State.complete]
@[simp] theorem State.complete_vblankMask (s : State) (c : ChanIdx) : (s.complete c).vblankMask = s.vblankMask := by
  simp [State.complete]
@[simp] theorem State.complete_interleaved (s : State) (c : ChanIdx) : (s.complete c).interleaved = s.interleaved := by
  simp [State.complete]
@[simp] theorem State.complete_cfg (s : State) (c : ChanIdx) : (s.complete c).cfg = s.cfg := by
  simp [State.complete]
@[simp] theorem State.complete_mem (s : State) (c : ChanIdx) : (s.complete c).mem = s.mem := by
  simp [State.complete]
@[simp] theorem State.complete_budget (s : State) (c : ChanIdx) : (s.complete c).budget = s.budget := by
  simp [State.complete]
@[simp] theorem State.complete_bus (s : State) (c : ChanIdx) : (s.complete c).bus = s.bus := by
  simp [State.complete]
@[simp] theorem State.complete_port (s : State) (c : ChanIdx) : (s.complete c).port = s.port := by
  simp [State.complete]
@[simp] theorem State.complete_resetReq (s : State) (c : ChanIdx) : (s.complete c).resetReq = s.resetReq := by
  simp [State.complete]
@[simp] theorem State.complete_freeCount (s : State) (c : ChanIdx) : (s.complete c).freeCount = s.freeCount := by
  simp [State.complete]

end Sys2Proof.Machine
end

