-- ==== Sys2Proof/Laws/Arbiter.lean ====
section
/-! SUPPORT. Bitsets of channels, `lowest?`, `markRunnable` and `reselect`: what each can do, said once. -/

namespace Sys2Proof.Machine

@[simp] theorem member_zero (c : ChanIdx) : member 0#4 c = false := by
  fin_cases c <;> rfl

@[simp] theorem member_insertChan (S : ChanSet) (c d : ChanIdx) :
    member (insertChan S c) d = (member S d || decide (d = c)) := by
  revert S; fin_cases c <;> fin_cases d <;> decide

@[simp] theorem member_removeChan (S : ChanSet) (c d : ChanIdx) :
    member (removeChan S c) d = (member S d && decide (d ≠ c)) := by
  revert S; fin_cases c <;> fin_cases d <;> decide

theorem member_assignChan (S : ChanSet) (c d : ChanIdx) (b : Bool) :
    member (assignChan S c b) d = if d = c then b else member S d := by
  cases b <;> by_cases h : d = c <;> simp [assignChan, h]

theorem eq_of_member {S T : ChanSet} (h : ∀ c, member S c = member T c) : S = T := by
  have h0 := h 0; have h1 := h 1; have h2 := h 2; have h3 := h 3
  revert S T; decide

theorem ne_zero_of_member {S : ChanSet} {c : ChanIdx} (h : member S c = true) : S ≠ 0 := by
  rintro rfl; simp at h

@[simp] theorem insertChan_ne_zero (S : ChanSet) (c : ChanIdx) : insertChan S c ≠ 0#4 :=
  ne_zero_of_member (c := c) (by simp)

theorem insertChan_eq_self {S : ChanSet} {c : ChanIdx} (h : member S c = true) : insertChan S c = S :=
  eq_of_member fun d => by
    by_cases hd : d = c
    · subst hd; simp [h]
    · simp [hd]

/-- `lowest?` finds nothing exactly in the empty set. -/
theorem lowest?_eq_none {S : ChanSet} : lowest? S = none ↔ S = 0 := by
  revert S; decide

/-- What `lowest?` finds is a member with no member below it. -/
theorem lowest?_spec {S : ChanSet} {c : ChanIdx} :
    lowest? S = some c ↔ member S c = true ∧ ∀ d, d < c → member S d = false := by
  revert S c; decide

theorem exists_lowest {S : ChanSet} (h : S ≠ 0) : ∃ c, lowest? S = some c := by
  cases hl : lowest? S with
  | none => exact absurd (lowest?_eq_none.mp hl) h
  | some c => exact ⟨c, rfl⟩

/-- Everything `markRunnable` can do (R101). -/
theorem State.markRunnable_cases (s : State) (id : ChanIdx) :
    (s.runSet = 0 ∧ s.markRunnable id = { s with runSet := insertChan s.runSet id, current := id })
    ∨ (s.runSet ≠ 0 ∧ id < s.current
        ∧ s.markRunnable id = { s with runSet := insertChan s.runSet id, current := id, interleaved := true })
    ∨ (s.runSet ≠ 0 ∧ s.current ≤ id ∧ s.markRunnable id = { s with runSet := insertChan s.runSet id }) := by
  unfold State.markRunnable
  by_cases h0 : s.runSet = 0
  · exact .inl ⟨h0, if_pos h0⟩
  · rw [if_neg h0]
    by_cases h : id < s.current
    · exact .inr (.inl ⟨h0, h, if_pos h⟩)
    · exact .inr (.inr ⟨h0, Fin.not_lt.mp h, if_neg h⟩)

@[simp] theorem State.markRunnable_runSet (s : State) (id : ChanIdx) :
    (s.markRunnable id).runSet = insertChan s.runSet id := by
  rcases s.markRunnable_cases id with ⟨-, h⟩ | ⟨-, -, h⟩ | ⟨-, -, h⟩ <;> rw [h]

/-- Marking a channel that is runnable already, when no runnable channel is below `current`, changes nothing (R102). -/
theorem State.markRunnable_of_member {s : State} {id : ChanIdx} (h : member s.runSet id = true)
    (hc : s.current ≤ id) : s.markRunnable id = s := by
  rcases s.markRunnable_cases id with ⟨h0, -⟩ | ⟨-, h1, -⟩ | ⟨-, -, h2⟩
  · exact absurd h0 (ne_zero_of_member h)
  · exact absurd h1 (Fin.not_lt.mpr hc)
  · rw [h2, insertChan_eq_self h]

/-- `markRunnable` keeps `current` the lowest runnable channel (R28). -/
theorem State.markRunnable_lowest {s : State} (hs : s.CurrentIsLowest) (id : ChanIdx) :
    (s.markRunnable id).CurrentIsLowest := by
  intro _
  rcases s.markRunnable_cases id with ⟨h0, h⟩ | ⟨h0, h1, h⟩ | ⟨h0, h1, h⟩ <;> rw [h] <;> rw [lowest?_spec]
  · exact ⟨by simp, fun d hd => by simpa [h0] using ne_of_lt hd⟩
  · have := lowest?_spec.mp (hs h0)
    exact ⟨by simp, fun d hd => by simp [this.2 d (lt_trans hd h1), ne_of_lt hd]⟩
  · have := lowest?_spec.mp (hs h0)
    exact ⟨by simp [this.1], fun d hd => by simp [this.2 d hd, ne_of_lt (lt_of_lt_of_le hd h1)]⟩

/-- After `reselect`, `current` is the lowest runnable channel (R126). -/
theorem State.reselect_lowest (s : State) : s.reselect.CurrentIsLowest := by
  intro h
  unfold State.reselect at h ⊢
  cases hl : lowest? s.runSet with
  | none => rw [hl] at h; exact absurd (lowest?_eq_none.mp hl) h
  | some c => simpa using hl

theorem State.reselect_of_empty {s : State} (h : s.runSet = 0) : s.reselect = s := by
  unfold State.reselect; rw [lowest?_eq_none.mpr h]

/-- A state with the scheduling fields of one that satisfies R28 satisfies it. -/
theorem State.CurrentIsLowest.congr {s t : State} (hs : s.CurrentIsLowest) (hr : t.runSet = s.runSet)
    (hc : t.current = s.current) : t.CurrentIsLowest := by
  intro h; rw [hr] at h ⊢; rw [hc]; exact hs h

end Sys2Proof.Machine
end

