-- ==== Sys2Proof/Laws/Bus.lean ====
section
/-! SUPPORT. What operations delivered at a bus access, bus accesses and the engine leave alone. -/

namespace Sys2Proof.Machine

@[simp] theorem State.perform_cfg (s : State) (k : Call) : (s.perform k).cfg = s.cfg := by
  cases k <;> simp [State.perform]
@[simp] theorem State.perform_mem (s : State) (k : Call) : (s.perform k).mem = s.mem := by
  cases k <;> simp [State.perform]
@[simp] theorem State.perform_irqFlags (s : State) (k : Call) : (s.perform k).irqFlags = s.irqFlags := by
  cases k <;> simp [State.perform]
@[simp] theorem State.perform_budget (s : State) (k : Call) : (s.perform k).budget = s.budget := by
  cases k <;> simp [State.perform]
@[simp] theorem State.perform_bus (s : State) (k : Call) : (s.perform k).bus = s.bus := by
  cases k <;> simp [State.perform]
@[simp] theorem State.perform_port (s : State) (k : Call) : (s.perform k).port = s.port := by
  cases k <;> simp [State.perform]
@[simp] theorem State.perform_resetReq (s : State) (k : Call) : (s.perform k).resetReq = s.resetReq := by
  cases k <;> simp [State.perform]
@[simp] theorem State.perform_freeCount (s : State) (k : Call) : (s.perform k).freeCount = s.freeCount := by
  cases k <;> simp [State.perform]

@[simp] theorem State.performAll_cfg (s : State) (ks : List Call) : (s.performAll ks).cfg = s.cfg := by
  induction ks generalizing s with
  | nil => rfl
  | cons k ks ih => exact (ih (s.perform k)).trans (State.perform_cfg s k)
@[simp] theorem State.performAll_mem (s : State) (ks : List Call) : (s.performAll ks).mem = s.mem := by
  induction ks generalizing s with
  | nil => rfl
  | cons k ks ih => exact (ih (s.perform k)).trans (State.perform_mem s k)
@[simp] theorem State.performAll_irqFlags (s : State) (ks : List Call) : (s.performAll ks).irqFlags = s.irqFlags := by
  induction ks generalizing s with
  | nil => rfl
  | cons k ks ih => exact (ih (s.perform k)).trans (State.perform_irqFlags s k)
@[simp] theorem State.performAll_budget (s : State) (ks : List Call) : (s.performAll ks).budget = s.budget := by
  induction ks generalizing s with
  | nil => rfl
  | cons k ks ih => exact (ih (s.perform k)).trans (State.perform_budget s k)
@[simp] theorem State.performAll_bus (s : State) (ks : List Call) : (s.performAll ks).bus = s.bus := by
  induction ks generalizing s with
  | nil => rfl
  | cons k ks ih => exact (ih (s.perform k)).trans (State.perform_bus s k)
@[simp] theorem State.performAll_port (s : State) (ks : List Call) : (s.performAll ks).port = s.port := by
  induction ks generalizing s with
  | nil => rfl
  | cons k ks ih => exact (ih (s.perform k)).trans (State.perform_port s k)
@[simp] theorem State.performAll_resetReq (s : State) (ks : List Call) : (s.performAll ks).resetReq = s.resetReq := by
  induction ks generalizing s with
  | nil => rfl
  | cons k ks ih => exact (ih (s.perform k)).trans (State.perform_resetReq s k)
@[simp] theorem State.performAll_freeCount (s : State) (ks : List Call) : (s.performAll ks).freeCount = s.freeCount := by
  induction ks generalizing s with
  | nil => rfl
  | cons k ks ih => exact (ih (s.perform k)).trans (State.perform_freeCount s k)

@[simp] theorem State.performAll_nil (s : State) : s.performAll [] = s := rfl

@[simp] theorem State.performAll_cons (s : State) (k : Call) (ks : List Call) :
    s.performAll (k :: ks) = (s.perform k).performAll ks := rfl

@[simp] theorem State.storeMemByte_chans (s : State) (a : Word) (b : Byte) : (s.storeMemByte a b).chans = s.chans := by
  unfold State.storeMemByte; split <;> simp
@[simp] theorem State.storeMemByte_hblankMask (s : State) (a : Word) (b : Byte) : (s.storeMemByte a b).hblankMask = s.hblankMask := by
  unfold State.storeMemByte; split <;> simp
@[simp] theorem State.storeMemByte_vblankMask (s : State) (a : Word) (b : Byte) : (s.storeMemByte a b).vblankMask = s.vblankMask := by
  unfold State.storeMemByte; split <;> simp
@[simp] theorem State.storeMemByte_runSet (s : State) (a : Word) (b : Byte) : (s.storeMemByte a b).runSet = s.runSet := by
  unfold State.storeMemByte; split <;> simp
@[simp] theorem State.storeMemByte_current (s : State) (a : Word) (b : Byte) : (s.storeMemByte a b).current = s.current := by
  unfold State.storeMemByte; split <;> simp
@[simp] theorem State.storeMemByte_interleaved (s : State) (a : Word) (b : Byte) : (s.storeMemByte a b).interleaved = s.interleaved := by
  unfold State.storeMemByte; split <;> simp
@[simp] theorem State.storeMemByte_cfg (s : State) (a : Word) (b : Byte) : (s.storeMemByte a b).cfg = s.cfg := by
  unfold State.storeMemByte; split <;> simp
@[simp] theorem State.storeMemByte_irqFlags (s : State) (a : Word) (b : Byte) : (s.storeMemByte a b).irqFlags = s.irqFlags := by
  unfold State.storeMemByte; split <;> simp
@[simp] theorem State.storeMemByte_log (s : State) (a : Word) (b : Byte) : (s.storeMemByte a b).log = s.log := by
  unfold State.storeMemByte; split <;> simp
@[simp] theorem State.storeMemByte_budget (s : State) (a : Word) (b : Byte) : (s.storeMemByte a b).budget = s.budget := by
  unfold State.storeMemByte; split <;> simp
@[simp] theorem State.storeMemByte_bus (s : State) (a : Word) (b : Byte) : (s.storeMemByte a b).bus = s.bus := by
  unfold State.storeMemByte; split <;> simp
@[simp] theorem State.storeMemByte_port (s : State) (a : Word) (b : Byte) : (s.storeMemByte a b).port = s.port := by
  unfold State.storeMemByte; split <;> simp
@[simp] theorem State.storeMemByte_resetReq (s : State) (a : Word) (b : Byte) : (s.storeMemByte a b).resetReq = s.resetReq := by
  unfold State.storeMemByte; split <;> simp
@[simp] theorem State.storeMemByte_freeCount (s : State) (a : Word) (b : Byte) : (s.storeMemByte a b).freeCount = s.freeCount := by
  unfold State.storeMemByte; split <;> simp
@[simp] theorem State.storeMemByte_chan (s : State) (a : Word) (b : Byte) (d : ChanIdx) : (s.storeMemByte a b).chan d = s.chan d := State.chan_congr (State.storeMemByte_chans s a b) d

@[simp] theorem State.storeMemBytes_chans (s : State) (a : Word) (bs : List Byte) : (s.storeMemBytes a bs).chans = s.chans := by
  induction bs generalizing s a with
  | nil => rfl
  | cons b bs ih => exact (ih (s.storeMemByte a b) (a + 1)).trans (State.storeMemByte_chans s a b)
@[simp] theorem State.storeMemBytes_hblankMask (s : State) (a : Word) (bs : List Byte) : (s.storeMemBytes a bs).hblankMask = s.hblankMask := by
  induction bs generalizing s a with
  | nil => rfl
  | cons b bs ih => exact (ih (s.storeMemByte a b) (a + 1)).trans (State.storeMemByte_hblankMask s a b)
@[simp] theorem State.storeMemBytes_vblankMask (s : State) (a : Word) (bs : List Byte) : (s.storeMemBytes a bs).vblankMask = s.vblankMask := by
  induction bs generalizing s a with
  | nil => rfl
  | cons b bs ih => exact (ih (s.storeMemByte a b) (a + 1)).trans (State.storeMemByte_vblankMask s a b)
@[simp] theorem State.storeMemBytes_runSet (s : State) (a : Word) (bs : List Byte) : (s.storeMemBytes a bs).runSet = s.runSet := by
  induction bs generalizing s a with
  | nil => rfl
  | cons b bs ih => exact (ih (s.storeMemByte a b) (a + 1)).trans (State.storeMemByte_runSet s a b)
@[simp] theorem State.storeMemBytes_current (s : State) (a : Word) (bs : List Byte) : (s.storeMemBytes a bs).current = s.current := by
  induction bs generalizing s a with
  | nil => rfl
  | cons b bs ih => exact (ih (s.storeMemByte a b) (a + 1)).trans (State.storeMemByte_current s a b)
@[simp] theorem State.storeMemBytes_interleaved (s : State) (a : Word) (bs : List Byte) : (s.storeMemBytes a bs).interleaved = s.interleaved := by
  induction bs generalizing s a with
  | nil => rfl
  | cons b bs ih => exact (ih (s.storeMemByte a b) (a + 1)).trans (State.storeMemByte_interleaved s a b)
@[simp] theorem State.storeMemBytes_cfg (s : State) (a : Word) (bs : List Byte) : (s.storeMemBytes a bs).cfg = s.cfg := by
  induction bs generalizing s a with
  | nil => rfl
  | cons b bs ih => exact (ih (s.storeMemByte a b) (a + 1)).trans (State.storeMemByte_cfg s a b)
@[simp] theorem State.storeMemBytes_irqFlags (s : State) (a : Word) (bs : List Byte) : (s.storeMemBytes a bs).irqFlags = s.irqFlags := by
  induction bs generalizing s a with
  | nil => rfl
  | cons b bs ih => exact (ih (s.storeMemByte a b) (a + 1)).trans (State.storeMemByte_irqFlags s a b)
@[simp] theorem State.storeMemBytes_log (s : State) (a : Word) (bs : List Byte) : (s.storeMemBytes a bs).log = s.log := by
  induction bs generalizing s a with
  | nil => rfl
  | cons b bs ih => exact (ih (s.storeMemByte a b) (a + 1)).trans (State.storeMemByte_log s a b)
@[simp] theorem State.storeMemBytes_budget (s : State) (a : Word) (bs : List Byte) : (s.storeMemBytes a bs).budget = s.budget := by
  induction bs generalizing s a with
  | nil => rfl
  | cons b bs ih => exact (ih (s.storeMemByte a b) (a + 1)).trans (State.storeMemByte_budget s a b)
@[simp] theorem State.storeMemBytes_bus (s : State) (a : Word) (bs : List Byte) : (s.storeMemBytes a bs).bus = s.bus := by
  induction bs generalizing s a with
  | nil => rfl
  | cons b bs ih => exact (ih (s.storeMemByte a b) (a + 1)).trans (State.storeMemByte_bus s a b)
@[simp] theorem State.storeMemBytes_port (s : State) (a : Word) (bs : List Byte) : (s.storeMemBytes a bs).port = s.port := by
  induction bs generalizing s a with
  | nil => rfl
  | cons b bs ih => exact (ih (s.storeMemByte a b) (a + 1)).trans (State.storeMemByte_port s a b)
@[simp] theorem State.storeMemBytes_resetReq (s : State) (a : Word) (bs : List Byte) : (s.storeMemBytes a bs).resetReq = s.resetReq := by
  induction bs generalizing s a with
  | nil => rfl
  | cons b bs ih => exact (ih (s.storeMemByte a b) (a + 1)).trans (State.storeMemByte_resetReq s a b)
@[simp] theorem State.storeMemBytes_freeCount (s : State) (a : Word) (bs : List Byte) : (s.storeMemBytes a bs).freeCount = s.freeCount := by
  induction bs generalizing s a with
  | nil => rfl
  | cons b bs ih => exact (ih (s.storeMemByte a b) (a + 1)).trans (State.storeMemByte_freeCount s a b)

@[simp] theorem State.storeRegByte_cfg (s : State) (a : Word) (b : Byte) : (s.storeRegByte a b).cfg = s.cfg := by
  unfold State.storeRegByte; split <;> simp
@[simp] theorem State.storeRegByte_mem (s : State) (a : Word) (b : Byte) : (s.storeRegByte a b).mem = s.mem := by
  unfold State.storeRegByte; split <;> simp
@[simp] theorem State.storeRegByte_irqFlags (s : State) (a : Word) (b : Byte) : (s.storeRegByte a b).irqFlags = s.irqFlags := by
  unfold State.storeRegByte; split <;> simp
@[simp] theorem State.storeRegByte_log (s : State) (a : Word) (b : Byte) : (s.storeRegByte a b).log = s.log := by
  unfold State.storeRegByte; split <;> simp
@[simp] theorem State.storeRegByte_budget (s : State) (a : Word) (b : Byte) : (s.storeRegByte a b).budget = s.budget := by
  unfold State.storeRegByte; split <;> simp
@[simp] theorem State.storeRegByte_bus (s : State) (a : Word) (b : Byte) : (s.storeRegByte a b).bus = s.bus := by
  unfold State.storeRegByte; split <;> simp
@[simp] theorem State.storeRegByte_port (s : State) (a : Word) (b : Byte) : (s.storeRegByte a b).port = s.port := by
  unfold State.storeRegByte; split <;> simp
@[simp] theorem State.storeRegByte_resetReq (s : State) (a : Word) (b : Byte) : (s.storeRegByte a b).resetReq = s.resetReq := by
  unfold State.storeRegByte; split <;> simp
@[simp] theorem State.storeRegByte_freeCount (s : State) (a : Word) (b : Byte) : (s.storeRegByte a b).freeCount = s.freeCount := by
  unfold State.storeRegByte; split <;> simp

@[simp] theorem State.storeRegBytes_cfg (s : State) (a : Word) (bs : List Byte) (ks : List Nat) : (s.storeRegBytes a bs ks).cfg = s.cfg := by
  induction ks generalizing s with
  | nil => rfl
  | cons k ks ih => exact (ih (s.storeRegByte (byteAddr a k) (bs.getD k 0))).trans (State.storeRegByte_cfg _ _ _)
@[simp] theorem State.storeRegBytes_mem (s : State) (a : Word) (bs : List Byte) (ks : List Nat) : (s.storeRegBytes a bs ks).mem = s.mem := by
  induction ks generalizing s with
  | nil => rfl
  | cons k ks ih => exact (ih (s.storeRegByte (byteAddr a k) (bs.getD k 0))).trans (State.storeRegByte_mem _ _ _)
@[simp] theorem State.storeRegBytes_irqFlags (s : State) (a : Word) (bs : List Byte) (ks : List Nat) : (s.storeRegBytes a bs ks).irqFlags = s.irqFlags := by
  induction ks generalizing s with
  | nil => rfl
  | cons k ks ih => exact (ih (s.storeRegByte (byteAddr a k) (bs.getD k 0))).trans (State.storeRegByte_irqFlags _ _ _)
@[simp] theorem State.storeRegBytes_log (s : State) (a : Word) (bs : List Byte) (ks : List Nat) : (s.storeRegBytes a bs ks).log = s.log := by
  induction ks generalizing s with
  | nil => rfl
  | cons k ks ih => exact (ih (s.storeRegByte (byteAddr a k) (bs.getD k 0))).trans (State.storeRegByte_log _ _ _)
@[simp] theorem State.storeRegBytes_budget (s : State) (a : Word) (bs : List Byte) (ks : List Nat) : (s.storeRegBytes a bs ks).budget = s.budget := by
  induction ks generalizing s with
  | nil => rfl
  | cons k ks ih => exact (ih (s.storeRegByte (byteAddr a k) (bs.getD k 0))).trans (State.storeRegByte_budget _ _ _)
@[simp] theorem State.storeRegBytes_bus (s : State) (a : Word) (bs : List Byte) (ks : List Nat) : (s.storeRegBytes a bs ks).bus = s.bus := by
  induction ks generalizing s with
  | nil => rfl
  | cons k ks ih => exact (ih (s.storeRegByte (byteAddr a k) (bs.getD k 0))).trans (State.storeRegByte_bus _ _ _)
@[simp] theorem State.storeRegBytes_port (s : State) (a : Word) (bs : List Byte) (ks : List Nat) : (s.storeRegBytes a bs ks).port = s.port := by
  induction ks generalizing s with
  | nil => rfl
  | cons k ks ih => exact (ih (s.storeRegByte (byteAddr a k) (bs.getD k 0))).trans (State.storeRegByte_port _ _ _)
@[simp] theorem State.storeRegBytes_resetReq (s : State) (a : Word) (bs : List Byte) (ks : List Nat) : (s.storeRegBytes a bs ks).resetReq = s.resetReq := by
  induction ks generalizing s with
  | nil => rfl
  | cons k ks ih => exact (ih (s.storeRegByte (byteAddr a k) (bs.getD k 0))).trans (State.storeRegByte_resetReq _ _ _)
@[simp] theorem State.storeRegBytes_freeCount (s : State) (a : Word) (bs : List Byte) (ks : List Nat) : (s.storeRegBytes a bs ks).freeCount = s.freeCount := by
  induction ks generalizing s with
  | nil => rfl
  | cons k ks ih => exact (ih (s.storeRegByte (byteAddr a k) (bs.getD k 0))).trans (State.storeRegByte_freeCount _ _ _)

@[simp] theorem State.storeUnit_cfg (s : State) (a : Word) (v : UnitVal) : (s.storeUnit a v).cfg = s.cfg := by
  simp [State.storeUnit]
@[simp] theorem State.storeUnit_irqFlags (s : State) (a : Word) (v : UnitVal) : (s.storeUnit a v).irqFlags = s.irqFlags := by
  simp [State.storeUnit]
@[simp] theorem State.storeUnit_log (s : State) (a : Word) (v : UnitVal) : (s.storeUnit a v).log = s.log := by
  simp [State.storeUnit]
@[simp] theorem State.storeUnit_budget (s : State) (a : Word) (v : UnitVal) : (s.storeUnit a v).budget = s.budget := by
  simp [State.storeUnit]
@[simp] theorem State.storeUnit_bus (s : State) (a : Word) (v : UnitVal) : (s.storeUnit a v).bus = s.bus := by
  simp [State.storeUnit]
@[simp] theorem State.storeUnit_port (s : State) (a : Word) (v : UnitVal) : (s.storeUnit a v).port = s.port := by
  simp [State.storeUnit]
@[simp] theorem State.storeUnit_resetReq (s : State) (a : Word) (v : UnitVal) : (s.storeUnit a v).resetReq = s.resetReq := by
  simp [State.storeUnit]
@[simp] theorem State.storeUnit_freeCount (s : State) (a : Word) (v : UnitVal) : (s.storeUnit a v).freeCount = s.freeCount := by
  simp [State.storeUnit]

@[simp] theorem State.writeEffect_cfg (s : State) (a : Word) (v : UnitVal) (t : BusTurn) : (s.writeEffect a v t).cfg = s.cfg := by
  unfold State.writeEffect; (repeat' split) <;> simp
@[simp] theorem State.writeEffect_irqFlags (s : State) (a : Word) (v : UnitVal) (t : BusTurn) : (s.writeEffect a v t).irqFlags = s.irqFlags := by
  unfold State.writeEffect; (repeat' split) <;> simp
@[simp] theorem State.writeEffect_log (s : State) (a : Word) (v : UnitVal) (t : BusTurn) : (s.writeEffect a v t).log = s.log := by
  unfold State.writeEffect; (repeat' split) <;> simp
@[simp] theorem State.writeEffect_budget (s : State) (a : Word) (v : UnitVal) (t : BusTurn) : (s.writeEffect a v t).budget = s.budget := by
  unfold State.writeEffect; (repeat' split) <;> simp
@[simp] theorem State.writeEffect_bus (s : State) (a : Word) (v : UnitVal) (t : BusTurn) : (s.writeEffect a v t).bus = s.bus := by
  unfold State.writeEffect; (repeat' split) <;> simp
@[simp] theorem State.writeEffect_port (s : State) (a : Word) (v : UnitVal) (t : BusTurn) : (s.writeEffect a v t).port = s.port := by
  unfold State.writeEffect; (repeat' split) <;> simp
@[simp] theorem State.writeEffect_resetReq (s : State) (a : Word) (v : UnitVal) (t : BusTurn) : (s.writeEffect a v t).resetReq = s.resetReq := by
  unfold State.writeEffect; (repeat' split) <;> simp

@[simp] theorem State.readAccess_chans (s : State) (u : UnitSize) (a : Word) : (s.readAccess u a).chans = s.chans := by
  unfold State.readAccess; split <;> rfl
@[simp] theorem State.readAccess_hblankMask (s : State) (u : UnitSize) (a : Word) : (s.readAccess u a).hblankMask = s.hblankMask := by
  unfold State.readAccess; split <;> rfl
@[simp] theorem State.readAccess_vblankMask (s : State) (u : UnitSize) (a : Word) : (s.readAccess u a).vblankMask = s.vblankMask := by
  unfold State.readAccess; split <;> rfl
@[simp] theorem State.readAccess_runSet (s : State) (u : UnitSize) (a : Word) : (s.readAccess u a).runSet = s.runSet := by
  unfold State.readAccess; split <;> rfl
@[simp] theorem State.readAccess_current (s : State) (u : UnitSize) (a : Word) : (s.readAccess u a).current = s.current := by
  unfold State.readAccess; split <;> rfl
@[simp] theorem State.readAccess_interleaved (s : State) (u : UnitSize) (a : Word) : (s.readAccess u a).interleaved = s.interleaved := by
  unfold State.readAccess; split <;> rfl
@[simp] theorem State.readAccess_cfg (s : State) (u : UnitSize) (a : Word) : (s.readAccess u a).cfg = s.cfg := by
  unfold State.readAccess; split <;> rfl
@[simp] theorem State.readAccess_mem (s : State) (u : UnitSize) (a : Word) : (s.readAccess u a).mem = s.mem := by
  unfold State.readAccess; split <;> rfl
@[simp] theorem State.readAccess_irqFlags (s : State) (u : UnitSize) (a : Word) : (s.readAccess u a).irqFlags = s.irqFlags := by
  unfold State.readAccess; split <;> rfl
@[simp] theorem State.readAccess_budget (s : State) (u : UnitSize) (a : Word) : (s.readAccess u a).budget = s.budget := by
  unfold State.readAccess; split <;> rfl
@[simp] theorem State.readAccess_port (s : State) (u : UnitSize) (a : Word) : (s.readAccess u a).port = s.port := by
  unfold State.readAccess; split <;> rfl
@[simp] theorem State.readAccess_resetReq (s : State) (u : UnitSize) (a : Word) : (s.readAccess u a).resetReq = s.resetReq := by
  unfold State.readAccess; split <;> rfl
@[simp] theorem State.readAccess_chan (s : State) (u : UnitSize) (a : Word) (d : ChanIdx) : (s.readAccess u a).chan d = s.chan d := State.chan_congr (State.readAccess_chans s u a) d

@[simp] theorem State.busRead_cfg (s : State) (u : UnitSize) (a : Word) : (s.busRead u a).2.cfg = s.cfg := by
  simp [State.busRead]
@[simp] theorem State.busRead_mem (s : State) (u : UnitSize) (a : Word) : (s.busRead u a).2.mem = s.mem := by
  simp [State.busRead]
@[simp] theorem State.busRead_irqFlags (s : State) (u : UnitSize) (a : Word) : (s.busRead u a).2.irqFlags = s.irqFlags := by
  simp [State.busRead]
@[simp] theorem State.busRead_budget (s : State) (u : UnitSize) (a : Word) : (s.busRead u a).2.budget = s.budget := by
  simp [State.busRead]
@[simp] theorem State.busRead_port (s : State) (u : UnitSize) (a : Word) : (s.busRead u a).2.port = s.port := by
  simp [State.busRead]
@[simp] theorem State.busRead_resetReq (s : State) (u : UnitSize) (a : Word) : (s.busRead u a).2.resetReq = s.resetReq := by
  simp [State.busRead]

@[simp] theorem State.writeAccess_cfg (s : State) (a : Word) (v : UnitVal) : (s.writeAccess a v).cfg = s.cfg := by
  simp [State.writeAccess]
@[simp] theorem State.writeAccess_irqFlags (s : State) (a : Word) (v : UnitVal) : (s.writeAccess a v).irqFlags = s.irqFlags := by
  simp [State.writeAccess]
@[simp] theorem State.writeAccess_budget (s : State) (a : Word) (v : UnitVal) : (s.writeAccess a v).budget = s.budget := by
  simp [State.writeAccess]
@[simp] theorem State.writeAccess_port (s : State) (a : Word) (v : UnitVal) : (s.writeAccess a v).port = s.port := by
  simp [State.writeAccess]
@[simp] theorem State.writeAccess_resetReq (s : State) (a : Word) (v : UnitVal) : (s.writeAccess a v).resetReq = s.resetReq := by
  simp [State.writeAccess]

@[simp] theorem State.busWrite_cfg (s : State) (a : Word) (v : UnitVal) : (s.busWrite a v).cfg = s.cfg := by
  simp [State.busWrite]
@[simp] theorem State.busWrite_irqFlags (s : State) (a : Word) (v : UnitVal) : (s.busWrite a v).irqFlags = s.irqFlags := by
  simp [State.busWrite]
@[simp] theorem State.busWrite_budget (s : State) (a : Word) (v : UnitVal) : (s.busWrite a v).budget = s.budget := by
  simp [State.busWrite]
@[simp] theorem State.busWrite_port (s : State) (a : Word) (v : UnitVal) : (s.busWrite a v).port = s.port := by
  simp [State.busWrite]
@[simp] theorem State.busWrite_resetReq (s : State) (a : Word) (v : UnitVal) : (s.busWrite a v).resetReq = s.resetReq := by
  simp [State.busWrite]

@[simp] theorem State.transferUnit_cfg (s : State) (c : ChanIdx) (u : UnitSize) (dSrc dDst : Int) : (s.transferUnit c u dSrc dDst).cfg = s.cfg := by
  simp [State.transferUnit]
@[simp] theorem State.transferUnit_irqFlags (s : State) (c : ChanIdx) (u : UnitSize) (dSrc dDst : Int) : (s.transferUnit c u dSrc dDst).irqFlags = s.irqFlags := by
  simp [State.transferUnit]
@[simp] theorem State.transferUnit_budget (s : State) (c : ChanIdx) (u : UnitSize) (dSrc dDst : Int) : (s.transferUnit c u dSrc dDst).budget = s.budget := by
  simp [State.transferUnit]
@[simp] theorem State.transferUnit_port (s : State) (c : ChanIdx) (u : UnitSize) (dSrc dDst : Int) : (s.transferUnit c u dSrc dDst).port = s.port := by
  simp [State.transferUnit]
@[simp] theorem State.transferUnit_resetReq (s : State) (c : ChanIdx) (u : UnitSize) (dSrc dDst : Int) : (s.transferUnit c u dSrc dDst).resetReq = s.resetReq := by
  simp [State.transferUnit]

@[simp] theorem State.runLoop_cfg (ch : ChanIdx) (u : UnitSize) (dSrc dDst : Int) (ds : List Int) (s : State) :
    (State.runLoop ch u dSrc dDst ds s).cfg = s.cfg := by
  induction ds generalizing s with
  | nil => unfold State.runLoop; split <;> simp
  | cons d ds ih => unfold State.runLoop; (repeat' split) <;> simp [ih]

@[simp] theorem State.runEngine_cfg (s : State) : s.runEngine.cfg = s.cfg := State.runLoop_cfg _ _ _ _ _ _

@[simp] theorem State.runLoop_port (ch : ChanIdx) (u : UnitSize) (dSrc dDst : Int) (ds : List Int) (s : State) :
    (State.runLoop ch u dSrc dDst ds s).port = s.port := by
  induction ds generalizing s with
  | nil => unfold State.runLoop; split <;> simp
  | cons d ds ih => unfold State.runLoop; (repeat' split) <;> simp [ih]

@[simp] theorem State.runEngine_port (s : State) : s.runEngine.port = s.port := State.runLoop_port _ _ _ _ _ _

@[simp] theorem State.runLoop_resetReq (ch : ChanIdx) (u : UnitSize) (dSrc dDst : Int) (ds : List Int) (s : State) :
    (State.runLoop ch u dSrc dDst ds s).resetReq = s.resetReq := by
  induction ds generalizing s with
  | nil => unfold State.runLoop; split <;> simp
  | cons d ds ih => unfold State.runLoop; (repeat' split) <;> simp [ih]

@[simp] theorem State.runEngine_resetReq (s : State) : s.runEngine.resetReq = s.resetReq := State.runLoop_resetReq _ _ _ _ _ _

end Sys2Proof.Machine
end

