-- ==== Sys2Proof/Laws/Memory.lean ====
section
/-! SUPPORT. Bus memory: a byte reads as last written, a write leaves every other byte alone, and every write keeps the
canonical form. -/

namespace Sys2Proof.Machine

theorem Memory.wfAbove_mono {m : List Host.Cell} {l l' : Nat} (h : l' ≤ l) (hm : Memory.wfAbove (some l) m = true) :
    Memory.wfAbove (some l') m = true := by
  cases m with
  | nil => rfl
  | cons c rest =>
    obtain ⟨k, v⟩ := c
    simp only [Memory.wfAbove, Bool.and_eq_true, decide_eq_true_eq] at hm ⊢
    exact ⟨⟨⟨by omega, hm.1.1.2⟩, hm.1.2⟩, hm.2⟩

theorem Memory.read_of_lt {m : List Host.Cell} {l a : Nat} (hm : Memory.wfAbove (some l) m = true) (h : a ≤ l) :
    Memory.read m a = unwrittenByte := by
  induction m generalizing l with
  | nil => rfl
  | cons c rest ih =>
    obtain ⟨k, v⟩ := c
    simp only [Memory.wfAbove, Bool.and_eq_true, decide_eq_true_eq] at hm
    rw [Memory.read, if_neg (by omega)]
    exact ih hm.2 (by omega)

/-- A write leaves every other address alone, canonical or not. -/
theorem Memory.read_write_ne (m : List Host.Cell) {a b : Nat} (v : Byte) (h : b ≠ a) :
    Memory.read (Memory.write m a v) b = Memory.read m b := by
  induction m with
  | nil => unfold Memory.write; split <;> simp [Memory.read, Ne.symm h]
  | cons c rest ih =>
    obtain ⟨k, w⟩ := c
    unfold Memory.write
    split
    · split <;> simp [Memory.read, Ne.symm h]
    · split
      · subst_vars; split <;> simp [Memory.read, Ne.symm h]
      · simp [Memory.read, ih]

/-- In the canonical form an address reads as last written. -/
theorem Memory.read_write_same {m : List Host.Cell} {lo : Option Nat} (hm : Memory.wfAbove lo m = true) (a : Nat)
    (v : Byte) : Memory.read (Memory.write m a v) a = v := by
  induction m generalizing lo with
  | nil => unfold Memory.write; split <;> simp_all [Memory.read]
  | cons c rest ih =>
    obtain ⟨k, w⟩ := c
    have hr : Memory.wfAbove (some k) rest = true := by
      simp only [Memory.wfAbove, Bool.and_eq_true] at hm; exact hm.2
    unfold Memory.write
    split
    · rename_i hlt
      split
      · rename_i hv
        rw [Memory.read, if_neg (by omega), Memory.read_of_lt hr (by omega), hv]
      · simp [Memory.read]
    · split
      · rename_i heq
        subst heq
        split
        · rename_i hv; rw [Memory.read_of_lt hr (le_refl _), hv]
        · simp [Memory.read]
      · rename_i hne
        rw [Memory.read, if_neg (Ne.symm hne), ih hr]

theorem Memory.wfAbove_write {m : List Host.Cell} {lo : Option Nat} (hm : Memory.wfAbove lo m = true) {a : Nat}
    (ha : a < 4294967296) (hlo : ∀ l, lo = some l → l < a) (v : Byte) :
    Memory.wfAbove lo (Memory.write m a v) = true := by
  induction m generalizing lo with
  | nil =>
    unfold Memory.write
    split
    · exact hm
    · rename_i hv
      cases lo with
      | none => simp [Memory.wfAbove, hv, ha]
      | some l => simp [Memory.wfAbove, hv, ha, hlo l rfl]
  | cons c rest ih =>
    obtain ⟨k, w⟩ := c
    have hm' := hm
    simp only [Memory.wfAbove, Bool.and_eq_true, decide_eq_true_eq] at hm
    unfold Memory.write
    split
    · rename_i hlt
      split
      · exact hm'
      · rename_i hv
        cases lo with
        | none => simp [Memory.wfAbove, hv, ha, hlt, hm.1.1.2, hm.1.2, hm.2]
        | some l => simp [Memory.wfAbove, hv, ha, hlt, hm.1.1.2, hm.1.2, hm.2, hlo l rfl]
    · split
      · rename_i heq
        subst heq
        split
        · cases lo with
          | none =>
            cases rest with
            | nil => rfl
            | cons c' rest' =>
              have := hm.2
              simp only [Memory.wfAbove, Bool.and_eq_true, decide_eq_true_eq] at this ⊢
              exact ⟨⟨⟨trivial, this.1.1.2⟩, this.1.2⟩, this.2⟩
          | some l => exact Memory.wfAbove_mono (le_of_lt (hlo l rfl)) hm.2
        · rename_i hv
          cases lo with
          | none => simp [Memory.wfAbove, hv, ha, hm.2]
          | some l => simp [Memory.wfAbove, hv, ha, hm.2, hlo l rfl]
      · rename_i hge hne
        have h2 := ih hm.2 (fun l hl => by cases hl; omega)
        cases lo with
        | none => simp [Memory.wfAbove, hm.1.1.2, hm.1.2, h2]
        | some l =>
          have := hm.1.1.1
          simp only at this
          simp [Memory.wfAbove, hm.1.1.2, hm.1.2, h2]
          simpa using this

/-- Writing one byte of the address space keeps the canonical form. -/
theorem Memory.wf_write {m : List Host.Cell} (hm : Memory.wf m = true) {a : Nat} (ha : a < 4294967296) (v : Byte) :
    Memory.wf (Memory.write m a v) = true :=
  Memory.wfAbove_write hm ha (fun _ h => by cases h) v

/-- So does any list of changes. -/
theorem Memory.wf_apply {m : List Host.Cell} (hm : Memory.wf m = true) (cells : List Host.Cell) :
    Memory.wf (Memory.apply m cells) = true := by
  induction cells generalizing m with
  | nil => exact hm
  | cons c rest ih => exact ih (Memory.wf_write hm (Nat.mod_lt _ (by decide)) c.2)

/-- Equal canonical memories are equal data: two canonical lists that read alike are the same list. -/
theorem Memory.eq_of_read {m n : List Host.Cell} {lo : Option Nat} (hm : Memory.wfAbove lo m = true)
    (hn : Memory.wfAbove lo n = true) (h : ∀ a, Memory.read m a = Memory.read n a) : m = n := by
  induction m generalizing n lo with
  | nil =>
    cases n with
    | nil => rfl
    | cons c rest =>
      obtain ⟨k, v⟩ := c
      have hv := h k
      simp only [Memory.wfAbove, Bool.and_eq_true, decide_eq_true_eq] at hn
      simp only [Memory.read, if_pos] at hv
      exact absurd hv.symm hn.1.1.2
  | cons c rest ih =>
    obtain ⟨k, v⟩ := c
    have hm' := hm
    simp only [Memory.wfAbove, Bool.and_eq_true, decide_eq_true_eq] at hm
    cases n with
    | nil =>
      have hv := h k
      simp only [Memory.read, if_pos] at hv
      exact absurd hv hm.1.1.2
    | cons c' rest' =>
      obtain ⟨k', v'⟩ := c'
      have hn' := hn
      simp only [Memory.wfAbove, Bool.and_eq_true, decide_eq_true_eq] at hn
      have hk : k = k' := by
        rcases lt_trichotomy k k' with hlt | heq | hgt
        · have := h k
          rw [Memory.read, if_pos rfl, Memory.read, if_neg (by omega), Memory.read_of_lt hn.2 (by omega)] at this
          exact absurd this hm.1.1.2
        · exact heq
        · have := h k'
          rw [Memory.read, if_neg (by omega), Memory.read_of_lt hm.2 (by omega), Memory.read, if_pos rfl] at this
          exact absurd this.symm hn.1.1.2
      subst hk
      have hv : v = v' := by simpa [Memory.read] using h k
      subst hv
      congr 1
      refine ih hm.2 hn.2 fun a => ?_
      by_cases ha : k = a
      · subst ha; rw [Memory.read_of_lt hm.2 (le_refl _), Memory.read_of_lt hn.2 (le_refl _)]
      · have := h a
        rwa [Memory.read, if_neg ha, Memory.read, if_neg ha] at this

end Sys2Proof.Machine
end

