-- ==== Sys2Proof/Laws/Registers.lean ====
section
/-! SUPPORT. Byte lanes, control bytes, the length at the latch, and what a control-high write can do. -/

namespace Sys2Proof.Machine

/-! ### Lanes and codes -/

theorem getLsbD_mergeWordLane (w : Word) (k : Fin 4) (b : Byte) {j : Nat} (hj : j < 32) :
    (mergeWordLane w k b).getLsbD j = if j / 8 = k.val then b.getLsbD (j % 8) else w.getLsbD j := by
  fin_cases k <;> interval_cases j <;> simp [mergeWordLane]

theorem getLsbD_mergeHalfLane (h : Half) (k : Fin 2) (b : Byte) {j : Nat} (hj : j < 16) :
    (mergeHalfLane h k b).getLsbD j = if j / 8 = k.val then b.getLsbD (j % 8) else h.getLsbD j := by
  fin_cases k <;> interval_cases j <;> simp [mergeHalfLane]

@[simp] theorem DstControl.bit1_ofBits (a b : Bool) : (DstControl.ofBits a b).bit1 = a := by cases a <;> cases b <;> rfl
@[simp] theorem DstControl.bit0_ofBits (a b : Bool) : (DstControl.ofBits a b).bit0 = b := by cases a <;> cases b <;> rfl
@[simp] theorem SrcControl.bit1_ofBits (a b : Bool) : (SrcControl.ofBits a b).bit1 = a := by cases a <;> cases b <;> rfl
@[simp] theorem SrcControl.bit0_ofBits (a b : Bool) : (SrcControl.ofBits a b).bit0 = b := by cases a <;> cases b <;> rfl
@[simp] theorem TimingMode.bit1_ofBits (a b : Bool) : (TimingMode.ofBits a b).bit1 = a := by cases a <;> cases b <;> rfl
@[simp] theorem TimingMode.bit0_ofBits (a b : Bool) : (TimingMode.ofBits a b).bit0 = b := by cases a <;> cases b <;> rfl
@[simp] theorem UnitSize.bit_ofBit (a : Bool) : (UnitSize.ofBit a).bit = a := by cases a <;> rfl

/-! ### Control bytes, bit by bit -/

theorem getLsbD_placeBit (v : Bool) {p j : Nat} (hp : p < 8) (hj : j < 8) :
    (placeBit v p).getLsbD j = (v && decide (j = p)) := by
  interval_cases p <;> interval_cases j <;> cases v <;> decide

theorem Channel.getLsbD_ctlHi (ch : Channel) (l : CtlHiLayout) {j : Nat} (hj : j < 8) :
    (ch.ctlHi l).getLsbD j =
      (((((((ch.enable && decide (j = l.enable) || ch.interruptOnCompletion && decide (j = l.interrupt))
        || ch.timingMode.bit1 && decide (j = l.timing1)) || ch.timingMode.bit0 && decide (j = l.timing0))
        || ch.allowGamepakDrive && decide (j = l.gamepak)) || ch.unitSize.bit && decide (j = l.unitSize))
        || ch.repeats && decide (j = l.repeats)) || ch.srcAddressControl.bit1 && decide (j = l.srcControl1)) := by
  simp only [Channel.ctlHi, BitVec.getLsbD_or, getLsbD_placeBit _ (Fin.isLt _) hj]

/-- In a layout that fills the byte, every bit is some field's. -/
theorem CtlHiLayout.exists_position {l : CtlHiLayout} (h : l.wf = true) (p : Fin 8) : p ∈ l.positions := by
  have hnd : l.positions.Nodup := by simpa [CtlHiLayout.wf] using h
  have h8 : l.positions.toFinset = Finset.univ := by
    apply Finset.eq_univ_of_card
    rw [List.toFinset_card_of_nodup hnd]; rfl
  have := Finset.mem_univ p
  rw [← h8] at this
  simpa using this

/-! ### The latch -/

theorem latchLength_toNat (mask len : Half) :
    (latchLength mask len).toNat = if len &&& mask = 0 then mask.toNat + 1 else (len &&& mask).toNat := by
  have h2 := (len &&& mask).isLt
  have hm := mask.isLt
  have e : len.setWidth 32 &&& mask.setWidth 32 = (len &&& mask).setWidth 32 := by simp
  unfold latchLength
  rw [e]
  have ez : (len &&& mask).setWidth 32 = 0 ↔ len &&& mask = 0 := by
    rw [← BitVec.toNat_inj, ← BitVec.toNat_inj, BitVec.toNat_setWidth, Nat.mod_eq_of_lt (by omega)]
    simp
  by_cases h : len &&& mask = 0
  · rw [if_pos h]
    rw [if_pos (ez.mpr h), BitVec.toNat_add, BitVec.toNat_setWidth, show (1 : Word).toNat = 1 from rfl]
    omega
  · rw [if_neg h]
    rw [if_neg (fun h' => h (ez.mp h')), BitVec.toNat_setWidth]
    omega

theorem and_toNat_le (a b : Half) : (a &&& b).toNat ≤ b.toNat := by
  rw [BitVec.toNat_and]; exact Nat.and_le_right

/-- R25: the latched length is at least 1 and at most the mask + 1. -/
theorem latchLength_bounds (mask len : Half) :
    1 ≤ (latchLength mask len).toNat ∧ (latchLength mask len).toNat ≤ mask.toNat + 1 := by
  rw [latchLength_toNat]
  have := and_toNat_le len mask
  split
  · omega
  · rename_i h
    have : (len &&& mask).toNat ≠ 0 := fun h0 => h (BitVec.eq_of_toNat_eq (by simpa using h0))
    omega

theorem latchLength_ne_zero (mask len : Half) : latchLength mask len ≠ 0 := fun h => by
  have := (latchLength_bounds mask len).1
  rw [h] at this
  simp at this

/-! ### The control-high write (R85 to R89) -/

/-- The written channel holds the stored fields, and internal fields that the latch may have replaced. -/
theorem State.writeCtlHi_chan_same (s : State) (c : ChanIdx) (b : Byte) :
    ∃ x y z, (s.writeCtlHi c b).chan c
      = { (s.chan c).storeCtlHi s.cfg.ctlHi b with internalSrc := x, internalDst := y, internalLength := z } := by
  unfold State.writeCtlHi State.arm
  (repeat' split) <;> simp [State.latch, State.storeCtlHi] <;> exact ⟨_, _, _, rfl⟩

theorem State.writeCtlHi_chan_ne (s : State) {c d : ChanIdx} (b : Byte) (h : d ≠ c) :
    (s.writeCtlHi c b).chan d = s.chan d := by
  unfold State.writeCtlHi State.arm
  (repeat' split) <;> simp [State.latch, State.storeCtlHi, h]

/-- The new `enable` is the byte's bit, so the edge is decided by the old flag and that bit. -/
theorem State.storeCtlHi_enable (s : State) (c : ChanIdx) (b : Byte) :
    ((s.storeCtlHi c b).chan c).enable = b.getLsbD s.cfg.ctlHi.enable := by
  simp [State.storeCtlHi, Channel.storeCtlHi]

/-- With a rising edge the stored state is armed. -/
theorem State.writeCtlHi_rising {s : State} {c : ChanIdx} {b : Byte}
    (h : risingEdge (s.chan c).enable (b.getLsbD s.cfg.ctlHi.enable) = true) :
    s.writeCtlHi c b = (s.storeCtlHi c b).arm c := by
  unfold State.writeCtlHi; rw [State.storeCtlHi_enable, if_pos h]

/-- Without one nothing follows the store. -/
theorem State.writeCtlHi_level {s : State} {c : ChanIdx} {b : Byte}
    (h : risingEdge (s.chan c).enable (b.getLsbD s.cfg.ctlHi.enable) = false) :
    s.writeCtlHi c b = s.storeCtlHi c b := by
  unfold State.writeCtlHi; rw [State.storeCtlHi_enable, if_neg (by rw [h]; decide)]

/-- `markRunnable` sees of a state its schedule only. -/
theorem SameSchedule.markRunnable {s t : State} (h : SameSchedule s t) (c : ChanIdx) :
    SameSchedule (s.markRunnable c) (t.markRunnable c) := by
  obtain ⟨hr, hc, hi⟩ := h
  simp only [SameSchedule, State.markRunnable, hr, hc]
  (repeat' split) <;> simp [hi]

/-- A control-high write keeps R26 for the written channel and every other. -/
theorem State.writeCtlHi_masks (s : State) (c : ChanIdx) (b : Byte) (d : ChanIdx) :
    member (s.writeCtlHi c b).hblankMask d
      = (if d = c then decide (((s.writeCtlHi c b).chan c).timingMode = .hblank) else member s.hblankMask d)
    ∧ member (s.writeCtlHi c b).vblankMask d
      = (if d = c then decide (((s.writeCtlHi c b).chan c).timingMode = .vblank) else member s.vblankMask d) := by
  obtain ⟨x, y, z, h⟩ := s.writeCtlHi_chan_same c b
  rw [h]
  unfold State.writeCtlHi State.arm
  (repeat' split) <;> simp_all [State.storeCtlHi, State.syncBlankMasks, member_assignChan, Channel.storeCtlHi]

end Sys2Proof.Machine
end

