-- ==== Sys2Proof/Laws/Calls.lean ====
section
/-! SUPPORT. What an operation delivered at a bus access can do, said once: it keeps every invariant of the block, shows no
bus access and no interrupt request, and leaves a length that is not zero not zero. Bus accesses inherit it. -/

namespace Sys2Proof.Machine

/-! ### `current` stays the lowest runnable channel (R28) -/

theorem State.arm_lowest {s : State} (h : s.CurrentIsLowest) (c : ChanIdx) : (s.arm c).CurrentIsLowest := by
  have hl : (s.latch c).CurrentIsLowest := h
  unfold State.arm
  split
  · exact State.markRunnable_lowest hl c
  · exact hl

theorem State.writeCtlHi_lowest {s : State} (h : s.CurrentIsLowest) (c : ChanIdx) (b : Byte) :
    (s.writeCtlHi c b).CurrentIsLowest := by
  have hs : (s.storeCtlHi c b).CurrentIsLowest := h
  unfold State.writeCtlHi
  split
  · exact State.arm_lowest hs c
  · exact hs

theorem State.regWrite_lowest {s : State} (h : s.CurrentIsLowest) (c : ChanIdx) (off : Nat) (b : Byte) :
    (s.regWrite c off b).CurrentIsLowest := by
  unfold State.regWrite
  (repeat' split) <;> first | exact h | exact State.writeCtlHi_lowest h c b

theorem State.documentedTrigger_lowest {s : State} (h : s.CurrentIsLowest) (m : ChanSet) :
    (s.documentedTrigger m).CurrentIsLowest := by
  unfold State.documentedTrigger
  split
  · exact State.markRunnable_lowest h _
  · exact h

theorem State.scanOne_lowest {s : State} (h : s.CurrentIsLowest) (m : TimingMode) (c : ChanIdx) :
    (s.scanOne m c).CurrentIsLowest := by
  unfold State.scanOne
  split
  · exact State.markRunnable_lowest h _
  · exact h

theorem State.scanTrigger_lowest {s : State} (h : s.CurrentIsLowest) (m : TimingMode) :
    (s.scanTrigger m).CurrentIsLowest :=
  State.scanOne_lowest (State.scanOne_lowest (State.scanOne_lowest (State.scanOne_lowest h m 0) m 1) m 2) m 3

theorem State.hblankTrigger_lowest {s : State} (h : s.CurrentIsLowest) : s.hblankTrigger.CurrentIsLowest := by
  unfold State.hblankTrigger
  split
  · exact State.documentedTrigger_lowest h _
  · exact State.scanTrigger_lowest h _

theorem State.vblankTrigger_lowest {s : State} (h : s.CurrentIsLowest) : s.vblankTrigger.CurrentIsLowest := by
  unfold State.vblankTrigger
  split
  · exact State.documentedTrigger_lowest h _
  · exact State.scanTrigger_lowest h _

theorem State.perform_lowest {s : State} (h : s.CurrentIsLowest) (k : Call) : (s.perform k).CurrentIsLowest := by
  cases k with
  | write c off b => exact State.regWrite_lowest h c off b
  | read c off => exact h
  | hblank => exact State.hblankTrigger_lowest h
  | vblank => exact State.vblankTrigger_lowest h
  | fifo f => exact State.markRunnable_lowest h _

/-! ### Channels: which fields a call can change -/

theorem State.regWrite_chan_ne (s : State) {c d : ChanIdx} (off : Nat) (b : Byte) (h : d ≠ c) :
    (s.regWrite c off b).chan d = s.chan d := by
  unfold State.regWrite
  (repeat' split) <;>
    simp [State.writeSrcLane, State.writeDstLane, State.writeLenLane, State.writeCtlLo, State.writeCtlHi_chan_ne, h]

/-- A predicate of the internal length that a latch establishes survives every register write. -/
theorem State.regWrite_length {P : ChanIdx → Word → Prop} (s : State)
    (hl : ∀ d, P d (s.chan d).internalLength) (hp : ∀ d len, P d (latchLength (s.cfg.lenMask.get d) len))
    (c : ChanIdx) (off : Nat) (b : Byte) : ∀ d, P d ((s.regWrite c off b).chan d).internalLength := by
  intro d
  by_cases hd : d = c
  · subst hd
    unfold State.regWrite
    split; · simpa [State.writeSrcLane] using hl d
    split; · simpa [State.writeDstLane] using hl d
    split; · simpa [State.writeLenLane] using hl d
    split; · simpa [State.writeCtlLo, Channel.storeCtlLo] using hl d
    split
    · unfold State.writeCtlHi State.arm
      (repeat' split) <;> simp [State.latch, State.storeCtlHi, Channel.storeCtlHi, hl, hp]
    · exact hl d
  · rw [State.regWrite_chan_ne _ _ _ hd]; exact hl d

theorem State.perform_length {P : ChanIdx → Word → Prop} (s : State)
    (hl : ∀ d, P d (s.chan d).internalLength) (hp : ∀ d len, P d (latchLength (s.cfg.lenMask.get d) len)) (k : Call) :
    ∀ d, P d ((s.perform k).chan d).internalLength := by
  cases k with
  | write c off b => exact State.regWrite_length s hl hp c off b
  | read c off => exact hl
  | hblank => intro d; simpa [State.perform] using hl d
  | vblank => intro d; simpa [State.perform] using hl d
  | fifo f => intro d; simpa [State.perform] using hl d

/-- R26 survives a register write. -/
theorem State.regWrite_masks {s : State} (h : s.MasksMatchTiming) (c : ChanIdx) (off : Nat) (b : Byte) :
    (s.regWrite c off b).MasksMatchTiming := by
  have lane : ∀ x : Channel, x.timingMode = (s.chan c).timingMode → (s.setChan c x).MasksMatchTiming := by
    intro x hx d
    by_cases hd : d = c
    · subst hd; simpa [hx] using h d
    · simpa [hd] using h d
  unfold State.regWrite
  split; · exact lane _ rfl
  split; · exact lane _ rfl
  split; · exact lane _ rfl
  split; · exact lane _ rfl
  split
  · intro d
    have hm := s.writeCtlHi_masks c b d
    by_cases hd : d = c
    · subst hd; rw [if_pos rfl, if_pos rfl] at hm; exact hm
    · rw [if_neg hd, if_neg hd] at hm
      rw [State.writeCtlHi_chan_ne _ _ hd]
      exact ⟨hm.1.trans (h d).1, hm.2.trans (h d).2⟩
  · exact h

theorem State.perform_masks {s : State} (h : s.MasksMatchTiming) (k : Call) : (s.perform k).MasksMatchTiming := by
  cases k with
  | write c off b => exact State.regWrite_masks h c off b
  | read c off => exact h
  | hblank => intro d; simpa [State.perform] using h d
  | vblank => intro d; simpa [State.perform] using h d
  | fifo f => intro d; simpa [State.perform] using h d

/-! ### What a call shows -/

@[simp] theorem irqsOf_cons_regRead (c : ChanIdx) (off : Nat) (b : Byte) (es : List Event) :
    irqsOf (.regRead c off b :: es) = irqsOf es := rfl
@[simp] theorem irqsOf_cons_busRead (k : AccessClass) (a : Word) (v : UnitVal) (es : List Event) :
    irqsOf (.busRead k a v :: es) = irqsOf es := rfl
@[simp] theorem irqsOf_cons_busWrite (k : AccessClass) (a : Word) (v : UnitVal) (es : List Event) :
    irqsOf (.busWrite k a v :: es) = irqsOf es := rfl
@[simp] theorem irqsOf_cons_irq (c : ChanIdx) (es : List Event) : irqsOf (.irq c :: es) = c :: irqsOf es := rfl
@[simp] theorem busPorts_cons_regRead (c : ChanIdx) (off : Nat) (b : Byte) (es : List Event) :
    busPorts (.regRead c off b :: es) = busPorts es := rfl
@[simp] theorem busPorts_cons_irq (c : ChanIdx) (es : List Event) : busPorts (.irq c :: es) = busPorts es := rfl
@[simp] theorem busPorts_cons_busRead (k : AccessClass) (a : Word) (v : UnitVal) (es : List Event) :
    busPorts (.busRead k a v :: es) = .reads a :: busPorts es := rfl
@[simp] theorem busPorts_cons_busWrite (k : AccessClass) (a : Word) (v : UnitVal) (es : List Event) :
    busPorts (.busWrite k a v :: es) = .writes a :: busPorts es := rfl

/-- A call adds nothing to the log, or the byte a register read returns. -/
theorem State.perform_log (s : State) (k : Call) :
    (s.perform k).log = s.log ∨ ∃ c off b, (s.perform k).log = .regRead c off b :: s.log := by
  cases k with
  | write c off b => left; simp [State.perform]
  | read c off => exact .inr ⟨_, _, _, rfl⟩
  | hblank => left; simp [State.perform]
  | vblank => left; simp [State.perform]
  | fifo f => left; simp [State.perform]

/-- So a predicate of the log that a returned byte does not disturb survives any calls. -/
theorem State.performAll_log {P : List Event → Prop} (hP : ∀ c off b es, P es → P (.regRead c off b :: es))
    (s : State) (ks : List Call) (h : P s.log) : P (s.performAll ks).log := by
  induction ks generalizing s with
  | nil => exact h
  | cons k ks ih =>
    refine ih (s.perform k) ?_
    rcases s.perform_log k with e | ⟨c, off, b, e⟩ <;> rw [e]
    · exact h
    · exact hP _ _ _ _ h

/-! ### Bus accesses inherit what calls keep -/

/-- A predicate of the block and its parameters that every call keeps. -/
structure BlockStable (P : State → Prop) : Prop where
  congr : ∀ {s t : State}, P s → t.chans = s.chans → SameController s t → t.cfg = s.cfg → P t
  perform : ∀ {s : State} (k : Call), P s → P (s.perform k)

namespace BlockStable

variable {P : State → Prop} (hP : BlockStable P)
include hP

theorem performAll {s : State} (h : P s) (ks : List Call) : P (s.performAll ks) := by
  induction ks generalizing s with
  | nil => exact h
  | cons k ks ih => exact ih (hP.perform k h)

theorem storeRegBytes {s : State} (h : P s) (a : Word) (bs : List Byte) (ks : List Nat) :
    P (s.storeRegBytes a bs ks) := by
  induction ks generalizing s with
  | nil => exact h
  | cons k ks ih =>
    refine ih (s := s.storeRegByte (byteAddr a k) (bs.getD k 0)) ?_
    unfold State.storeRegByte
    split
    · exact hP.perform (.write _ _ _) h
    · exact h

theorem storeUnit {s : State} (h : P s) (a : Word) (v : UnitVal) : P (s.storeUnit a v) :=
  hP.storeRegBytes (hP.congr h (by simp) ⟨by simp, by simp, by simp, by simp, by simp⟩ (by simp)) a _ _

theorem writeEffect {s : State} (h : P s) (a : Word) (v : UnitVal) (t : BusTurn) : P (s.writeEffect a v t) := by
  unfold State.writeEffect
  split
  · exact hP.congr h rfl ⟨rfl, rfl, rfl, rfl, rfl⟩ rfl
  · split
    · exact hP.storeUnit h a v
    · exact hP.congr h rfl ⟨rfl, rfl, rfl, rfl, rfl⟩ rfl

theorem readAccess {s : State} (h : P s) (u : UnitSize) (a : Word) : P (s.readAccess u a) :=
  hP.congr h (by simp) ⟨by simp, by simp, by simp, by simp, by simp⟩ (by simp)

theorem writeAccess {s : State} (h : P s) (a : Word) (v : UnitVal) : P (s.writeAccess a v) :=
  hP.writeEffect (s := (s.emit (.busWrite .sequential a v)).nextTurn)
    (hP.congr h rfl ⟨rfl, rfl, rfl, rfl, rfl⟩ rfl) a v s.turn

theorem busRead {s : State} (h : P s) (u : UnitSize) (a : Word) : P (s.busRead u a).2 :=
  hP.performAll (hP.readAccess h u a) _

theorem busWrite {s : State} (h : P s) (a : Word) (v : UnitVal) : P (s.busWrite a v) :=
  hP.performAll (hP.writeAccess h a v) _

end BlockStable

theorem currentIsLowest_stable : BlockStable State.CurrentIsLowest where
  congr h _ hc _ := h.congr hc.2.2.1 hc.2.2.2.1
  perform k h := State.perform_lowest h k

theorem masksMatchTiming_stable : BlockStable State.MasksMatchTiming where
  congr h ht hc _ d := by rw [hc.1, hc.2.1, State.chan_congr ht]; exact h d
  perform k h := State.perform_masks h k

/-- A predicate of the internal lengths, given the length masks, that every latch establishes. -/
theorem lengths_stable {P : Config → ChanIdx → Word → Prop} (hp : ∀ g d len, P g d (latchLength (g.lenMask.get d) len)) :
    BlockStable (fun s => ∀ d, P s.cfg d (s.chan d).internalLength) where
  congr h ht _ hg d := by rw [hg, State.chan_congr ht]; exact h d
  perform {s} k h d := by
    rw [State.perform_cfg]
    exact State.perform_length s h (fun d len => hp s.cfg d len) k d

/-- The length of one channel stays non-zero through a bus access. -/
theorem nonzeroLength_stable (c : ChanIdx) : BlockStable (fun s => (s.chan c).internalLength ≠ 0) where
  congr h ht _ _ := by rw [State.chan_congr ht]; exact h
  perform {s} k h := by
    have := State.perform_length (P := fun d w => d = c → w ≠ 0) s (fun d hd => by subst hd; exact h)
      (fun d len _ => latchLength_ne_zero _ _) k c
    exact this rfl

/-! ### The log and memory through a bus access -/

@[simp] theorem State.readAccess_log (s : State) (u : UnitSize) (a : Word) :
    (s.readAccess u a).log = .busRead .sequential a (s.readValue u a) :: s.log := by
  unfold State.readAccess; split <;> rfl

@[simp] theorem State.writeAccess_log (s : State) (a : Word) (v : UnitVal) :
    (s.writeAccess a v).log = .busWrite .sequential a v :: s.log := by
  simp [State.writeAccess, State.emit]

theorem State.busRead_log {P : List Event → Prop} (hP : ∀ c off b es, P es → P (.regRead c off b :: es))
    (s : State) (u : UnitSize) (a : Word) (h : P (.busRead .sequential a (s.readValue u a) :: s.log)) :
    P (s.busRead u a).2.log :=
  State.performAll_log hP _ _ (by simpa using h)

theorem State.busWrite_log {P : List Event → Prop} (hP : ∀ c off b es, P es → P (.regRead c off b :: es))
    (s : State) (a : Word) (v : UnitVal) (h : P (.busWrite .sequential a v :: s.log)) : P (s.busWrite a v).log :=
  State.performAll_log hP _ _ (by simpa using h)

theorem State.storeMemBytes_wf {s : State} (h : Memory.wf s.mem = true) (a : Word) (bs : List Byte) :
    Memory.wf (s.storeMemBytes a bs).mem = true := by
  induction bs generalizing s a with
  | nil => exact h
  | cons b bs ih =>
    refine ih (s := s.storeMemByte a b) ?_ (a + 1)
    unfold State.storeMemByte
    split
    · exact h
    · exact Memory.wf_write h a.isLt b

theorem State.busWrite_wf {s : State} (h : Memory.wf s.mem = true) (a : Word) (v : UnitVal) :
    Memory.wf (s.busWrite a v).mem = true := by
  simp only [State.busWrite, State.performAll_mem, State.writeAccess]
  unfold State.writeEffect
  split
  · exact Memory.wf_apply h _
  · split
    · simp only [State.storeUnit, State.storeRegBytes_mem]
      exact State.storeMemBytes_wf (s := (s.emit (.busWrite .sequential a v)).nextTurn) h a _
    · exact Memory.wf_apply h _

end Sys2Proof.Machine
end

