-- ==== Sys2Proof/Laws/Decode.lean ====
section
/-! SUPPORT. What decoding makes of a record, field by field. -/

namespace Sys2Proof

theorem selector_fields (f : Nat) (hf : f < 4) (c : ChanIdx) :
    selectorChannel (selector f c) = c ∧ (selector f c).toNat / 16 = 0 ∧ (selector f c).toNat / 4 % 4 = f := by
  interval_cases f <;> fin_cases c <;> decide

/-- The groups of a number read back as the number, whatever follows them. -/
theorem readGroups_groupsUpTo {fuel n : Nat} (h : n < 128 ^ (fuel + 1)) (rest : List Byte) :
    readGroups (groupsUpTo fuel n ++ rest) = .inr (n, rest) := by
  induction fuel generalizing n with
  | zero =>
    have hn : (BitVec.ofNat 8 (n % 128)).toNat = n := by rw [BitVec.toNat_ofNat]; omega
    simp only [groupsUpTo, List.cons_append, List.nil_append, readGroups, hn]
    rw [if_pos (by omega)]
  | succ fuel ih =>
    unfold groupsUpTo
    split
    · rename_i hlt
      have hn : (BitVec.ofNat 8 n).toNat = n := by rw [BitVec.toNat_ofNat]; omega
      simp only [List.cons_append, List.nil_append, readGroups, hn]
      rw [if_pos hlt]
    · rename_i hge
      have hn : (BitVec.ofNat 8 (128 + n % 128)).toNat = 128 + n % 128 := by rw [BitVec.toNat_ofNat]; omega
      have hd : n / 128 < 128 ^ (fuel + 1) := Nat.div_lt_of_lt_mul (by rw [← Nat.pow_succ']; exact h)
      simp only [List.cons_append, readGroups, hn, ih hd]
      rw [if_neg (by omega), if_neg (by omega)]
      congr 2; omega

theorem readGroups_groups (n : Nat) (rest : List Byte) : readGroups (groups n ++ rest) = .inr (n, rest) :=
  readGroups_groupsUpTo (Nat.lt_of_lt_of_le Nat.lt_log2_self (Nat.pow_le_pow_left (by decide) _)) rest

theorem groups_ne_nil (n : Nat) : groups n ≠ [] := by
  unfold groups
  cases n.log2 with
  | zero => exact List.cons_ne_nil _ _
  | succ f => unfold groupsUpTo; split <;> exact List.cons_ne_nil _ _

/-- No record of formats 0 to 2 is the reset event's. -/
theorem selector_ne_reset (f : Nat) (hf : f < 3) (c : ChanIdx) : selector f c ≠ resetSelector := by
  interval_cases f <;> fin_cases c <;> decide

theorem offsetOf_bytes (off : Nat) : offsetOf (BitVec.ofNat 8 off) (off / 256) = off := by
  simp only [offsetOf, BitVec.toNat_ofNat]; omega

theorem decode_writeRecord (c : ChanIdx) (off : Nat) (b : Byte) (rest : List Byte) :
    decode (writeRecord c off b ++ rest) = .op (decodeWrite c off b) rest := by
  simp [writeRecord, registerRecord, decode, decodeRecord, readGroups_groups, selector_fields 0 (by decide) c,
    selector_ne_reset 0 (by decide) c,
    offsetOf_bytes]

theorem decode_readRecord (c : ChanIdx) (off : Nat) (rest : List Byte) :
    decode (readRecord c off ++ rest) = .op (decodeRead c off) rest := by
  simp [readRecord, registerRecord, decode, decodeRecord, readGroups_groups, selector_fields 1 (by decide) c,
    selector_ne_reset 1 (by decide) c,
    offsetOf_bytes]

/-- The groups take at least one byte. -/
theorem length_readGroups (bs : List Byte) : ∀ n rest, readGroups bs = .inr (n, rest) → rest.length < bs.length := by
  induction bs with
  | nil => intro n r h; cases h
  | cons g bs ih =>
    intro n r h
    unfold readGroups at h
    split at h
    · injection h with h; injection h with h1 h2; subst h2; exact Nat.lt_succ_self _
    · split at h
      · cases h
      · rename_i hh
        split at h
        · cases h
        · injection h with h; injection h with h1 h2; subst h2
          exact Nat.lt_succ_of_lt (ih _ _ hh)

/-- What decoding takes off the head of a stream is not empty. -/
theorem length_decode (bs : List Byte) : (∀ i rest, decode bs = .op i rest → rest.length < bs.length)
    ∧ ∀ rest, decode bs = .reset rest → rest.length < bs.length := by
  unfold decode
  split
  · rename_i tail
    cases hg : readGroups tail with
    | inl e => simp
    | inr x =>
      have := length_readGroups _ _ _ hg
      simp only
      split
      · simp; omega
      · split
        · simp; omega
        · simp
  · simp

theorem decode_resetRecord (rest : List Byte) : decode (resetRecord ++ rest) = .reset rest := rfl

/-- From offset 12 up a write is the reserved one (R80). -/
theorem decodeWrite_reserved (c : ChanIdx) (b : Byte) {off : Nat} (h : 12 ≤ off) :
    decodeWrite c off b = .wRsvd c off b := by
  unfold decodeWrite; split <;> first | omega | rfl

/-- From offset 12 up a read is the reserved one (R91). -/
theorem decodeRead_reserved (c : ChanIdx) {off : Nat} (h : 12 ≤ off) : decodeRead c off = .rRsvd c off := by
  unfold decodeRead; split <;> first | omega | rfl

end Sys2Proof
end

