-- ==== Sys2Proof/Laws/Engine.lean ====
section
/-! SUPPORT. The transfer engine: what completion does, what a `Run` can end in, and what a unit does on a bus that
brings no operation of its own. -/

namespace Sys2Proof.Machine

/-! ### Completion -/

/-- What completion makes of its own channel (R121, R122, R125). -/
theorem State.complete_chan_same (s : State) (ch : ChanIdx) :
    (s.complete ch).chan ch =
      if (s.chan ch).repeats then
        { s.chan ch with
          internalLength := latchLength (s.cfg.lenMask.get ch) (s.chan ch).length
          internalDst := if (s.chan ch).dstAddressControl = .incrementReload
            then (s.chan ch).dstAddress &&& s.cfg.dstMask.get ch else (s.chan ch).internalDst }
      else { s.chan ch with enable := false } := by
  simp only [State.complete, State.reselect_chan, State.settle, State.raiseCompletion_chan]
  split
  · unfold State.rearm
    split <;> simp [State.reload, State.reloadDst, State.reloadLength] <;> split <;> simp
  · simp [State.retire]

theorem State.complete_chan_ne (s : State) {ch d : ChanIdx} (h : d ≠ ch) : (s.complete ch).chan d = s.chan d := by
  simp only [State.complete, State.reselect_chan, State.settle]
  split
  · unfold State.rearm
    split <;> simp [State.reload, State.reloadDst, State.reloadLength] <;> split <;> simp [h]
  · simp [State.retire, h]

/-- What completion makes of `runSet` (R123, R124, R125). -/
theorem State.complete_runSet (s : State) (ch : ChanIdx) :
    (s.complete ch).runSet =
      if (s.chan ch).repeats = true ∧ (s.chan ch).timingMode = .immediate then s.runSet else removeChan s.runSet ch := by
  have ht : ((((s.raiseCompletion ch).reload ch).chan ch).timingMode) = (s.chan ch).timingMode := by
    simp [State.reload, State.reloadDst, State.reloadLength]; split <;> simp
  simp only [State.complete, State.reselect_runSet, State.settle, State.raiseCompletion_chan]
  by_cases hr : (s.chan ch).repeats = true
  · by_cases him : (s.chan ch).timingMode = .immediate
    · simp [hr, him, State.rearm, ht]
    · simp [hr, him, State.rearm, ht, State.leaveRunSet]
  · simp [hr, State.retire, State.leaveRunSet]

/-- R120: what completion shows. -/
theorem State.complete_log (s : State) (ch : ChanIdx) :
    (s.complete ch).log = if (s.chan ch).interruptOnCompletion then .irq ch :: s.log else s.log := by
  simp only [State.complete, State.reselect_log, State.settle_log, State.raiseCompletion]
  split <;> rfl

theorem State.complete_irqFlags (s : State) (ch : ChanIdx) :
    (s.complete ch).irqFlags =
      if (s.chan ch).interruptOnCompletion then s.irqFlags ||| s.cfg.irqBit.get ch else s.irqFlags := by
  simp only [State.complete, State.reselect_irqFlags, State.settle_irqFlags, State.raiseCompletion]
  split <;> rfl

theorem State.complete_lowest (s : State) (ch : ChanIdx) : (s.complete ch).CurrentIsLowest := State.reselect_lowest _

/-! ### Everything a `Run` can end in -/

/-- A `Run` whose units keep `P` ends in a completion, in a budget yield or in a preemption yield, each from a state
with `P` (R119). -/
theorem State.runLoop_cases {P : State → Prop} {ch : ChanIdx} {u : UnitSize} {dSrc dDst : Int}
    (hstep : ∀ (s : State) (ds : List Int), P s → (s.chan ch).internalLength ≠ 0 → s.interleaved = false →
      P (State.transferUnit { s with budget := ds } ch u dSrc dDst))
    (ds : List Int) (s : State) (h : P s) :
    ∃ r, P r ∧ ((State.runLoop ch u dSrc dDst ds s = r.complete ch ∧ (r.chan ch).internalLength = 0)
      ∨ State.runLoop ch u dSrc dDst ds s = r
      ∨ (∃ es, State.runLoop ch u dSrc dDst ds s = { r with budget := es })
      ∨ ∃ es, State.runLoop ch u dSrc dDst ds s = { r with budget := es, interleaved := false }) := by
  induction ds generalizing s with
  | nil =>
    refine ⟨s, h, ?_⟩
    unfold State.runLoop
    split
    · exact .inl ⟨rfl, ‹_›⟩
    · exact .inr (.inl rfl)
  | cons d ds ih =>
    unfold State.runLoop
    split
    · exact ⟨s, h, .inl ⟨rfl, ‹_›⟩⟩
    · split
      · exact ⟨s, h, .inr (.inr (.inl ⟨ds, rfl⟩))⟩
      · split
        · exact ⟨s, h, .inr (.inr (.inr ⟨ds, rfl⟩))⟩
        · rename_i hl _ hi
          exact ih _ (hstep s ds h hl (by simpa using hi))

/-- A predicate of the block that calls keep, and that the advance of a channel with units left keeps, a `Run` carries
to the state it completes or yields from. -/
theorem BlockStable.transferUnit {P : State → Prop} (hP : BlockStable P) {ch : ChanIdx} {u : UnitSize} {dSrc dDst : Int}
    (hadv : ∀ s : State, P s → (s.chan ch).internalLength ≠ 0 → P (s.advance ch dSrc dDst)) {s : State} (h : P s)
    (hl : (s.chan ch).internalLength ≠ 0) : P (s.transferUnit ch u dSrc dDst) :=
  hadv _ (hP.busWrite (hP.busRead h _ _) _ _)
    ((nonzeroLength_stable ch).busWrite ((nonzeroLength_stable ch).busRead hl _ _) _ _)

/-! ### Units on a bus that brings no operation -/

theorem State.turn_nil {s : State} (h : s.bus = []) : s.turn = .quiet := by simp [State.turn, h]

theorem State.busRead_quiet {s : State} (h : s.turn.calls = []) (u : UnitSize) (a : Word) :
    s.busRead u a = (s.readValue u a, s.readAccess u a) := by simp [State.busRead, h]

theorem State.busWrite_quiet {s : State} (h : s.turn.calls = []) (a : Word) (v : UnitVal) :
    s.busWrite a v = s.writeAccess a v := by simp [State.busWrite, h]

@[simp] theorem State.readAccess_bus (s : State) (u : UnitSize) (a : Word) : (s.readAccess u a).bus = s.bus.tail := by
  unfold State.readAccess; split <;> rfl

@[simp] theorem State.writeAccess_bus (s : State) (a : Word) (v : UnitVal) : (s.writeAccess a v).bus = s.bus.tail := by
  simp [State.writeAccess]; rfl

theorem State.readAccess_turn (s : State) (u : UnitSize) (a : Word) : (s.readAccess u a).turn = s.nextTurn.turn := by
  simp [State.turn, State.nextTurn]

@[simp] theorem UnitVal.size_ofWord (u : UnitSize) (w : Word) : (UnitVal.ofWord u w).size = u := by cases u <;> rfl

theorem State.readValue_size (s : State) (u : UnitSize) (a : Word) : (s.readValue u a).size = u := by
  unfold State.readValue
  split
  · simp
  · split
    · cases u <;> rfl
    · simp

theorem UnitVal.length_bytes (v : UnitVal) : v.bytes.length = v.size.bytes := by cases v <;> rfl

theorem byteAddr_zero (a : Word) : byteAddr a 0 = a := by simp [byteAddr]

theorem byteAddr_succ (a : Word) (k : Nat) : byteAddr (a + 1) k = byteAddr a (k + 1) := by
  simp only [byteAddr, BitVec.add_assoc]
  congr 1
  apply BitVec.eq_of_toNat_eq
  simp [Nat.add_comm]

/-- A store that meets no register writes no register. -/
theorem State.storeRegBytes_of_miss {s : State} {a : Word} (bs : List Byte) {ks : List Nat}
    (h : ∀ k ∈ ks, registerAt s.cfg (byteAddr a k) = none) : s.storeRegBytes a bs ks = s := by
  induction ks with
  | nil => rfl
  | cons k ks ih =>
    have e : s.storeRegByte (byteAddr a k) (bs.getD k 0) = s := by
      simp [State.storeRegByte, h k (by simp)]
    show (s.storeRegByte (byteAddr a k) (bs.getD k 0)).storeRegBytes a bs ks = s
    rw [e]; exact ih fun k hk => h k (by simp [hk])

theorem mem_unitAddrs {u : UnitSize} {a : Word} {k : Nat} (h : k < u.bytes) : byteAddr a k ∈ unitAddrs u a :=
  List.mem_map.mpr ⟨k, List.mem_range.mpr h, rfl⟩

theorem laneOrder_lt (g : Config) (v : UnitVal) : ∀ k ∈ laneOrder g v, k < v.size.bytes := by
  intro k hk
  cases v with
  | half v =>
    obtain ⟨x, -, rfl⟩ := List.mem_map.mp hk
    exact x.isLt
  | word v =>
    obtain ⟨x, -, rfl⟩ := List.mem_map.mp hk
    exact x.isLt

/-- Where no byte of the unit is a register, a plain store is a store to memory only. -/
theorem State.storeUnit_of_miss {s : State} {a : Word} {v : UnitVal}
    (h : ∀ x ∈ unitAddrs v.size a, registerAt s.cfg x = none) : s.storeUnit a v = s.storeMemBytes a v.bytes :=
  State.storeRegBytes_of_miss _ fun k hk => by
    rw [State.storeMemBytes_cfg]; exact h _ (mem_unitAddrs (laneOrder_lt _ _ k hk))

/-- A write that brings no operation and meets no register leaves the block alone. -/
theorem State.writeAccess_block {s : State} {a : Word} {v : UnitVal}
    (h : s.turn.stores.isNone = true → ∀ x ∈ unitAddrs v.size a, registerAt s.cfg x = none) :
    (s.writeAccess a v).chans = s.chans ∧ SameController s (s.writeAccess a v) := by
  unfold State.writeAccess State.writeEffect
  split
  · exact ⟨rfl, rfl, rfl, rfl, rfl, rfl⟩
  · rename_i hs
    split
    · rw [State.storeUnit_of_miss (s := (s.emit _).nextTurn) (h (by simp [hs]))]
      refine ⟨?_, ?_, ?_, ?_, ?_, ?_⟩ <;> simp
    · exact ⟨rfl, rfl, rfl, rfl, rfl, rfl⟩

/-- Bytes stored from `a` up: byte `k` of the list is at `a + k`, everything else is as it was. -/
theorem State.read_storeMemBytes {s : State} (hm : Memory.wf s.mem = true) {a : Word} {bs : List Byte}
    (hfit : a.toNat + bs.length ≤ 4294967296) (h : ∀ k, k < bs.length → registerAt s.cfg (byteAddr a k) = none)
    (x : Nat) : Memory.read (s.storeMemBytes a bs).mem x =
      if a.toNat ≤ x ∧ x < a.toNat + bs.length then bs.getD (x - a.toNat) 0 else Memory.read s.mem x := by
  induction bs generalizing s a with
  | nil => rw [if_neg (by simp)]; rfl
  | cons b bs ih =>
    have e : s.storeMemByte a b = { s with mem := Memory.write s.mem a.toNat b } := by
      have := h 0 (by simp)
      rw [byteAddr_zero] at this
      simp [State.storeMemByte, this]
    show Memory.read ((s.storeMemByte a b).storeMemBytes (a + 1) bs).mem x = _
    rw [e]
    simp only [List.length_cons] at hfit ⊢
    by_cases hb : bs = []
    · subst hb
      show Memory.read (Memory.write s.mem a.toNat b) x = _
      by_cases hx : x = a.toNat
      · subst hx; rw [if_pos (by simp)]; simp [Memory.read_write_same hm]
      · rw [if_neg (by simp; omega), Memory.read_write_ne _ _ hx]
    · have hpos : 0 < bs.length := List.length_pos_iff.mpr hb
      have ha : (a + 1).toNat = a.toNat + 1 := by
        rw [BitVec.toNat_add, show (1 : Word).toNat = 1 from rfl]; omega
      rw [ih (s := { s with mem := Memory.write s.mem a.toNat b }) (Memory.wf_write hm a.isLt b) (by omega)
        (fun k hk => by rw [byteAddr_succ]; exact h (k + 1) (by simp; omega)), ha]
      by_cases hx : x = a.toNat
      · subst hx
        rw [if_neg (by omega), if_pos (by omega), Memory.read_write_same hm]; simp
      · by_cases hin : a.toNat ≤ x ∧ x < a.toNat + (bs.length + 1)
        · rw [if_pos (by omega), if_pos hin]
          obtain ⟨k, rfl⟩ : ∃ k, x = a.toNat + 1 + k := ⟨x - (a.toNat + 1), by omega⟩
          rw [show a.toNat + 1 + k - a.toNat = k + 1 by omega, show a.toNat + 1 + k - (a.toNat + 1) = k by omega]
          simp
        · rw [if_neg (by omega), if_neg hin, Memory.read_write_ne _ _ hx]

/-! ### Addresses and lanes of a unit -/

theorem aligned_fits {u : UnitSize} {a : Word} (h : aligned u a = true) : a.toNat + u.bytes ≤ 4294967296 := by
  have := a.isLt
  simp only [aligned, decide_eq_true_eq] at h
  cases u <;> simp only [UnitSize.bytes] at h ⊢ <;> omega

theorem byteAddr_toNat {a : Word} {k : Nat} (h : a.toNat + k < 4294967296) : (byteAddr a k).toNat = a.toNat + k := by
  simp only [byteAddr, BitVec.toNat_add, BitVec.toNat_ofNat]; omega

theorem plainUnit_iff {g : Config} {u : UnitSize} {a : Word} :
    plainUnit g u a = true ↔ aligned u a = true ∧ ∀ x ∈ unitAddrs u a, registerAt g x = none := by
  simp only [plainUnit, Bool.and_eq_true, List.all_eq_true, Option.isNone_iff_eq_none]

theorem extractLsb'_append_low {w : Nat} (x : BitVec w) (y : Byte) : (x ++ y).extractLsb' 0 8 = y := by
  apply BitVec.eq_of_getLsbD_eq; intro i hi; simp [BitVec.getLsbD_append, hi]

theorem extractLsb'_append_high {w : Nat} (x : BitVec w) (y : Byte) (k : Nat) :
    (x ++ y).extractLsb' (8 + k) 8 = x.extractLsb' k 8 := by
  apply BitVec.eq_of_getLsbD_eq; intro i hi
  simp only [BitVec.getLsbD_extractLsb', BitVec.getLsbD_append, hi, decide_true, Bool.true_and]
  rw [if_neg (by omega)]; congr 1; omega

theorem extractLsb'_byte (x : Byte) : x.extractLsb' 0 8 = x := by
  apply BitVec.eq_of_getLsbD_eq; intro i hi; simp

/-- Byte `k` of a unit as loaded is the byte of the bus at `a + k` (log entry 10). -/
theorem State.loadUnit_bytes {s : State} {u : UnitSize} {a : Word} {k : Nat} (hk : k < u.bytes) :
    (s.loadUnit u a).bytes.getD k 0 = s.busByte (byteAddr a k) := by
  cases u
  · simp only [UnitSize.bytes] at hk
    interval_cases k
    · rw [byteAddr_zero]; exact extractLsb'_append_low _ _
    · exact (extractLsb'_append_high _ _ 0).trans (extractLsb'_byte _)
  · simp only [UnitSize.bytes] at hk
    interval_cases k
    · rw [byteAddr_zero]; exact extractLsb'_append_low _ _
    · exact (extractLsb'_append_high _ _ 0).trans (extractLsb'_append_low _ _)
    · exact ((extractLsb'_append_high _ _ 8).trans (extractLsb'_append_high _ _ 0)).trans (extractLsb'_append_low _ _)
    · exact (((extractLsb'_append_high _ _ 16).trans (extractLsb'_append_high _ _ 8)).trans
        (extractLsb'_append_high _ _ 0)).trans (extractLsb'_byte _)

theorem unitAddr_zero (b : Word) (d : Int) : unitAddr b d 0 = b := by simp [unitAddr]

/-- Unit `k` of the transfer that starts one delta further is unit `k + 1`. -/
theorem unitAddr_succ (b : Word) (d : Int) (k : Nat) : unitAddr (b + BitVec.ofInt 32 d) d k = unitAddr b d (k + 1) := by
  unfold unitAddr
  rw [BitVec.add_assoc, ← BitVec.ofInt_add]
  congr 2; push_cast; ring

theorem byteAddr_unitAddr (b : Word) (m k j : Nat) : byteAddr (unitAddr b (m : Int) k) j = byteAddr b (k * m + j) := by
  have : BitVec.ofInt 32 ((k : Int) * (m : Int)) = BitVec.ofNat 32 (k * m) := by
    rw [← Int.natCast_mul, BitVec.ofInt_natCast]
  unfold byteAddr unitAddr; rw [this, BitVec.add_assoc, ← BitVec.ofNat_add]

/-! ### One unit -/

/-- Everything a unit does on a bus that brings no operation, when its destination meets no register: its two accesses
and its advance; the controller and every other channel stay. -/
theorem State.transferUnit_quiet {s : State} {ch : ChanIdx} {u : UnitSize} {dSrc dDst : Int} (hb : s.bus = [])
    (h : ∀ x ∈ unitAddrs u (s.chan ch).internalDst, registerAt s.cfg x = none) :
    ∃ v : UnitVal, v = s.readValue u (s.chan ch).internalSrc
      ∧ s.transferUnit ch u dSrc dDst = (((s.readAccess u (s.chan ch).internalSrc).writeAccess
          (s.chan ch).internalDst v).advance ch dSrc dDst)
      ∧ SameController s (s.transferUnit ch u dSrc dDst) ∧ SameOtherChannels ch s (s.transferUnit ch u dSrc dDst)
      ∧ (s.transferUnit ch u dSrc dDst).chan ch = { s.chan ch with
          internalSrc := (s.chan ch).internalSrc + BitVec.ofInt 32 dSrc
          internalDst := (s.chan ch).internalDst + BitVec.ofInt 32 dDst
          internalLength := (s.chan ch).internalLength - 1 }
      ∧ (s.transferUnit ch u dSrc dDst).bus = []
      ∧ (s.transferUnit ch u dSrc dDst).log =
          .busWrite .sequential (s.chan ch).internalDst v :: .busRead .sequential (s.chan ch).internalSrc v :: s.log := by
  refine ⟨_, rfl, ?_⟩
  have e : s.transferUnit ch u dSrc dDst = (((s.readAccess u (s.chan ch).internalSrc).writeAccess
      (s.chan ch).internalDst (s.readValue u (s.chan ch).internalSrc)).advance ch dSrc dDst) := by
    unfold State.transferUnit
    rw [State.busRead_quiet (by rw [State.turn_nil hb]; rfl)]
    simp only
    rw [State.busWrite_quiet (by rw [State.turn_nil (by simp [hb])]; rfl)]
    simp
  refine ⟨e, ?_⟩
  rw [e]
  obtain ⟨hc, h1, h2, h3, h4, h5⟩ := State.writeAccess_block (s := s.readAccess u (s.chan ch).internalSrc)
    (a := (s.chan ch).internalDst) (v := s.readValue u (s.chan ch).internalSrc)
    (by intro _; rw [State.readValue_size, State.readAccess_cfg]; exact h)
  have hc' : ∀ d, ((s.readAccess u (s.chan ch).internalSrc).writeAccess (s.chan ch).internalDst
      (s.readValue u (s.chan ch).internalSrc)).chan d = s.chan d := by
    intro d; rw [State.chan_congr hc]; simp
  refine ⟨⟨?_, ?_, ?_, ?_, ?_⟩, ?_, ?_, ?_, ?_⟩
  · simpa [State.advance] using h1
  · simpa [State.advance] using h2
  · simpa [State.advance] using h3
  · simpa [State.advance] using h4
  · simpa [State.advance] using h5
  · intro d hd; simp [State.advance, hd, hc']
  · simp [State.advance, hc', stepAddress]
  · simp [State.advance, hb]
  · simp [State.advance]

theorem State.storeMemBytes_budget_update (s : State) (x : List Int) (a : Word) (bs : List Byte) :
    State.storeMemBytes { s with budget := x } a bs = { s.storeMemBytes a bs with budget := x } := by
  induction bs generalizing s a with
  | nil => rfl
  | cons b bs ih =>
    show (State.storeMemByte { s with budget := x } a b).storeMemBytes (a + 1) bs = _
    have : State.storeMemByte { s with budget := x } a b = { s.storeMemByte a b with budget := x } := by
      unfold State.storeMemByte; simp only; split <;> rfl
    rw [this, ih]; rfl

/-- A write that brings no operation and meets no register, spelled out. -/
theorem State.writeAccess_quiet {s : State} {a : Word} {v : UnitVal} (hb : s.bus = [])
    (h : ∀ x ∈ unitAddrs v.size a, registerAt s.cfg x = none) :
    s.writeAccess a v =
      if aligned v.size a then ((s.emit (.busWrite .sequential a v)).nextTurn).storeMemBytes a v.bytes
      else { ((s.emit (.busWrite .sequential a v)).nextTurn).useFree with
        mem := Memory.apply s.mem (Config.freeStores s.freeCount) } := by
  simp only [State.writeAccess, State.writeEffect, State.turn_nil hb, BusTurn.quiet]
  split
  · exact State.storeUnit_of_miss (s := (s.emit _).nextTurn) h
  · rfl

/-- Such a unit neither reads nor writes the budget. -/
theorem State.transferUnit_budget_update {s : State} {ch : ChanIdx} {u : UnitSize} {dSrc dDst : Int} (x : List Int)
    (hb : s.bus = []) (h : ∀ y ∈ unitAddrs u (s.chan ch).internalDst, registerAt s.cfg y = none) :
    State.transferUnit { s with budget := x } ch u dSrc dDst = { s.transferUnit ch u dSrc dDst with budget := x } := by
  obtain ⟨v, hv, e, -⟩ := State.transferUnit_quiet (dSrc := dSrc) (dDst := dDst) hb h
  obtain ⟨v', hv', e', -⟩ :=
    State.transferUnit_quiet (s := { s with budget := x }) (dSrc := dSrc) (dDst := dDst) hb h
  have hvv : v' = v := by rw [hv, hv']; rfl
  have hsz : v.size = u := by rw [hv, State.readValue_size]
  have hr : State.readAccess { s with budget := x } u (State.chan { s with budget := x } ch).internalSrc
      = { s.readAccess u (s.chan ch).internalSrc with budget := x } := by
    have h1 : State.readIsFree { s with budget := x } u (s.chan ch).internalSrc
      = State.readIsFree s u (s.chan ch).internalSrc := rfl
    show State.readAccess { s with budget := x } u (s.chan ch).internalSrc = _
    unfold State.readAccess; rw [h1]; split <;> rfl
  rw [e, e', hvv, hr]
  have hTc : (s.readAccess u (s.chan ch).internalSrc).cfg = s.cfg := by simp
  have hTb : (s.readAccess u (s.chan ch).internalSrc).bus = [] := by simp [hb]
  generalize s.readAccess u (s.chan ch).internalSrc = T at hTc hTb
  have hm : ∀ y ∈ unitAddrs v.size (s.chan ch).internalDst, registerAt T.cfg y = none := by rw [hsz, hTc]; exact h
  show State.advance (State.writeAccess { T with budget := x } (s.chan ch).internalDst v) ch dSrc dDst = _
  rw [State.writeAccess_quiet hTb hm, State.writeAccess_quiet (s := { T with budget := x }) hTb hm]
  split
  · have : (State.nextTurn (State.emit { T with budget := x } (.busWrite .sequential (s.chan ch).internalDst v)))
        = { State.nextTurn (State.emit T (.busWrite .sequential (s.chan ch).internalDst v)) with budget := x } := rfl
    rw [this, State.storeMemBytes_budget_update]; rfl
  · rfl

/-! ### Several units -/

/-- `n` units in a row, each taking one draw of the budget. -/
def State.units (ch : ChanIdx) (u : UnitSize) (dSrc dDst : Int) : Nat → State → State
  | 0, s => s
  | n + 1, s => State.units ch u dSrc dDst n (State.transferUnit { s with budget := s.budget.tail } ch u dSrc dDst)

/-- With positive draws, units left and no preemption, the loop does one unit a draw and goes on with the rest. -/
theorem State.runLoop_prefix {ch : ChanIdx} {u : UnitSize} {dSrc dDst : Int} (ps qs : List Int) (s : State)
    (hp : ∀ d ∈ ps, 0 < d) (hl : ps.length ≤ (s.chan ch).internalLength.toNat) (hi : s.interleaved = false)
    (hb : s.bus = []) (hbud : s.budget = ps ++ qs)
    (hd : ∀ k, k < ps.length → plainUnit s.cfg u (unitAddr (s.chan ch).internalDst dDst k) = true) :
    State.runLoop ch u dSrc dDst (ps ++ qs) s
      = State.runLoop ch u dSrc dDst qs (State.units ch u dSrc dDst ps.length s) := by
  induction ps generalizing s with
  | nil => rfl
  | cons p ps ih =>
    have h0 : plainUnit s.cfg u (s.chan ch).internalDst = true := by
      have := hd 0 (by simp); rwa [unitAddr_zero] at this
    have hlz : ¬ (s.chan ch).internalLength = 0 := by
      intro h; rw [h] at hl; simp at hl
    have hpp : ¬ p ≤ 0 := by have := hp p (by simp); omega
    rw [List.cons_append, State.runLoop, if_neg hlz, if_neg hpp, if_neg (show ¬ s.interleaved = true by simp [hi])]
    simp only [List.length_cons, State.units]
    rw [show s.budget.tail = ps ++ qs by rw [hbud]; rfl]
    obtain ⟨v, -, -, h1, -, h3, h4, -⟩ := State.transferUnit_quiet (s := { s with budget := ps ++ qs }) (ch := ch)
      (u := u) (dSrc := dSrc) (dDst := dDst) hb (plainUnit_iff.mp h0).2
    rw [show (State.chan { s with budget := ps ++ qs } ch) = s.chan ch from rfl] at h3
    refine ih _ (fun d hd => hp d (by simp [hd])) ?_ ?_ h4 (by simp) ?_
    · rw [h3]
      simp only [List.length_cons] at hl
      have := (s.chan ch).internalLength.isLt
      rw [BitVec.toNat_sub]; simp; omega
    · rw [h1.2.2.2.2]; exact hi
    · intro k hk
      rw [h3]; simp only [State.transferUnit_cfg]
      rw [unitAddr_succ]; exact hd (k + 1) (by simpa using hk)

end Sys2Proof.Machine
end

