-- ==== Sys2Proof/Laws/PerInstr.lean ====
section
/-! SUPPORT. Statements made for each operation in turn, as syntax. -/

/-- The record of an operation has a first byte, a selector of one of the three formats, a third byte and at least one
byte more (log entries 1, 3). -/
def Sys2Proof.Laws.RecordShape.Statement (i : Sys2Proof.Instr) : Prop :=
  ∃ o0 sel b high, Sys2Proof.encode i = o0 :: sel :: b :: high ∧ sel.toNat < 12 ∧ high ≠ []

theorem Sys2Proof.selector_lt {f : Nat} (hf : f < 3) (c : Sys2Proof.ChanIdx) : (Sys2Proof.selector f c).toNat < 12 := by
  interval_cases f <;> fin_cases c <;> decide

theorem Sys2Proof.Laws.RecordShape.wSrc0 (c : Sys2Proof.ChanIdx) (b : Sys2Proof.Byte) :
    Sys2Proof.Laws.RecordShape.Statement (.wSrc0 c b) :=
  ⟨_, _, _, _, rfl, Sys2Proof.selector_lt (by decide) _, Sys2Proof.groups_ne_nil _⟩

theorem Sys2Proof.Laws.RecordShape.wSrc1 (c : Sys2Proof.ChanIdx) (b : Sys2Proof.Byte) :
    Sys2Proof.Laws.RecordShape.Statement (.wSrc1 c b) :=
  ⟨_, _, _, _, rfl, Sys2Proof.selector_lt (by decide) _, Sys2Proof.groups_ne_nil _⟩

theorem Sys2Proof.Laws.RecordShape.wSrc2 (c : Sys2Proof.ChanIdx) (b : Sys2Proof.Byte) :
    Sys2Proof.Laws.RecordShape.Statement (.wSrc2 c b) :=
  ⟨_, _, _, _, rfl, Sys2Proof.selector_lt (by decide) _, Sys2Proof.groups_ne_nil _⟩

theorem Sys2Proof.Laws.RecordShape.wSrc3 (c : Sys2Proof.ChanIdx) (b : Sys2Proof.Byte) :
    Sys2Proof.Laws.RecordShape.Statement (.wSrc3 c b) :=
  ⟨_, _, _, _, rfl, Sys2Proof.selector_lt (by decide) _, Sys2Proof.groups_ne_nil _⟩

theorem Sys2Proof.Laws.RecordShape.wDst0 (c : Sys2Proof.ChanIdx) (b : Sys2Proof.Byte) :
    Sys2Proof.Laws.RecordShape.Statement (.wDst0 c b) :=
  ⟨_, _, _, _, rfl, Sys2Proof.selector_lt (by decide) _, Sys2Proof.groups_ne_nil _⟩

theorem Sys2Proof.Laws.RecordShape.wDst1 (c : Sys2Proof.ChanIdx) (b : Sys2Proof.Byte) :
    Sys2Proof.Laws.RecordShape.Statement (.wDst1 c b) :=
  ⟨_, _, _, _, rfl, Sys2Proof.selector_lt (by decide) _, Sys2Proof.groups_ne_nil _⟩

theorem Sys2Proof.Laws.RecordShape.wDst2 (c : Sys2Proof.ChanIdx) (b : Sys2Proof.Byte) :
    Sys2Proof.Laws.RecordShape.Statement (.wDst2 c b) :=
  ⟨_, _, _, _, rfl, Sys2Proof.selector_lt (by decide) _, Sys2Proof.groups_ne_nil _⟩

theorem Sys2Proof.Laws.RecordShape.wDst3 (c : Sys2Proof.ChanIdx) (b : Sys2Proof.Byte) :
    Sys2Proof.Laws.RecordShape.Statement (.wDst3 c b) :=
  ⟨_, _, _, _, rfl, Sys2Proof.selector_lt (by decide) _, Sys2Proof.groups_ne_nil _⟩

theorem Sys2Proof.Laws.RecordShape.wLen0 (c : Sys2Proof.ChanIdx) (b : Sys2Proof.Byte) :
    Sys2Proof.Laws.RecordShape.Statement (.wLen0 c b) :=
  ⟨_, _, _, _, rfl, Sys2Proof.selector_lt (by decide) _, Sys2Proof.groups_ne_nil _⟩

theorem Sys2Proof.Laws.RecordShape.wLen1 (c : Sys2Proof.ChanIdx) (b : Sys2Proof.Byte) :
    Sys2Proof.Laws.RecordShape.Statement (.wLen1 c b) :=
  ⟨_, _, _, _, rfl, Sys2Proof.selector_lt (by decide) _, Sys2Proof.groups_ne_nil _⟩

theorem Sys2Proof.Laws.RecordShape.wCtlLo (c : Sys2Proof.ChanIdx) (b : Sys2Proof.Byte) :
    Sys2Proof.Laws.RecordShape.Statement (.wCtlLo c b) :=
  ⟨_, _, _, _, rfl, Sys2Proof.selector_lt (by decide) _, Sys2Proof.groups_ne_nil _⟩

theorem Sys2Proof.Laws.RecordShape.wCtlHi (c : Sys2Proof.ChanIdx) (b : Sys2Proof.Byte) :
    Sys2Proof.Laws.RecordShape.Statement (.wCtlHi c b) :=
  ⟨_, _, _, _, rfl, Sys2Proof.selector_lt (by decide) _, Sys2Proof.groups_ne_nil _⟩

theorem Sys2Proof.Laws.RecordShape.wRsvd (c : Sys2Proof.ChanIdx) (off : Nat) (b : Sys2Proof.Byte) :
    Sys2Proof.Laws.RecordShape.Statement (.wRsvd c off b) :=
  ⟨_, _, _, _, rfl, Sys2Proof.selector_lt (by decide) _, Sys2Proof.groups_ne_nil _⟩

theorem Sys2Proof.Laws.RecordShape.rZero0 (c : Sys2Proof.ChanIdx) :
    Sys2Proof.Laws.RecordShape.Statement (.rZero0 c) :=
  ⟨_, _, _, _, rfl, Sys2Proof.selector_lt (by decide) _, Sys2Proof.groups_ne_nil _⟩

theorem Sys2Proof.Laws.RecordShape.rZero1 (c : Sys2Proof.ChanIdx) :
    Sys2Proof.Laws.RecordShape.Statement (.rZero1 c) :=
  ⟨_, _, _, _, rfl, Sys2Proof.selector_lt (by decide) _, Sys2Proof.groups_ne_nil _⟩

theorem Sys2Proof.Laws.RecordShape.rZero2 (c : Sys2Proof.ChanIdx) :
    Sys2Proof.Laws.RecordShape.Statement (.rZero2 c) :=
  ⟨_, _, _, _, rfl, Sys2Proof.selector_lt (by decide) _, Sys2Proof.groups_ne_nil _⟩

theorem Sys2Proof.Laws.RecordShape.rZero3 (c : Sys2Proof.ChanIdx) :
    Sys2Proof.Laws.RecordShape.Statement (.rZero3 c) :=
  ⟨_, _, _, _, rfl, Sys2Proof.selector_lt (by decide) _, Sys2Proof.groups_ne_nil _⟩

theorem Sys2Proof.Laws.RecordShape.rZero4 (c : Sys2Proof.ChanIdx) :
    Sys2Proof.Laws.RecordShape.Statement (.rZero4 c) :=
  ⟨_, _, _, _, rfl, Sys2Proof.selector_lt (by decide) _, Sys2Proof.groups_ne_nil _⟩

theorem Sys2Proof.Laws.RecordShape.rZero5 (c : Sys2Proof.ChanIdx) :
    Sys2Proof.Laws.RecordShape.Statement (.rZero5 c) :=
  ⟨_, _, _, _, rfl, Sys2Proof.selector_lt (by decide) _, Sys2Proof.groups_ne_nil _⟩

theorem Sys2Proof.Laws.RecordShape.rZero6 (c : Sys2Proof.ChanIdx) :
    Sys2Proof.Laws.RecordShape.Statement (.rZero6 c) :=
  ⟨_, _, _, _, rfl, Sys2Proof.selector_lt (by decide) _, Sys2Proof.groups_ne_nil _⟩

theorem Sys2Proof.Laws.RecordShape.rZero7 (c : Sys2Proof.ChanIdx) :
    Sys2Proof.Laws.RecordShape.Statement (.rZero7 c) :=
  ⟨_, _, _, _, rfl, Sys2Proof.selector_lt (by decide) _, Sys2Proof.groups_ne_nil _⟩

theorem Sys2Proof.Laws.RecordShape.rZero8 (c : Sys2Proof.ChanIdx) :
    Sys2Proof.Laws.RecordShape.Statement (.rZero8 c) :=
  ⟨_, _, _, _, rfl, Sys2Proof.selector_lt (by decide) _, Sys2Proof.groups_ne_nil _⟩

theorem Sys2Proof.Laws.RecordShape.rZero9 (c : Sys2Proof.ChanIdx) :
    Sys2Proof.Laws.RecordShape.Statement (.rZero9 c) :=
  ⟨_, _, _, _, rfl, Sys2Proof.selector_lt (by decide) _, Sys2Proof.groups_ne_nil _⟩

theorem Sys2Proof.Laws.RecordShape.rCtlLo (c : Sys2Proof.ChanIdx) :
    Sys2Proof.Laws.RecordShape.Statement (.rCtlLo c) :=
  ⟨_, _, _, _, rfl, Sys2Proof.selector_lt (by decide) _, Sys2Proof.groups_ne_nil _⟩

theorem Sys2Proof.Laws.RecordShape.rCtlHi (c : Sys2Proof.ChanIdx) :
    Sys2Proof.Laws.RecordShape.Statement (.rCtlHi c) :=
  ⟨_, _, _, _, rfl, Sys2Proof.selector_lt (by decide) _, Sys2Proof.groups_ne_nil _⟩

theorem Sys2Proof.Laws.RecordShape.rRsvd (c : Sys2Proof.ChanIdx) (off : Nat) :
    Sys2Proof.Laws.RecordShape.Statement (.rRsvd c off) :=
  ⟨_, _, _, _, rfl, Sys2Proof.selector_lt (by decide) _, Sys2Proof.groups_ne_nil _⟩

theorem Sys2Proof.Laws.RecordShape.triggerHBlank :
    Sys2Proof.Laws.RecordShape.Statement .triggerHBlank :=
  ⟨_, _, _, _, rfl, Sys2Proof.selector_lt (by decide) _, List.cons_ne_nil _ _⟩

theorem Sys2Proof.Laws.RecordShape.triggerVBlank :
    Sys2Proof.Laws.RecordShape.Statement .triggerVBlank :=
  ⟨_, _, _, _, rfl, Sys2Proof.selector_lt (by decide) _, List.cons_ne_nil _ _⟩

theorem Sys2Proof.Laws.RecordShape.fifoRequest1 :
    Sys2Proof.Laws.RecordShape.Statement .fifoRequest1 :=
  ⟨_, _, _, _, rfl, Sys2Proof.selector_lt (by decide) _, List.cons_ne_nil _ _⟩

theorem Sys2Proof.Laws.RecordShape.fifoRequest2 :
    Sys2Proof.Laws.RecordShape.Statement .fifoRequest2 :=
  ⟨_, _, _, _, rfl, Sys2Proof.selector_lt (by decide) _, List.cons_ne_nil _ _⟩

theorem Sys2Proof.Laws.RecordShape.run :
    Sys2Proof.Laws.RecordShape.Statement .run :=
  ⟨_, _, _, _, rfl, Sys2Proof.selector_lt (by decide) _, List.cons_ne_nil _ _⟩
end

