-- ==== Sys2Proof/Laws/Step.lean ====
section
/-! SUPPORT. What a step, an operation and a whole `Run` can do, said once, and how an invariant of the block passes
through them. -/

namespace Sys2Proof.Machine

/-! ### What the agents send -/

@[simp] theorem State.supplied_chans (s : State) : s.supplied.chans = s.chans := rfl
@[simp] theorem State.supplied_hblankMask (s : State) : s.supplied.hblankMask = s.hblankMask := rfl
@[simp] theorem State.supplied_vblankMask (s : State) : s.supplied.vblankMask = s.vblankMask := rfl
@[simp] theorem State.supplied_runSet (s : State) : s.supplied.runSet = s.runSet := rfl
@[simp] theorem State.supplied_current (s : State) : s.supplied.current = s.current := rfl
@[simp] theorem State.supplied_interleaved (s : State) : s.supplied.interleaved = s.interleaved := rfl
@[simp] theorem State.supplied_cfg (s : State) : s.supplied.cfg = s.cfg := rfl
@[simp] theorem State.supplied_mem (s : State) : s.supplied.mem = s.mem := rfl
@[simp] theorem State.supplied_irqFlags (s : State) : s.supplied.irqFlags = s.irqFlags := rfl
@[simp] theorem State.supplied_log (s : State) : s.supplied.log = s.log := rfl
@[simp] theorem State.supplied_resetReq (s : State) : s.supplied.resetReq = s.resetReq := rfl
@[simp] theorem State.supplied_pending (s : State) : s.supplied.pending = s.pending := rfl
theorem State.supplied_port (s : State) : s.supplied.port = portBytes (Config.freeSignals s.freeCount) := rfl
theorem State.supplied_budget (s : State) : s.supplied.budget = s.budget ++ Config.freeDraws s.freeCount := rfl
theorem State.supplied_bus (s : State) : s.supplied.bus = s.bus ++ Config.freeTurns s.freeCount := rfl
theorem State.supplied_freeCount (s : State) : s.supplied.freeCount = s.freeCount + 1 := rfl

@[simp] theorem portBytes_nil : portBytes [] = [] := rfl
@[simp] theorem portBytes_cons (k : Signal) (ks : List Signal) : portBytes (k :: ks) = k.record ++ portBytes ks := rfl

/-- The record of a call decodes to the instruction the call is. -/
theorem decode_callRecord (k : Call) (rest : List Byte) :
    decode ((Signal.call k).record ++ rest) = .op k.instr rest := by
  cases k with
  | write c off b => exact decode_writeRecord c off b rest
  | read c off => exact decode_readRecord c off rest
  | hblank => rfl
  | vblank => rfl
  | fifo f => cases f <;> rfl

/-! ### One step -/

/-- What `step` does, by what arrives. -/
theorem step_resetReq {s : State} (h : s.resetReq = true) : step s = .next s.resetEvent := by
  simp [step, State.arrival, h]

theorem step_of_op {s : State} {i : Instr} {rest : List Byte} (h : s.resetReq = false) (hd : decode s.port = .op i rest) :
    step s = exec i { s with port := rest } := by
  cases hp : s.port with
  | nil => rw [hp] at hd; cases hd
  | cons b bs => rw [hp] at hd; simp [step, State.arrival, h, hp, hd]

theorem step_of_reset {s : State} {rest : List Byte} (h : s.resetReq = false) (hd : decode s.port = .reset rest) :
    step s = .next (State.resetEvent { s with port := rest }) := by
  cases hp : s.port with
  | nil => rw [hp] at hd; cases hd
  | cons b bs => rw [hp] at hd; simp [step, State.arrival, h, hp, hd]

theorem step_of_bad {s : State} {e : DecodeError} (h : s.resetReq = false) (hp : s.port ≠ []) (hd : decode s.port = .bad e) :
    step s = .refused (.notAnOperation e) := by
  cases hq : s.port with
  | nil => exact absurd hq hp
  | cons b bs => rw [hq] at hd; simp [step, State.arrival, h, hq, hd]

/-- With the port served and nothing pending only the agents act. -/
theorem step_idle {s : State} (h : s.resetReq = false) (hp : s.port = []) (hr : s.runSet = 0) : step s = .next s.supplied := by
  simp [step, State.arrival, h, hp, State.pending, hr]

/-- With the port served and something pending the CPU loop invokes `RUN`. -/
theorem step_loop {s : State} (h : s.resetReq = false) (hp : s.port = []) (hr : s.runSet ≠ 0) :
    step s = exec .run s.supplied := by
  have hq : s.pending = true := decide_eq_true hr
  simp [step, State.arrival, h, hp, hq]

/-- A step that goes on is the reset event, or nothing, or an operation, from a state that differs from `s` at most in what
the outside world has still to bring. -/
theorem step_cases {s t : State} (h : step s = .next t) :
    ∃ (p : List Byte) (ds : List Int) (ts : List BusTurn) (n : Nat) (r : State),
      r = { s with port := p, budget := ds, bus := ts, freeCount := n }
      ∧ (t = r.resetEvent ∨ t = r ∨ ∃ i, exec i r = .next t) := by
  by_cases hq : s.resetReq = true
  · rw [step_resetReq hq] at h; injection h with h
    exact ⟨s.port, s.budget, s.bus, s.freeCount, _, rfl, .inl h.symm⟩
  · have hq : s.resetReq = false := by simpa using hq
    by_cases hp : s.port = []
    · refine ⟨s.supplied.port, s.supplied.budget, s.supplied.bus, s.supplied.freeCount, s.supplied, rfl, ?_⟩
      by_cases hr : s.runSet = 0
      · rw [step_idle hq hp hr] at h; injection h with h; exact .inr (.inl h.symm)
      · rw [step_loop hq hp hr] at h; exact .inr (.inr ⟨_, h⟩)
    · cases hd : decode s.port with
      | op i rest =>
        rw [step_of_op hq hd] at h
        exact ⟨rest, s.budget, s.bus, s.freeCount, _, rfl, .inr (.inr ⟨i, h⟩)⟩
      | reset rest =>
        rw [step_of_reset hq hd] at h; injection h with h
        exact ⟨rest, s.budget, s.bus, s.freeCount, _, rfl, .inl h.symm⟩
      | bad e => rw [step_of_bad hq hp hd] at h; cases h

/-! ### Steps in a row -/

theorem stepN_succ {n : Nat} {s t : State} (h : step s = .next t) : stepN (n + 1) s = stepN n t := by simp only [stepN, h]

theorem runN_succ {n : Nat} {s t : State} (h : exec .run s = .next t) : runN (n + 1) s = runN n t := by simp only [runN, h]

/-- One more step at the end. -/
theorem stepN_snoc {n : Nat} {s t u : State} (h : stepN n s = .next t) (hu : step t = .next u) :
    stepN (n + 1) s = .next u := by
  induction n generalizing s with
  | zero => injection h with h; subst h; simp only [stepN, hu]
  | succ n ih =>
    cases hs : step s with
    | next r => rw [stepN_succ hs] at h ⊢; exact ih h
    | fault f => cases f
    | refused r => simp only [stepN, hs] at h; cases h

/-! ### One operation -/

theorem exec_run {s : State} (h : s.runSet ≠ 0) : exec .run s = .next s.runEngine := by
  simp only [exec, execRun, if_neg h]

/-- No operation touches the port or the reset request. -/
theorem exec_port {i : Instr} {s t : State} (ht : exec i s = .next t) : t.port = s.port ∧ t.resetReq = s.resetReq := by
  by_cases hr : i = .run
  · subst hr
    by_cases h : s.runSet = 0
    · simp only [exec, execRun, if_pos h] at ht; cases ht
    · rw [exec_run h] at ht; injection ht with ht; subst ht; simp
  · cases i <;> first
      | exact absurd rfl hr
      | (simp only [exec] at ht; injection ht with ht; subst ht; first | exact ⟨rfl, rfl⟩ | simp)

/-- An operation other than `RUN` leaves the collaborators alone, and adds to the log at most the byte a read returns. -/
theorem exec_frame {i : Instr} {s t : State} (ht : exec i s = .next t) (hr : i ≠ .run) :
    t.mem = s.mem ∧ t.bus = s.bus ∧ t.budget = s.budget ∧ t.irqFlags = s.irqFlags ∧ t.cfg = s.cfg
      ∧ (t.log = s.log ∨ ∃ c off b, t.log = .regRead c off b :: s.log) := by
  cases i <;> first
    | exact absurd rfl hr
    | (simp only [exec] at ht; injection ht with ht; subst ht
       simp [State.returnByte, State.emit, State.writeSrcLane, State.writeDstLane, State.writeLenLane,
         State.writeCtlLo])

/-- A `Run` whose units keep `P` ends in a completion or a yield, each from a state with `P`. -/
theorem exec_run_cases {P : State → Prop} {s t : State} (ht : exec .run s = .next t) (h : P s)
    (hstep : ∀ (r : State) (ds : List Int) (u : UnitSize) (dSrc dDst : Int), P r →
      (r.chan s.current).internalLength ≠ 0 → P (State.transferUnit { r with budget := ds } s.current u dSrc dDst)) :
    ∃ r, P r ∧ ((t = r.complete s.current ∧ (r.chan s.current).internalLength = 0) ∨ t = r
      ∨ (∃ es, t = { r with budget := es }) ∨ ∃ es, t = { r with budget := es, interleaved := false }) := by
  simp only [exec, execRun] at ht
  split at ht
  · cases ht
  · injection ht with ht
    subst ht
    exact State.runLoop_cases (fun r ds p l _ => hstep r ds _ _ _ p l) s.budget s h

/-- A predicate of the block that calls, the advance, completion and a consumed preemption keep, every operation keeps. -/
theorem BlockStable.exec {P : State → Prop} (hP : BlockStable P) {i : Instr} {s t : State}
    (ht : Sys2Proof.Machine.exec i s = .next t) (h : P s)
    (hadv : ∀ (r : State) (ch : ChanIdx) (dSrc dDst : Int), P r → (r.chan ch).internalLength ≠ 0 →
      P (r.advance ch dSrc dDst))
    (hcomp : ∀ (r : State) (ch : ChanIdx), P r → (r.chan ch).internalLength = 0 → P (r.complete ch))
    (hclear : ∀ r : State, P r → P { r with interleaved := false }) : P t := by
  have hbud : ∀ (r : State) (x : List Int), P r → P { r with budget := x } :=
    fun r x hr => hP.congr hr rfl ⟨rfl, rfl, rfl, rfl, rfl⟩ rfl
  by_cases hr : i = .run
  · subst hr
    obtain ⟨r, pr, hh⟩ := exec_run_cases (P := P) ht h fun r ds u dSrc dDst pr hl =>
      hP.transferUnit (fun q hq hql => hadv q _ _ _ hq hql) (hbud r ds pr) hl
    rcases hh with ⟨hh, hz⟩ | hh | ⟨es, hh⟩ | ⟨es, hh⟩
    · subst hh; exact hcomp _ _ pr hz
    · subst hh; exact pr
    · subst hh; exact hbud _ _ pr
    · subst hh; exact hclear _ (hbud _ es pr)
  · cases i <;> first
      | exact absurd rfl hr
      | (simp only [Sys2Proof.Machine.exec] at ht; injection ht with ht; subst ht; first
         | exact h | exact hP.congr h rfl ⟨rfl, rfl, rfl, rfl, rfl⟩ rfl
         | exact hP.perform (.write _ 0 _) h | exact hP.perform (.write _ 1 _) h
         | exact hP.perform (.write _ 2 _) h | exact hP.perform (.write _ 3 _) h
         | exact hP.perform (.write _ 4 _) h | exact hP.perform (.write _ 5 _) h
         | exact hP.perform (.write _ 6 _) h | exact hP.perform (.write _ 7 _) h
         | exact hP.perform (.write _ 8 _) h | exact hP.perform (.write _ 9 _) h
         | exact hP.perform (.write _ 10 _) h | exact hP.perform (.write _ 11 _) h
         | exact hP.perform .hblank h | exact hP.perform .vblank h
         | exact hP.perform (.fifo .ch1) h | exact hP.perform (.fifo .ch2) h)

/-- And every step, where it holds after a reset event. -/
theorem BlockStable.step {P : State → Prop} (hP : BlockStable P) {s t : State}
    (ht : Sys2Proof.Machine.step s = .next t) (h : P s) (h0 : P s.resetEvent)
    (hadv : ∀ (r : State) (ch : ChanIdx) (dSrc dDst : Int), P r → (r.chan ch).internalLength ≠ 0 →
      P (r.advance ch dSrc dDst))
    (hcomp : ∀ (r : State) (ch : ChanIdx), P r → (r.chan ch).internalLength = 0 → P (r.complete ch))
    (hclear : ∀ r : State, P r → P { r with interleaved := false }) : P t := by
  obtain ⟨p, ds, ts, n, r, rfl, h' | h' | ⟨i, h'⟩⟩ := step_cases ht
  · subst h'; exact hP.congr h0 rfl ⟨rfl, rfl, rfl, rfl, rfl⟩ rfl
  · subst h'; exact hP.congr h rfl ⟨rfl, rfl, rfl, rfl, rfl⟩ rfl
  · exact hP.exec h' (hP.congr h rfl ⟨rfl, rfl, rfl, rfl, rfl⟩ rfl) hadv hcomp hclear

end Sys2Proof.Machine
end

