-- ==== Sys2Proof/Tests/Slice0.lean ====
section
/-! SUPPORT. Small tests of the decoder and of single operations, their expected values from 95_test_vectors.md (V-…, S…,
P…) or from the rule named; and for each claim with hypotheses a state that meets them. -/

namespace Sys2Proof.Tests

open Sys2Proof Sys2Proof.Machine

/-- The state a step answers, if it does. -/
def next? (o : Host.Outcome State Fault Refusal) : Option State :=
  match o with
  | .next s => some s
  | .fault _ => none
  | .refused _ => none

/-- `f` of the state after the operation whose bytes stand at the port. -/
def after {α : Type} (s : State) (bytes : List Byte) (f : State → α) : Option α :=
  (next? (step { s with port := bytes })).map f

/-- Why a step refuses. -/
def refusal? (o : Host.Outcome State Fault Refusal) : Option Refusal :=
  match o with
  | .next _ => none
  | .fault _ => none
  | .refused r => some r

/-- The reset state with channel `c` as given. -/
def chanState (c : ChanIdx) (x : Channel) : State := State.reset.setChan c x

/-- A channel programmed with source 0x02000000, destination 0x03000000 and length `n`. -/
def programmed (n : Half) : Channel :=
  { Channel.reset with srcAddress := 0x02000000, dstAddress := 0x03000000, length := n }

/-- The same armed: `n` units left, enabled. -/
def armed (n : Half) : Channel :=
  { programmed n with
    internalSrc := 0x02000000, internalDst := 0x03000000, internalLength := n.setWidth 32, enable := true }

/-- Channel `c` is armed with `n` units and runnable, a few bytes stand at the source, and the budget is as given. -/
def running (c : ChanIdx) (x : Channel) (budget : List Int) : State :=
  { chanState c x with
    runSet := insertChan 0 c, current := c, budget := budget
    mem := [(0x02000000, 0x34), (0x02000001, 0x12), (0x02000002, 0x78), (0x02000003, 0x56)] }

/-! ### Well-formedness: each check refuses an ill-formed term -/

theorem test_wf_refuses_write_offset_below_12 : (Instr.wRsvd 0 11 0).wf = false := by decide
theorem test_wf_refuses_read_offset_below_12 : (Instr.rRsvd 3 11).wf = false := by decide
theorem test_wf_refuses_overlapping_layout : CtlHiLayout.wf { CtlHiLayout.r63 with enable := 0 } = false := by decide
theorem test_config_wf_refuses_cartridge_source :
    Config.wf { Config.standard with cartridgeBits := 0x04000000 } = false := by decide
theorem test_memory_wf_refuses_unsorted : Memory.wf [(2, 1), (1, 1)] = false := by decide
theorem test_memory_wf_refuses_unwritten_value : Memory.wf [(1, 0)] = false := by decide
theorem test_memory_wf_refuses_high_address : Memory.wf [(4294967296, 1)] = false := by decide

/-! ### Decoding: words written out from the offset table (R61) and the entry points (R60) -/

theorem test_decode_W_SRC :
    decode [0x00, 0x00, 0x11, 0] = .op (.wSrc0 0 0x11) [] ∧ decode [0x01, 0x01, 0x22, 0] = .op (.wSrc1 1 0x22) []
    ∧ decode [0x02, 0x02, 0x33, 0] = .op (.wSrc2 2 0x33) []
    ∧ decode [0x03, 0x03, 0x44, 0] = .op (.wSrc3 3 0x44) [] := by decide
theorem test_decode_W_DST :
    decode [0x04, 0x00, 0x11, 0] = .op (.wDst0 0 0x11) [] ∧ decode [0x05, 0x01, 0x22, 0] = .op (.wDst1 1 0x22) []
    ∧ decode [0x06, 0x02, 0x33, 0] = .op (.wDst2 2 0x33) []
    ∧ decode [0x07, 0x03, 0x44, 0] = .op (.wDst3 3 0x44) [] := by decide
theorem test_decode_W_LEN :
    decode [0x08, 0x02, 0x05, 0] = .op (.wLen0 2 0x05) []
    ∧ decode [0x09, 0x02, 0xC0, 0] = .op (.wLen1 2 0xC0) [] := by decide
theorem test_decode_W_CTL :
    decode [0x0A, 0x01, 0x60, 0] = .op (.wCtlLo 1 0x60) []
    ∧ decode [0x0B, 0x01, 0xA6, 0, 0xEE] = .op (.wCtlHi 1 0xA6) [0xEE] := by decide
theorem test_decode_W_RSVD :
    decode [0x0C, 0x00, 0xFF, 0] = .op (.wRsvd 0 12 0xFF) []
    ∧ decode [0xFF, 0x02, 0x80, 0] = .op (.wRsvd 2 255 0x80) []
    ∧ decode [0x0B, 0x02, 0x80, 0x81, 0x01] = .op (.wRsvd 2 0x810B 0x80) [] := by decide
theorem test_decode_R_ZERO :
    decode [0x00, 0x04, 0, 0] = .op (.rZero0 0) [] ∧ decode [0x01, 0x05, 0, 0] = .op (.rZero1 1) []
    ∧ decode [0x02, 0x06, 0, 0] = .op (.rZero2 2) [] ∧ decode [0x03, 0x07, 0, 0] = .op (.rZero3 3) []
    ∧ decode [0x04, 0x04, 0, 0] = .op (.rZero4 0) [] ∧ decode [0x05, 0x05, 0, 0] = .op (.rZero5 1) []
    ∧ decode [0x06, 0x06, 0, 0] = .op (.rZero6 2) [] ∧ decode [0x07, 0x07, 0, 0] = .op (.rZero7 3) []
    ∧ decode [0x08, 0x04, 0, 0] = .op (.rZero8 0) [] ∧ decode [0x09, 0x05, 0, 0] = .op (.rZero9 1) [] := by
  decide
theorem test_decode_R_CTL :
    decode [0x0A, 0x04, 0, 0] = .op (.rCtlLo 0) [] ∧ decode [0x0B, 0x07, 0, 0] = .op (.rCtlHi 3) [] := by
  decide
theorem test_decode_R_RSVD :
    decode [0x0C, 0x07, 0, 0] = .op (.rRsvd 3 12) [] ∧ decode [0x00, 0x05, 0, 0x80, 0x80, 0x80, 0x80, 0x01] = .op (.rRsvd 1 68719476736) [] := by
  decide
theorem test_decode_EVT :
    decode [0x00, 0x08, 0, 0] = .op .triggerHBlank [] ∧ decode [0x01, 0x08, 0, 0] = .op .triggerVBlank []
    ∧ decode [0x02, 0x09, 0, 0] = .op .fifoRequest1 [] ∧ decode [0x02, 0x0A, 0, 0] = .op .fifoRequest2 []
    ∧ decode [0x03, 0x08, 0, 0] = .op .run [] := by decide
/-- What is no operation of the block is rejected by name (R60, R67; 93 I20). -/
theorem test_decode_errors :
    decode [] = .bad .truncated ∧ decode [0x00, 0x00, 0x11] = .bad .truncated
    ∧ decode [0x00, 0x00, 0x11, 0x80] = .bad .truncated ∧ decode [0x0C, 0x00, 0x11, 0x80, 0x00] = .bad .paddedOffset
    ∧ decode [0x01, 0x0C, 0, 0] = .bad .noSuchFormat ∧ decode [0x00, 0x10, 0, 0] = .bad .selectorBits
    ∧ decode [0x0A, 0x04, 0x01, 0] = .bad .strayOperand ∧ decode [0x03, 0x09, 0, 0] = .bad .strayOperand
    ∧ decode [0x04, 0x08, 0, 0] = .bad .noSuchEvent ∧ decode [0x02, 0x08, 0, 0] = .bad .notFifoChannel
    ∧ decode [0x02, 0x0B, 0, 0] = .bad .notFifoChannel := by decide
/-- The reset event's record is no operation (R60, R170); its neighbours are refused. -/
theorem test_decode_reset :
    decode [0x00, 0x0C, 0, 0, 0x07] = .reset [0x07] ∧ decode [0x00, 0x0D, 0, 0] = .bad .noSuchFormat
    ∧ decode [0x00, 0x0C, 1, 0] = .bad .noSuchFormat ∧ decode [0x00, 0x0C, 0, 1] = .bad .noSuchFormat := by decide
theorem test_table_words_are_register_writes :
    decodeTableWord 8 0 = some (.wSrc0 0 0) ∧ decodeTableWord 8 9 = some (.wLen1 0 0)
    ∧ decodeTableWord 8 11 = some (.wCtlHi 0 0) ∧ decodeTableWord 8 12 = some (.wRsvd 0 12 0) := by decide
theorem test_withFetchWord_is_the_next_step :
    (next? (step (State.reset.withFetchWord 8 5))).map (fun s => (s.port, s.chans)) = some ([], State.reset.chans) := by
  decide

/-! ### Register writes -/

/-- V-R1. -/
theorem test_W_SRC_merges_a_lane :
    after (chanState 2 { Channel.reset with srcAddress := 0x02000044 }) [0x01, 0x02, 0x33, 0]
      (fun s => (s.chan 2).srcAddress) = some 0x02003344
    ∧ after (chanState 2 { Channel.reset with srcAddress := 0x00000044 }) [0x03, 0x02, 0x02, 0]
      (fun s => (s.chan 2).srcAddress) = some 0x02000044 := by decide
theorem test_W_SRC_replaces_the_lane :
    after (chanState 2 { Channel.reset with srcAddress := 0x02FF3344 }) [0x02, 0x02, 0x00, 0]
      (fun s => (s.chan 2).srcAddress) = some 0x02003344
    ∧ after State.reset [0x00, 0x02, 0x44, 0] (fun s => (s.chan 2).srcAddress) = some 0x00000044 := by decide
/-- V-R1: stored unmasked. -/
theorem test_W_DST_is_unmasked :
    after State.reset [0x07, 0x02, 0xFB, 0] (fun s => ((s.chan 2).dstAddress, (s.chan 2).internalDst))
      = some (0xFB000000, 0) := by decide
/-- R82, R66: the other lanes stay. -/
theorem test_W_DST_low_lanes :
    after (chanState 1 (programmed 1)) [0x04, 0x01, 0x10, 0] (fun s => (s.chan 1).dstAddress) = some 0x03000010
    ∧ after (chanState 1 (programmed 1)) [0x05, 0x01, 0x20, 0] (fun s => (s.chan 1).dstAddress) = some 0x03002000
    ∧ after (chanState 1 (programmed 1)) [0x06, 0x01, 0x80, 0] (fun s => (s.chan 1).dstAddress) = some 0x03800000 := by
  decide
/-- V-R1. -/
theorem test_W_LEN_lanes :
    after State.reset [0x09, 0x02, 0xC0, 0] (fun s => (s.chan 2).length) = some 0xC000
    ∧ after (chanState 2 { Channel.reset with length := 0xC000 }) [0x08, 0x02, 0x05, 0] (fun s => (s.chan 2).length)
      = some 0xC005 := by decide
/-- V-R2: 0xFF is reload, source bit 0 set, bits 4:0 ignored. -/
theorem test_W_CTL_LO :
    after State.reset [0x0A, 0x01, 0xFF, 0]
      (fun s => ((s.chan 1).dstAddressControl, (s.chan 1).srcAddressControl)) = some (.incrementReload, .decrement) := by
  decide
/-- V-R4: the source control field is split over two bytes. -/
theorem test_W_CTL_LO_keeps_source_bit_1 :
    after (chanState 1 { Channel.reset with srcAddressControl := .fixed }) [0x0A, 0x01, 0x80, 0]
      (fun s => (s.chan 1).srcAddressControl) = some .reserved := by decide
/-- V-R6, with channel 0's masks; R88: vblank timing latches and schedules nothing. -/
theorem test_W_CTL_HI_latches :
    after (chanState 0 { programmed 0 with srcAddress := 0x0A000000, dstAddress := 0x0B008000 }) [0x0B, 0x00, 0x90, 0]
      (fun s => ((s.chan 0).internalSrc, (s.chan 0).internalDst, (s.chan 0).internalLength, s.vblankMask, s.runSet))
      = some (0x02000000, 0x03008000, 0x4000, 1, 0) := by decide
/-- V-R3, row 0x80. -/
theorem test_W_CTL_HI_immediate :
    after State.reset [0x0B, 0x03, 0x80, 0] (fun s => ((s.chan 3).internalLength, s.runSet, s.current, s.interleaved))
      = some (0x10000, 8, 3, false) := by decide
/-- V-R9. -/
theorem test_W_RSVD :
    after (chanState 0 (armed 3)) [0x0C, 0x00, 0xFF, 0] id = some (chanState 0 (armed 3)) := by decide

/-! ### Register reads -/

/-- V-R9: write-only registers read 0x00; one row for each offset. -/
theorem test_R_ZERO :
    after (chanState 0 (armed 0x1234)) [0x00, 0x04, 0, 0] State.log = some [.regRead 0 0 0]
    ∧ after (chanState 0 (armed 0x1234)) [0x03, 0x04, 0, 0] State.log = some [.regRead 0 3 0]
    ∧ after (chanState 0 (armed 0x1234)) [0x07, 0x04, 0, 0] State.log = some [.regRead 0 7 0]
    ∧ after (chanState 0 (armed 0x1234)) [0x08, 0x04, 0, 0] State.log = some [.regRead 0 8 0]
    ∧ after (chanState 0 (armed 0x1234)) [0x09, 0x04, 0, 0] State.log = some [.regRead 0 9 0] := by decide
/-- V-R2, last column. -/
theorem test_R_CTL_LO :
    after (chanState 1 { Channel.reset with dstAddressControl := .incrementReload, srcAddressControl := .reserved })
      [0x0A, 0x05, 0, 0] State.log = some [.regRead 1 10 0xE0] := by decide
/-- V-C5: `R 2,11 -> 0x70`, interrupt and special timing, `enable` cleared. -/
theorem test_R_CTL_HI :
    after (chanState 2 { Channel.reset with interruptOnCompletion := true, timingMode := .special })
      [0x0B, 0x06, 0, 0] State.log = some [.regRead 2 11 0x70] := by decide
/-- V-R3: one bit at a time. -/
theorem test_R_CTL_HI_bits :
    Channel.ctlHi { Channel.reset with srcAddressControl := .fixed } .r63 = 0x01
    ∧ Channel.ctlHi { Channel.reset with repeats := true } .r63 = 0x02
    ∧ Channel.ctlHi { Channel.reset with unitSize := .word } .r63 = 0x04
    ∧ Channel.ctlHi { Channel.reset with allowGamepakDrive := true } .r63 = 0x08
    ∧ Channel.ctlHi { Channel.reset with timingMode := .vblank } .r63 = 0x10
    ∧ Channel.ctlHi { Channel.reset with timingMode := .hblank } .r63 = 0x20
    ∧ Channel.ctlHi { Channel.reset with enable := true } .r63 = 0x80 := by decide
/-- V-R9. -/
theorem test_R_RSVD : after State.reset [0x0C, 0x07, 0, 0] State.log = some [.regRead 3 12 0] := by decide

/-! ### Arbitrator, triggers, demand -/

/-- V-A2, rows of the transition table. -/
theorem test_markRunnable :
    (State.markRunnable { State.reset with runSet := 14, current := 1 } 0).runSet = 15
    ∧ (State.markRunnable { State.reset with runSet := 14, current := 1 } 0).interleaved = true
    ∧ (State.markRunnable { State.reset with runSet := 1, current := 0 } 3).current = 0
    ∧ (State.markRunnable { State.reset with runSet := 0, current := 3 } 0).interleaved = false := by decide
/-- V-T4. -/
theorem test_FIFO_REQUEST_preempts :
    after { State.reset with runSet := 8, current := 3 } [0x02, 0x09, 0, 0]
      (fun s => (s.runSet, s.current, s.interleaved)) = some (10, 1, true) := by decide
theorem test_FIFO_REQUEST_on_the_empty_set :
    after State.reset [0x02, 0x0A, 0, 0] (fun s => (s.runSet, s.current, s.interleaved)) = some (4, 2, false) := by
  decide
/-- V-T1. -/
theorem test_TRIGGER_HBLANK_with_nothing_runnable :
    after { State.reset with hblankMask := 2 } [0x00, 0x08, 0, 0] id = some { State.reset with hblankMask := 2 } := by
  decide
/-- R140, R101, in a state whose `current` is not the lowest: the documented rule marks channel 1 again. -/
theorem test_TRIGGER_HBLANK_remarks :
    after { State.reset with hblankMask := 2, runSet := 10, current := 3 } [0x00, 0x08, 0, 0]
      (fun s => (s.runSet, s.current, s.interleaved)) = some (10, 1, true) := by decide
theorem test_TRIGGER_VBLANK_remarks :
    after { State.reset with vblankMask := 2, runSet := 10, current := 3 } [0x01, 0x08, 0, 0]
      (fun s => (s.runSet, s.current, s.interleaved)) = some (10, 1, true) := by decide
/-- R144, the optional variant: it marks the enabled channels of the mode, lowest first. -/
theorem test_TRIGGER_VBLANK_scan :
    after { chanState 2 { armed 2 with timingMode := .vblank } with cfg := { Config.standard with trigger := .scan } }
      [0x01, 0x08, 0, 0] (fun s => (s.runSet, s.current)) = some (4, 2) := by decide

/-! ### The transfer engine -/

/-- Program P1's shape with one word: the copy, the bus accesses, completion without repeat (V-C1). -/
theorem test_RUN_copies_a_word :
    after (running 0 { armed 1 with unitSize := .word } [1]) [0x03, 0x08, 0, 0]
      (fun s => (Memory.read s.mem 0x03000003, (s.chan 0).internalSrc, (s.chan 0).enable, s.runSet, s.log))
      = some (0x56, 0x02000004, false, 0,
        [.busWrite .sequential 0x03000000 (.word 0x56781234), .busRead .sequential 0x02000000 (.word 0x56781234)]) := by
  decide
/-- V-E5: the exhausted budget comes before the flag. -/
theorem test_RUN_budget_before_flag :
    after { running 3 (armed 2) [0] with interleaved := true } [0x03, 0x08, 0, 0]
      (fun s => (s.interleaved, s.log, (s.chan 3).internalLength)) = some (true, [], 2) := by decide
/-- V-E6: no unit left completes at once, with the interrupt (R120). -/
theorem test_RUN_zero_length_entry :
    after { chanState 1 { Channel.reset with interruptOnCompletion := true } with runSet := 2, current := 1 }
      [0x03, 0x08, 0, 0] (fun s => (s.log, s.irqFlags, s.runSet)) = some ([.irq 1], 0x0200, 0) := by decide
/-- R110, D8. -/
theorem test_RUN_with_nothing_runnable_is_refused :
    refusal? (step { State.reset with port := [0x03, 0x08, 0, 0] }) = some .runNotPending := by decide
/-- V-E3: the running address wraps and is not masked again. -/
theorem test_unit_addresses_wrap :
    (fun x : Channel => (x.internalSrc, x.internalDst)) ((State.transferUnit (chanState 3 { Channel.reset with
      internalSrc := 0x00000000, internalDst := 0x0FFFFFFC, internalLength := 2 }) 3 .word (-4) 4).chan 3)
      = (0xFFFFFFFC, 0x10000000) := by decide
/-- R187: a halfword stored to the control bytes of channel 0 arms it; channel 3 is preempted. -/
theorem test_unit_writes_the_register_block :
    (fun s : State => (s.runSet, s.current, s.interleaved, (s.chan 0).internalLength))
      (State.transferUnit { running 3 { armed 2 with internalDst := 0x040000BA } [] with
        mem := [(0x02000000, 0x60), (0x02000001, 0x84)] } 3 .halfword 2 2) = (9, 0, true, 0x4000) := by decide

/-! ### Completion -/

/-- V-C3: the length and the masked destination are reloaded, the source is not. -/
theorem test_complete_repeat_reload :
    (fun x : Channel => (x.internalLength, x.internalDst, x.internalSrc, x.enable))
      ((State.complete (running 0 { armed 3 with
        internalLength := 0, internalSrc := 0x02000010, internalDst := 0x03000008, dstAddress := 0x0B000100
        repeats := true, dstAddressControl := .incrementReload } []) 0).chan 0) = (3, 0x03000100, 0x02000010, true) := by
  decide
/-- V-C7: completion reselects. -/
theorem test_complete_reselects :
    (fun s : State => (s.runSet, s.current))
      (State.complete { chanState 0 { armed 1 with internalLength := 0 } with runSet := 9, current := 0 } 0) = (8, 3) := by
  decide
/-- R170. -/
theorem test_reset_event :
    (next? (step { running 3 (armed 2) [1] with resetReq := true, interleaved := true })).map
      (fun s => (s.chans, s.runSet, s.current, s.interleaved, s.resetReq)) = some (State.reset.chans, 0, 0, false, false) := by
  decide
/-- R170: a reset event in its place at the port; what follows it stays there. -/
theorem test_reset_event_at_the_port :
    (next? (step { running 3 (armed 2) [1] with port := resetRecord ++ eventRecord 3 0 })).map
      (fun s => (s.chans, s.runSet, s.port)) = some (State.reset.chans, 0, eventRecord 3 0) := by decide
/-- R32, R170: with nothing pending an empty port leaves the block as it is. -/
theorem test_step_idle :
    (next? (step State.reset)).map (fun s => (s.chans, s.runSet, s.log)) = some (State.reset.chans, 0, []) := by decide
/-- R104, R190: with something pending an empty port brings `RUN`; here no unit is left, so it completes (R125). -/
theorem test_step_runs_while_pending :
    (next? (step (running 3 (armed 0) [1]))).map (fun s => (s.runSet, (s.chan 3).enable)) = some (0, false) := by decide
/-- S2: length 0 and lengths above the mask. -/
theorem test_latchLength :
    latchLength 0x3FFF 0 = 0x4000 ∧ latchLength 0xFFFF 0 = 0x10000 ∧ latchLength 0x3FFF 0x4000 = 0x4000
    ∧ latchLength 0x3FFF 0xC005 = 5 ∧ latchLength 0xFFFF 0xC005 = 0xC005 := by decide

/-! ### Hypotheses are met -/

theorem witness_StepExecutesTheOperationAtThePort : State.resetReq { State.reset with port := eventRecord 3 0 } = false
    ∧ decode (eventRecord 3 0) = .op .run [] := by decide
theorem witness_StepIdlesOrRuns : State.reset.resetReq = false ∧ State.reset.port = [] ∧ State.reset.runSet = 0
    ∧ (running 3 (armed 2) []).resetReq = false ∧ (running 3 (armed 2) []).port = [] ∧ (running 3 (armed 2) []).runSet ≠ 0
    ∧ ([0xFF] : List Byte) ≠ [] ∧ decode [0xFF] = .bad .truncated := by decide
theorem witness_ResetEventClearsTheBlockOnly : State.resetReq { State.reset with resetReq := true } = true
    ∧ State.reset.resetReq = false ∧ State.port { State.reset with port := [0x00, 0x0C, 0, 0, 0x03] } = resetRecord ++ [0x03] := by
  decide
theorem witness_DecodeReadsBackEveryEncoding : (Instr.wRsvd 3 12 0xFF).wf = true ∧ (Instr.rRsvd 0 (2 ^ 100)).wf = true
    ∧ Instr.run.wf = true := by decide
/-- The offsets where the clauses of the two dispatch claims meet. -/
theorem witness_Dispatch : (3 : Nat) = (3 : Fin 4).val ∧ (4 : Nat) = 4 + (0 : Fin 4).val
    ∧ (7 : Nat) = 4 + (3 : Fin 4).val ∧ (8 : Nat) = 8 + (0 : Fin 2).val ∧ (9 : Nat) = 8 + (1 : Fin 2).val
    ∧ (9 : Nat) = (9 : Fin 10).val ∧ (12 : Nat) ≤ 12 := by decide
theorem witness_WDst : (Channel.dstAddressControl (State.chan (chanState 0 { Channel.reset with
    dstAddressControl := .incrementReload }) 0)) = .incrementReload := by decide
/-- Offset 8 written 0 on length 0 leaves length 0: the last clause. -/
theorem witness_WLen : exec (.wLen0 0 0) State.reset = .next (State.reset.setChan 0 { State.reset.chan 0 with length := 0 }) :=
  rfl
theorem witness_RisingEdge_immediate : (State.reset.chan 0).enable = false
    ∧ (0x80#8).getLsbD State.reset.cfg.ctlHi.enable = true
    ∧ ((State.reset.writeCtlHi 0 0x80).chan 0).timingMode = .immediate := by decide
theorem witness_RisingEdge_other : (0xA0#8).getLsbD State.reset.cfg.ctlHi.enable = true
    ∧ ((State.reset.writeCtlHi 0 0xA0).chan 0).timingMode ≠ .immediate := by decide
theorem witness_NoRisingEdge : ((chanState 0 (armed 1)).chan 0).enable = true
    ∧ (0x00#8).getLsbD State.reset.cfg.ctlHi.enable = false := by decide
theorem witness_LatchedAddresses : State.reset.cfg.wf = true ∧ (State.reset.chan 0).enable = false
    ∧ (0x80#8).getLsbD State.reset.cfg.ctlHi.enable = true ∧ ∃ t, exec (.wCtlHi 0 0x80) State.reset = .next t := by
  refine ⟨by decide, by decide, by decide, _, rfl⟩
theorem witness_RCtlHi : State.reset.cfg.ctlHi.wf = true := by decide
theorem witness_LowestIsTheLeastMember : lowest? 0 = none ∧ lowest? 8 = some 3 ∧ lowest? 10 = some 1 := by decide
theorem witness_MarkRunnable : State.reset.runSet = 0
    ∧ (State.runSet { State.reset with runSet := 12, current := 2 } ≠ 0 ∧ (1 : ChanIdx) < 2)
    ∧ (State.runSet { State.reset with runSet := 12, current := 2 } ≠ 0 ∧ (2 : ChanIdx) ≤ 2) := by decide
/-- S3, both columns. -/
theorem witness_LowerIndexedOfTwo : ∀ a b : ChanIdx, (a = 1 ∧ b = 2) ∨ (a = 2 ∧ b = 1) →
    ∃ t u, exec (.wCtlHi a 0x80) State.reset = .next t ∧ exec (.wCtlHi b 0x80) t = .next u
      ∧ State.reset.runSet = 0 ∧ (State.reset.chan a).enable = false ∧ (State.reset.chan b).enable = false
      ∧ (0x80#8).getLsbD State.reset.cfg.ctlHi.enable = true
      ∧ (u.chan a).timingMode = .immediate ∧ (u.chan b).timingMode = .immediate ∧ (u.chan 1).repeats = false := by
  rintro a b (⟨rfl, rfl⟩ | ⟨rfl, rfl⟩) <;>
    exact ⟨_, _, rfl, rfl, by decide, by decide, by decide, by decide, by decide, by decide, by decide⟩
theorem witness_BlankTriggers : State.reset.cfg.trigger = .documented
    ∧ lowest? (10#4 &&& 2#4) = some 1 ∧ State.reset.runSet &&& State.reset.hblankMask = 0
    ∧ State.reset.runSet &&& State.reset.vblankMask = 0 := by decide
theorem witness_DocumentedBlankTriggersAreInert :
    State.CurrentIsLowest { State.reset with runSet := 2, current := 1, hblankMask := 2 } := fun _ => by decide
theorem witness_ScanTriggers :
    Config.trigger (State.cfg { State.reset with cfg := { Config.standard with trigger := .scan } }) = .scan := by decide
theorem witness_EveryOperationRunsButRun : State.reset.runSet = 0 := by decide
theorem witness_RunWithNoBudget : (running 3 (armed 2) []).runSet ≠ 0
    ∧ ((running 3 (armed 2) []).chan (running 3 (armed 2) []).current).internalLength ≠ 0
    ∧ (running 3 (armed 2) []).budget = [] ∧ (running 3 (armed 2) [0]).budget = [0] ∧ (0 : Int) ≤ 0 := by decide
theorem witness_RunConsumesThePreemptionFlag : State.runSet { running 3 (armed 2) [1] with interleaved := true } ≠ 0
    ∧ ((running 3 (armed 2) [1]).chan 3).internalLength ≠ 0 ∧ (running 3 (armed 2) [1]).budget = [1] ∧ (0 : Int) < 1 := by
  decide
theorem witness_RunWithNoUnitLeft : (running 3 (armed 0) []).runSet ≠ 0
    ∧ ((running 3 (armed 0) []).chan (running 3 (armed 0) []).current).internalLength = 0 := by decide
/-- Channel 3 repeats at once and for ever, with a destination that stays where it is. -/
def endless : State := running 3 { armed 2 with repeats := true, dstAddressControl := .fixed } [1, 1, 1]
theorem witness_EndlessRepeat_signals :
    State.PortHoldsSignals { endless with port := resetRecord ++ writeRecord 1 300 0xFF ++ eventRecord 2 1 } :=
  ⟨[.reset, .call (.write 1 300 0xFF), .call (.fifo .ch1)], by decide⟩
theorem witness_EndlessRepeat_operation : endless.EndlessRepeat 3 ∧ (Instr.wCtlHi 2 0x80) ≠ .run
    ∧ (∀ b, Instr.wCtlHi 2 0x80 ≠ .wCtlHi 3 b) ∧ ∃ t, exec (.wCtlHi 2 0x80) endless = .next t :=
  ⟨⟨by decide, by decide, by decide⟩, by decide, fun _ h => by injection h with h; exact absurd h (by decide), _, rfl⟩
theorem witness_EndlessRepeat_run : endless.EndlessRepeat 3 ∧ endless.CurrentIsLowest ∧ endless.current = 3
    ∧ endless.bus = [] ∧ endless.DestinationStaysPlain 3 := by
  refine ⟨⟨by decide, by decide, by decide⟩, fun _ => by decide, by decide, by decide, fun k => ?_⟩
  have e : ∀ b : Word, unitAddr b 0 k = b := fun b => by simp [unitAddr]
  have h : endless.dstDelta 3 = 0 := by decide
  rw [State.writeAddr, h, e, e]
  decide
theorem witness_LatchLength : (0x4000#16 &&& 0x3FFF#16 = 0) ∧ (0x3FFF#16 &&& 0x3FFF#16 ≠ 0) := by decide
theorem witness_UnitCopies : Memory.wf (running 3 (armed 2) []).mem = true ∧ (running 3 (armed 2) []).bus = []
    ∧ plainUnit (running 3 (armed 2) []).cfg .word ((running 3 (armed 2) []).chan 3).internalSrc = true
    ∧ plainUnit (running 3 (armed 2) []).cfg .word ((running 3 (armed 2) []).chan 3).internalDst = true := by decide
theorem witness_UnitPassesAddresses : State.reset.turn.calls = [] ∧ State.reset.nextTurn.turn.calls = [] := by decide
/-- A word in the register blocks: the source address of channel 1. -/
theorem witness_NestedOperations_unit :
    let s := running 3 { armed 2 with unitSize := .word, internalDst := 0x040000BC } []
    s.bus = [] ∧ aligned .word (s.chan 3).internalSrc = true ∧ aligned .word (s.chan 3).internalDst = true
      ∧ (unitAddrs .word (s.chan 3).internalDst).all (fun x => registerAt s.cfg x != none) = true
      ∧ registerAt s.cfg (s.chan 3).internalDst = some (1, 0) ∧ registerAt s.cfg 0x040000DF = some (3, 11)
      ∧ registerAt s.cfg 0x040000E0 = none := by decide
/-- R187, R81: that word reaches `srcAddress` of channel 1, lane by lane. -/
theorem test_unit_writes_a_source_address :
    (fun s : State => ((s.chan 1).srcAddress, (s.chan 1).dstAddress))
      (State.transferUnit (running 3 { armed 2 with unitSize := .word, internalDst := 0x040000BC } []) 3 .word 4 4)
      = (0x56781234, 0) := by decide
theorem witness_NestedOperations_call : exec (Call.instr (.write 1 9 0xC0)) State.reset
    = .next (State.reset.setChan 1 { State.reset.chan 1 with length := 0xC000 }) := rfl
/-- The state of `test_unit_writes_the_register_block`. -/
theorem witness_NestedOperations_controlBytes :
    let s := { running 3 { armed 2 with internalDst := 0x040000BA } [] with
      mem := [(0x02000000, 0x60), (0x02000001, 0x84)] }
    s.bus = [] ∧ s.cfg.halfLanes = [0, 1] ∧ aligned .halfword (s.chan 3).internalSrc = true
      ∧ aligned .halfword (s.chan 3).internalDst = true
      ∧ s.loadUnit .halfword (s.chan 3).internalSrc = .half ((0x84#8) ++ (0x60#8))
      ∧ registerAt s.cfg (s.chan 3).internalDst = some (0, 10)
      ∧ registerAt s.cfg ((s.chan 3).internalDst + 1) = some (0, 11) := by decide
/-- Two units, budget for them and one more. -/
theorem witness_RunPerformsAllRemainingUnits :
    let s := running 3 (armed 2) [1, 5, 0]
    s.runSet ≠ 0 ∧ (s.chan s.current).internalLength.toNat = 2 ∧ 2 ≤ s.budget.length ∧ (∀ d ∈ s.budget.take 2, 0 < d)
      ∧ s.interleaved = false ∧ s.bus = []
      ∧ ∀ k, k < 2 → plainUnit s.cfg (s.chan s.current).unitSize (s.writeAddr s.current k) = true := by decide
theorem witness_RunCopiesADisjointBlock :
    let s := running 3 (armed 2) [1, 5, 0]
    Memory.wf s.mem = true ∧ s.srcDelta s.current = UnitSize.bytes .halfword
      ∧ s.dstDelta s.current = UnitSize.bytes .halfword
      ∧ (s.chan s.current).unitSize = .halfword ∧ (s.chan s.current).internalSrc = 0x02000000
      ∧ (s.chan s.current).internalDst = 0x03000000 ∧ aligned .halfword 0x02000000 = true
      ∧ aligned .halfword 0x03000000 = true
      ∧ ∀ j, j < 2 * 2 → registerAt s.cfg (byteAddr 0x02000000 j) = none ∧ registerAt s.cfg (byteAddr 0x03000000 j) = none := by
  decide
theorem witness_RunCopiesADisjointBlock_apart : (0x02000000#32).toNat + 2 * UnitSize.bytes .halfword ≤ 4294967296
    ∧ (0x03000000#32).toNat + 2 * UnitSize.bytes .halfword ≤ 4294967296
    ∧ (0x02000000#32).toNat + 2 * UnitSize.bytes .halfword ≤ (0x03000000#32).toNat := by simp [UnitSize.bytes]
/-- One unit before the yield, one after it. -/
theorem witness_BudgetYield :
    let s := running 3 (armed 2) []
    s.runSet ≠ 0 ∧ (∀ d ∈ ([1] : List Int), 0 < d) ∧ ([1] : List Int).length < (s.chan s.current).internalLength.toNat
      ∧ s.interleaved = false ∧ s.bus = []
      ∧ ∀ k, k < 1 → plainUnit s.cfg (s.chan s.current).unitSize (s.writeAddr s.current k) = true := by decide
theorem witness_PreemptionInsideARun :
    let s := { running 3 (armed 2) [1, 1] with bus := [.quiet, { BusTurn.quiet with calls := [.fifo .ch2] }] }
    s.runSet ≠ 0 ∧ FifoChan.idx .ch2 < s.current ∧ 2 ≤ (s.chan s.current).internalLength.toNat
      ∧ s.interleaved = false ∧ plainUnit s.cfg (s.chan s.current).unitSize (s.writeAddr s.current 0) = true := by decide
theorem witness_PreemptionBetweenRuns : ∃ t, exec (.wCtlHi 0 0x80) (running 3 (armed 2) []) = .next t
    ∧ (running 3 (armed 2) []).runSet ≠ 0 ∧ (0 : ChanIdx) < (running 3 (armed 2) []).current
    ∧ ((running 3 (armed 2) []).chan 0).enable = false
    ∧ (0x80#8).getLsbD (running 3 (armed 2) []).cfg.ctlHi.enable = true ∧ (t.chan 0).timingMode = .immediate :=
  ⟨_, rfl, by decide, by decide, by decide, by decide, by decide⟩
theorem witness_RunTouchesOnlyTheCapturedChannel :
    let s := running 3 (armed 2) [1, 0]
    s.runSet ≠ 0 ∧ s.bus = [] ∧ (s.chan s.current).internalLength.toNat = 2 ∧ (∀ k, k < 2 →
      ∀ x ∈ unitAddrs (s.chan s.current).unitSize (s.writeAddr s.current k), registerAt s.cfg x = none) := by
  refine ⟨by decide, by decide, by decide, ?_⟩
  have h : ∀ k, k < 2 → (unitAddrs .halfword ((running 3 (armed 2) [1, 0]).writeAddr 3 k)).all
      (fun x => (registerAt (running 3 (armed 2) [1, 0]).cfg x).isNone) = true := by decide
  intro k hk x hx
  exact Option.isNone_iff_eq_none.mp (List.all_eq_true.mp (h k hk) x hx)
theorem witness_Run_answers : ∃ t, exec .run (running 3 (armed 2) [1, 0]) = .next t := ⟨_, rfl⟩
theorem witness_Completion : ((running 3 { armed 0 with interruptOnCompletion := true } []).chan 3).interruptOnCompletion = true
    ∧ ((running 3 (armed 0) []).chan 3).interruptOnCompletion = false
    ∧ ((running 3 { armed 0 with repeats := true } []).chan 3).repeats = true
    ∧ ((running 3 (armed 0) []).chan 3).repeats = false := by decide
theorem witness_CompletionReselects :
    (State.complete { chanState 0 (armed 0) with runSet := 9, current := 0 } 0).runSet ≠ 0
    ∧ (State.complete (running 3 (armed 0) []) 3).runSet = 0 := by decide
/-- A level write, and another channel's rising edge, leave the internal fields of channel 0. -/
theorem witness_OnlyLatchAndRunTouchInternalFields : (∃ t, exec (.wCtlHi 1 0x80) State.reset = .next t)
    ∧ Instr.wCtlHi 1 0x80 ≠ .run ∧ ∀ b, Instr.wCtlHi 1 0x80 = .wCtlHi 0 b → False :=
  ⟨⟨_, rfl⟩, by decide, fun _ h => by cases h⟩
/-- The second case: one unit, then the configured request. -/
theorem witness_InterruptRequests : (next? (exec .run (running 3 { armed 1 with interruptOnCompletion := true } [1]))).map
    (fun t => (irqsOf t.log, t.irqFlags)) = some ([3], 0x0800) := by decide
theorem witness_OnlyRunReachesTheBus : ∃ t, exec .fifoRequest1 State.reset = .next t := ⟨_, rfl⟩
theorem witness_StepKeeps : (∃ t, step { running 3 (armed 2) [1, 0] with port := eventRecord 3 0 } = .next t)
    ∧ State.CurrentIsLowest { running 3 (armed 2) [1, 0] with port := eventRecord 3 0 }
    ∧ State.MemoryCanonical { running 3 (armed 2) [1, 0] with port := eventRecord 3 0 }
    ∧ State.LengthsBounded { running 3 (armed 2) [1, 0] with port := eventRecord 3 0 }
    ∧ State.MasksMatchTiming { running 3 (armed 2) [1, 0] with port := eventRecord 3 0 } :=
  ⟨⟨_, rfl⟩, fun _ => by decide, by unfold State.MemoryCanonical; decide, by unfold State.LengthsBounded; decide,
    by unfold State.MasksMatchTiming; decide⟩

end Sys2Proof.Tests
end

/-! Proofs of the statements about the scope (00_scope.md): what a step takes, which operations answer, what the parameters
are, and where a latched address can lie. -/

namespace Sys2Proof.Machine

/-! ### Operations answer (R6, R110) -/

/-- D8: `RUN` is refused while nothing is runnable. -/
theorem exec_run_refused {s : State} (h : s.runSet = 0) : exec .run s = .refused .runNotPending := by
  simp only [exec, execRun, if_pos h]

/-- Every operation but `RUN` is a total function of the state. -/
theorem exec_answers {i : Instr} (hi : i ≠ .run) (s : State) : ∃ t, exec i s = .next t := by
  cases i with
  | run => exact absurd rfl hi
  | _ => exact ⟨_, rfl⟩

theorem exec_run_answers_iff (s : State) : (∃ t, exec .run s = .next t) ↔ s.runSet ≠ 0 := by
  constructor
  · rintro ⟨t, ht⟩ h0
    rw [exec_run_refused h0] at ht
    cases ht
  · exact fun h => ⟨_, exec_run h⟩

/-! ### Parameters are constants (R5) -/

theorem exec_cfg {i : Instr} {s t : State} (h : exec i s = .next t) : t.cfg = s.cfg := by
  by_cases hi : i = .run
  · subst hi
    rw [exec_run ((exec_run_answers_iff s).mp ⟨t, h⟩)] at h
    cases h
    exact s.runEngine_cfg
  · obtain ⟨_, _, _, _, hcfg, _⟩ := exec_frame h hi
    exact hcfg

/-! ### The latch at a rising edge (R87) -/

@[simp] theorem State.latch_chan_same (s : State) (c : ChanIdx) :
    (s.latch c).chan c = { s.chan c with
      internalSrc := (s.chan c).srcAddress &&& s.cfg.srcMask.get c
      internalDst := (s.chan c).dstAddress &&& s.cfg.dstMask.get c
      internalLength := latchLength (s.cfg.lenMask.get c) (s.chan c).length } :=
  State.chan_setChan_same _ _ _

/-- Handing a channel to the arbitrator changes no channel, so arming is the latch as far as channels go. -/
@[simp] theorem State.arm_chan (s : State) (c d : ChanIdx) : (s.arm c).chan d = (s.latch c).chan d := by
  unfold State.arm
  split
  · exact State.markRunnable_chan _ _ _
  · rfl

@[simp] theorem State.storeCtlHi_chan_same (s : State) (c : ChanIdx) (b : Byte) :
    (s.storeCtlHi c b).chan c = (s.chan c).storeCtlHi s.cfg.ctlHi b := by
  simp [State.storeCtlHi]

/-- R87: with a rising edge the written channel holds the stored fields, and internal fields taken from the programmed
ones, masked. -/
theorem State.writeCtlHi_chan_of_rising {s : State} {c : ChanIdx} {b : Byte}
    (h : risingEdge (s.chan c).enable (b.getLsbD s.cfg.ctlHi.enable) = true) :
    (s.writeCtlHi c b).chan c = { (s.chan c).storeCtlHi s.cfg.ctlHi b with
      internalSrc := (s.chan c).srcAddress &&& s.cfg.srcMask.get c
      internalDst := (s.chan c).dstAddress &&& s.cfg.dstMask.get c
      internalLength := latchLength (s.cfg.lenMask.get c) (s.chan c).length } := by
  rw [State.writeCtlHi_rising h, State.arm_chan, State.latch_chan_same, State.storeCtlHi_chan_same]
  rfl

/-! ### Ranges (R5, R24, R50) -/

theorem and_le_mask {w : Nat} (a m : BitVec w) : a &&& m ≤ m := by
  rw [BitVec.le_def, BitVec.toNat_and]
  exact Nat.and_le_right

/-- R5: channel 0's source mask shares no bit with cartridge space. -/
theorem srcMask_and_cartridgeBits_of_wf {g : Config} (h : g.wf = true) : g.srcMask.get 0 &&& g.cartridgeBits = 0 := by
  have hc0 : g.srcMask.c0 &&& g.cartridgeBits = 0 := by
    simp only [Config.wf, Bool.and_eq_true, decide_eq_true_eq] at h
    tauto
  exact hc0

/-- Settles O18: the latched fields are the programmed ones under the channel's masks, and R5 keeps channel 0's source mask
free of cartridge bits. -/
theorem latchedAddressesLieInTheChannelRange : Obligations.LatchedAddressesLieInTheChannelRange := by
  intro c b s t hwf hwas hnow ht
  have hedge : risingEdge (s.chan c).enable (b.getLsbD s.cfg.ctlHi.enable) = true := by
    rw [hwas, hnow]; rfl
  have hs : t = s.writeCtlHi c b := by cases ht; rfl
  rw [hs, State.writeCtlHi_chan_of_rising hedge]
  refine ⟨and_le_mask _ _, and_le_mask _ _, ?_⟩
  rintro rfl
  rw [BitVec.and_assoc, srcMask_and_cartridgeBits_of_wf hwf]
  exact BitVec.and_zero

/-- Settles O31: `RUN` answers exactly when something is runnable, and every other operation always. -/
theorem everyOperationRunsButRunWithNothingRunnable : Obligations.EveryOperationRunsButRunWithNothingRunnable := by
  refine ⟨fun i s => ?_, fun s h => exec_run_refused h⟩
  by_cases hi : i = .run
  · subst hi
    simpa using exec_run_answers_iff s
  · exact iff_of_true (exec_answers hi s) fun h => hi h.1

/-- Settles O55, by what a step can be: the reset event, nothing, or one operation. -/
theorem stepKeepsTheConfiguration : Obligations.StepKeepsTheConfiguration := by
  intro s t h
  obtain ⟨_, _, _, _, r, rfl, rfl | rfl | ⟨_, hexec⟩⟩ := step_cases h
  · rfl
  · rfl
  · exact (exec_cfg hexec :)

/-- Settles O2, by what `step` does with bytes that decode to an operation. -/
theorem stepExecutesTheOperationAtThePort : Obligations.StepExecutesTheOperationAtThePort :=
  fun _ _ _ hreq hop => step_of_op hreq hop

end Sys2Proof.Machine

/-! Proofs of the statements about the state (10_state.md): reset, field codes, the latched length, an empty port, and the
invariants R26 and R28. -/

namespace Sys2Proof.Machine

/-! ### `current` is the lowest runnable channel (R28) -/

theorem State.currentIsLowest_of_empty {s : State} (h : s.runSet = 0) : s.CurrentIsLowest := fun h0 => absurd h h0

theorem State.advance_lowest {s : State} (h : s.CurrentIsLowest) (ch : ChanIdx) (dSrc dDst : Int) :
    (s.advance ch dSrc dDst).CurrentIsLowest :=
  h.congr rfl rfl

/-- Settles O56: the calls nested in a `RUN` keep R28 by `markRunnable`, a completion restores it by `reselect`, and all
else that a step does leaves the schedule alone or empties it. -/
theorem stepKeepsCurrentLowest : Obligations.StepKeepsCurrentLowest :=
  fun s _ hs ht => currentIsLowest_stable.step ht hs
    (State.currentIsLowest_of_empty (s := s.resetEvent) rfl)
    (fun _ ch dSrc dDst hr _ => State.advance_lowest hr ch dSrc dDst)
    (fun r ch _ _ => r.complete_lowest ch)
    (fun _ hr => hr.congr rfl rfl)

/-! ### The blank masks agree with the timing modes (R26) -/

/-- A state with the masks and the timing modes of one that satisfies R26 satisfies it. -/
theorem State.MasksMatchTiming.congr {s t : State} (hs : s.MasksMatchTiming) (hh : t.hblankMask = s.hblankMask)
    (hv : t.vblankMask = s.vblankMask) (hm : ∀ c, (t.chan c).timingMode = (s.chan c).timingMode) :
    t.MasksMatchTiming := fun c => by
  rw [hh, hv, hm]
  exact hs c

theorem State.masksMatchTiming_of_empty {s : State} (hh : s.hblankMask = 0) (hv : s.vblankMask = 0)
    (hm : ∀ c, (s.chan c).timingMode = .immediate) : s.MasksMatchTiming := fun c => by
  simp [hh, hv, hm]

@[simp] theorem State.resetEvent_chan (s : State) (c : ChanIdx) : s.resetEvent.chan c = .reset := Quad.get_all _ _

theorem State.advance_timingMode (s : State) (ch : ChanIdx) (dSrc dDst : Int) (c : ChanIdx) :
    ((s.advance ch dSrc dDst).chan c).timingMode = (s.chan c).timingMode := by
  by_cases h : c = ch
  · subst h
    simp [State.advance]
  · simp [State.advance, h]

theorem State.complete_timingMode (s : State) (ch c : ChanIdx) :
    ((s.complete ch).chan c).timingMode = (s.chan c).timingMode := by
  by_cases h : c = ch
  · subst h
    rw [State.complete_chan_same]
    split <;> rfl
  · rw [State.complete_chan_ne _ h]

/-- Settles O57: a control-high write stores the timing mode and the mask bits together, and nothing else in a step touches
either, but for the reset event, which clears both. -/
theorem stepKeepsMasksMatchingTiming : Obligations.StepKeepsMasksMatchingTiming :=
  fun s _ hs ht => masksMatchTiming_stable.step ht hs
    (State.masksMatchTiming_of_empty (s := s.resetEvent) rfl rfl fun c => by rw [State.resetEvent_chan]; rfl)
    (fun r ch dSrc dDst hr _ => hr.congr rfl rfl (r.advance_timingMode ch dSrc dDst))
    (fun r ch hr _ =>
      hr.congr (State.complete_hblankMask r ch) (State.complete_vblankMask r ch) (r.complete_timingMode ch))
    (fun _ hr => hr.congr rfl rfl fun _ => rfl)

/-! ### Internal fields (R23, R54) -/

theorem SameInternals.of_chan_eq {c : ChanIdx} {s t : State} (h : t.chan c = s.chan c) : SameInternals c s t := by
  rw [SameInternals, h]
  exact ⟨rfl, rfl, rfl⟩

/-- A channel record replaced by one with its internal fields keeps them, and those of every other channel. -/
theorem State.setChan_sameInternals {s : State} {d : ChanIdx} {x : Channel} (c : ChanIdx)
    (hsrc : x.internalSrc = (s.chan d).internalSrc) (hdst : x.internalDst = (s.chan d).internalDst)
    (hlen : x.internalLength = (s.chan d).internalLength) : SameInternals c s (s.setChan d x) := by
  by_cases h : c = d
  · subst h
    rw [SameInternals, State.chan_setChan_same]
    exact ⟨hsrc, hdst, hlen⟩
  · exact .of_chan_eq (s.chan_setChan_ne x h)

/-- A control-high write keeps the internal fields of every channel that it gives no rising edge of `enable` (R89). -/
theorem State.writeCtlHi_sameInternals {s : State} {c d : ChanIdx} {b : Byte}
    (h : c = d → risingEdge (s.chan c).enable (b.getLsbD s.cfg.ctlHi.enable) = false) :
    SameInternals c s (s.writeCtlHi d b) := by
  by_cases hd : c = d
  · have hlevel := h hd
    subst hd
    rw [State.writeCtlHi_level hlevel, SameInternals, State.storeCtlHi_chan_same]
    exact ⟨rfl, rfl, rfl⟩
  · exact .of_chan_eq (s.writeCtlHi_chan_ne b hd)

/-- Settles O51, by the kind of the operation: lane and control-low writes replace programmed fields only, reads, reserved
writes and events change no channel, and a control-high write latches at a rising edge only. -/
theorem onlyLatchAndRunTouchInternalFields : Obligations.OnlyLatchAndRunTouchInternalFields := by
  intro i s t c ht hi hedge
  cases i with
  | run => exact absurd rfl hi
  | wCtlHi d b =>
    cases ht
    exact State.writeCtlHi_sameInternals fun h => hedge b (by rw [h])
  | wSrc0 d b | wSrc1 d b | wSrc2 d b | wSrc3 d b | wDst0 d b | wDst1 d b | wDst2 d b | wDst3 d b | wLen0 d b
  | wLen1 d b | wCtlLo d b =>
    cases ht
    exact State.setChan_sameInternals c rfl rfl rfl
  | triggerHBlank =>
    cases ht
    exact .of_chan_eq (s.hblankTrigger_chan c)
  | triggerVBlank =>
    cases ht
    exact .of_chan_eq (s.vblankTrigger_chan c)
  | fifoRequest1 | fifoRequest2 =>
    cases ht
    exact .of_chan_eq (s.fifoRequest_chan _ c)
  | _ =>
    cases ht
    exact .of_chan_eq rfl

/-! ### Lengths and codes (R22, R25) -/

/-- Settles O36, from the value of the latched length and its bounds. -/
theorem latchLengthTurnsZeroIntoMaskPlusOne : Obligations.LatchLengthTurnsZeroIntoMaskPlusOne := fun mask len =>
  ⟨fun h => by rw [latchLength_toNat, if_pos h], fun h => by rw [latchLength_toNat, if_neg h],
    latchLength_bounds mask len⟩

@[simp] theorem DstControl.ofBits_bits (d : DstControl) : DstControl.ofBits d.bit1 d.bit0 = d := by cases d <;> rfl
@[simp] theorem SrcControl.ofBits_bits (r : SrcControl) : SrcControl.ofBits r.bit1 r.bit0 = r := by cases r <;> rfl
@[simp] theorem TimingMode.ofBits_bits (m : TimingMode) : TimingMode.ofBits m.bit1 m.bit0 = m := by cases m <;> rfl
@[simp] theorem UnitSize.ofBit_bit (u : UnitSize) : UnitSize.ofBit u.bit = u := by cases u <;> rfl

/-- Settles O9: the codes are the model's own equations, and reading a field back undoes writing it. -/
theorem fieldCodesAreTheListedOrder : Obligations.FieldCodesAreTheListedOrder :=
  ⟨⟨rfl, rfl, rfl, rfl⟩, ⟨rfl, rfl, rfl, rfl⟩, ⟨rfl, rfl, rfl, rfl⟩, ⟨rfl, rfl⟩,
    DstControl.ofBits_bits, SrcControl.ofBits_bits, TimingMode.ofBits_bits, UnitSize.ofBit_bit⟩

/-! ### Reset (R32) -/

@[simp] theorem State.reset_chan (c : ChanIdx) : State.reset.chan c = .reset := Quad.get_all _ _

/-- In the reset state every offset reads 0x00: the control bytes are made of cleared fields. -/
theorem State.reset_regByte (c : ChanIdx) (off : Nat) : State.reset.regByte c off = 0 := by
  have hlo : Channel.reset.ctlLo = 0 := by decide
  have hhi : Channel.reset.ctlHi State.reset.cfg.ctlHi = 0 := by decide
  simp [State.regByte, hlo, hhi]

/-- Settles O1: the reset state is written out field by field, and its channels' control bytes read as zero. -/
theorem resetLeavesTheBlockZeroAndIdle : Obligations.ResetLeavesTheBlockZeroAndIdle :=
  ⟨State.reset_chan, rfl, rfl, rfl, rfl, rfl, rfl, State.reset_regByte⟩

theorem State.reset_lengthsBounded : State.reset.LengthsBounded := fun c => by
  rw [State.reset_chan]
  exact BitVec.le_def.mpr (Nat.zero_le _)

theorem State.reset_inv : State.reset.Inv where
  currentIsLowest := State.currentIsLowest_of_empty rfl
  masksMatchTiming := State.masksMatchTiming_of_empty rfl rfl fun c => by rw [State.reset_chan]; rfl
  lengthsBounded := State.reset_lengthsBounded
  memoryCanonical := rfl

/-- The spec's default masks, layout and lane orders meet R5 and R63. -/
theorem Config.standard_wf : Config.standard.wf = true := by decide

/-- Settles O60: the empty schedule and the cleared block meet the invariants, and the spec's default parameters evaluate
to well-formed ones. -/
theorem resetMeetsTheInvariants : Obligations.ResetMeetsTheInvariants := ⟨State.reset_inv, Config.standard_wf⟩

/-! ### An empty port, and bytes that are no operation -/

/-- Settles O3, case by case from what `step` does on an empty port and with bytes that do not decode. -/
theorem stepIdlesOrRunsOnAnEmptyPortAndRefusesUnknownBytes :
    Obligations.StepIdlesOrRunsOnAnEmptyPortAndRefusesUnknownBytes :=
  fun _ hreq => ⟨step_idle hreq, step_loop hreq, ⟨_, _, _, rfl⟩, fun _ => step_of_bad hreq⟩

end Sys2Proof.Machine

/-! Proofs of the statements about bus memory and the bus (20_memory.md): what a unit passes to the bus, what an operation
nested in an access does, which accesses a step can show, and the invariants of lengths and memory. -/

namespace Sys2Proof.Machine

/-! ### The advance of a unit (R118) -/

theorem State.advance_chan_same (s : State) (ch : ChanIdx) (dSrc dDst : Int) :
    (s.advance ch dSrc dDst).chan ch = { s.chan ch with
      internalSrc := stepAddress (s.chan ch).internalSrc dSrc
      internalDst := stepAddress (s.chan ch).internalDst dDst
      internalLength := (s.chan ch).internalLength - 1 } :=
  State.chan_setChan_same _ _ _

theorem State.advance_chan_ne (s : State) {ch d : ChanIdx} (dSrc dDst : Int) (h : d ≠ ch) :
    (s.advance ch dSrc dDst).chan d = s.chan d :=
  State.chan_setChan_ne _ _ h

/-! ### A unit whose read brings no operation -/

/-- A unit whose read brings no operation reads, writes to the destination as it stands, performs what the
write brings, and advances. -/
theorem State.transferUnit_of_quiet_read {s : State} {ch : ChanIdx} {u : UnitSize} {dSrc dDst : Int}
    (h : s.turn.calls = []) :
    s.transferUnit ch u dSrc dDst = (((s.readAccess u (s.chan ch).internalSrc).writeAccess (s.chan ch).internalDst
      (s.readValue u (s.chan ch).internalSrc)).performAll s.nextTurn.turn.calls).advance ch dSrc dDst := by
  simp only [State.transferUnit, State.busRead_quiet h, State.busWrite, State.readAccess_chan, State.readAccess_turn]

/-- Settles O38: with no operation nested the two accesses are all that a unit adds to the log, and the write passes on the
value the read answered. -/
theorem unitPassesAddressesAndValueUnchanged : Obligations.UnitPassesAddressesAndValueUnchanged := by
  intro s ch u dSrc dDst hread hwrite
  refine ⟨s.readValue u (s.chan ch).internalSrc, s.readValue_size _ _, ?_⟩
  rw [State.transferUnit_of_quiet_read hread, hwrite]
  simp

/-! ### Operations invoked on the block (R60, R80, R91) -/

/-- A write is dispatched by its offset to what `Write` does at that offset. -/
theorem exec_decodeWrite (s : State) (c : ChanIdx) (off : Nat) (b : Byte) :
    exec (decodeWrite c off b) s = .next (s.regWrite c off b) := by
  by_cases h : 12 ≤ off
  · rw [decodeWrite_reserved c b h, State.regWrite, if_neg (by omega), if_neg (by omega), if_neg (by omega),
      if_neg (by omega), if_neg (by omega)]
    rfl
  · interval_cases off <;> rfl

/-- A read is dispatched by its offset to what `Read` does at that offset. -/
theorem exec_decodeRead (s : State) (c : ChanIdx) (off : Nat) :
    exec (decodeRead c off) s = .next (s.regRead c off) := by
  by_cases h : 12 ≤ off
  · rw [decodeRead_reserved c h, State.regRead, State.regByte, if_neg (by omega), if_neg (by omega)]
    rfl
  · interval_cases off <;> rfl

/-- R55: a call does what its instruction does. -/
theorem exec_instr (s : State) (k : Call) : exec k.instr s = .next (s.perform k) := by
  cases k with
  | write c off b => exact exec_decodeWrite s c off b
  | read c off => exact exec_decodeRead s c off
  | hblank => rfl
  | vblank => rfl
  | fifo f => cases f <;> rfl

/-! ### Register bytes on the bus (R49, R187) -/

theorem State.storeRegByte_of_hit {s : State} {a : Word} {c : ChanIdx} {off : Nat} (b : Byte)
    (h : registerAt s.cfg a = some (c, off)) : s.storeRegByte a b = s.regWrite c off b := by
  simp only [State.storeRegByte, h]

theorem State.busByte_of_hit {s : State} {a : Word} {c : ChanIdx} {off : Nat}
    (h : registerAt s.cfg a = some (c, off)) : s.busByte a = s.regByte c off := by
  simp only [State.busByte, h]

theorem State.storeMemByte_of_hit {s : State} {a : Word} (b : Byte) (h : registerAt s.cfg a ≠ none) :
    s.storeMemByte a b = s := by
  obtain ⟨r, hr⟩ := Option.ne_none_iff_exists'.mp h
  simp only [State.storeMemByte, hr]

/-- Bytes that all lie in the register blocks store nothing to memory. -/
theorem State.storeMemBytes_of_hit {s : State} {a : Word} {bs : List Byte}
    (h : ∀ k, k < bs.length → registerAt s.cfg (byteAddr a k) ≠ none) : s.storeMemBytes a bs = s := by
  induction bs generalizing a with
  | nil => rfl
  | cons b bs ih =>
    have hfirst : s.storeMemByte a b = s :=
      State.storeMemByte_of_hit b (by simpa [byteAddr_zero] using h 0 (Nat.succ_pos _))
    have hrest : s.storeMemBytes (a + 1) bs = s := ih fun k hk => by
      rw [byteAddr_succ]
      exact h (k + 1) (Nat.succ_lt_succ hk)
    rw [State.storeMemBytes, hfirst, hrest]

/-- A plain store that lies in the register blocks is its register writes in the platform's lane order. -/
theorem State.storeUnit_of_hit {s : State} {a : Word} {v : UnitVal}
    (h : ∀ x ∈ unitAddrs v.size a, registerAt s.cfg x ≠ none) :
    s.storeUnit a v = s.storeRegBytes a v.bytes (laneOrder s.cfg v) := by
  rw [State.storeUnit, State.storeMemBytes_of_hit fun k hk => h _ (mem_unitAddrs (by rwa [← v.length_bytes]))]

/-- Past the end of the script there is no turn to take. -/
theorem State.nextTurn_nil {s : State} (h : s.bus = []) : s.nextTurn = s := by
  cases s
  cases h
  rfl

/-- On a bus that brings nothing an aligned read is memory's answer. -/
theorem State.readValue_aligned {s : State} {u : UnitSize} {a : Word} (hb : s.bus = []) (ha : aligned u a = true) :
    s.readValue u a = s.loadUnit u a := by
  simp only [State.readValue, State.turn_nil hb, BusTurn.quiet, if_pos ha]

/-- The read access itself is shown, and that is all. -/
theorem State.readAccess_aligned {s : State} {u : UnitSize} {a : Word} (hb : s.bus = []) (ha : aligned u a = true) :
    s.readAccess u a = s.emit (.busRead .sequential a (s.loadUnit u a)) := by
  have hfree : s.readIsFree u a = false := by simp [State.readIsFree, ha]
  rw [State.readAccess, hfree, State.readValue_aligned hb ha]
  exact State.nextTurn_nil hb

/-- An aligned write is shown and then is a plain store. -/
theorem State.writeAccess_aligned {s : State} {a : Word} {v : UnitVal} (hb : s.bus = [])
    (ha : aligned v.size a = true) : s.writeAccess a v = (s.emit (.busWrite .sequential a v)).storeUnit a v := by
  rw [State.writeAccess, State.nextTurn_nil (s := s.emit _) hb]
  simp only [State.writeEffect, State.turn_nil hb, BusTurn.quiet, if_pos ha]

/-- A unit stored to the register blocks on a bus that brings nothing: two accesses, the register writes, the advance. -/
theorem State.transferUnit_to_registers {s : State} {ch : ChanIdx} {u : UnitSize} {dSrc dDst : Int} (hb : s.bus = [])
    (hs : aligned u (s.chan ch).internalSrc = true) (hd : aligned u (s.chan ch).internalDst = true)
    (h : ∀ x ∈ unitAddrs u (s.chan ch).internalDst, registerAt s.cfg x ≠ none) {v : UnitVal}
    (hv : v = s.loadUnit u (s.chan ch).internalSrc) :
    s.transferUnit ch u dSrc dDst = (((s.emit (.busRead .sequential (s.chan ch).internalSrc v)).emit
      (.busWrite .sequential (s.chan ch).internalDst v)).storeRegBytes (s.chan ch).internalDst v.bytes
        (laneOrder s.cfg v)).advance ch dSrc dDst := by
  have hsize : v.size = u := by
    rw [hv, ← State.readValue_aligned hb hs, State.readValue_size]
  rw [← hsize] at hd h
  rw [State.transferUnit_of_quiet_read (by rw [State.turn_nil hb]; rfl), State.readValue_aligned hb hs,
    State.readAccess_aligned hb hs, ← hv, State.nextTurn_nil hb, State.turn_nil hb,
    State.writeAccess_aligned (s := s.emit _) hb hd, State.storeUnit_of_hit (s := (s.emit _).emit _) h]
  rfl

/-- The same for a halfword over the two control bytes of a channel: control low, then control high. -/
theorem State.transferUnit_to_controlBytes {s : State} {ch c : ChanIdx} {dSrc dDst : Int} {lo hi : Byte}
    (hb : s.bus = []) (hlanes : s.cfg.halfLanes = [0, 1]) (hs : aligned .halfword (s.chan ch).internalSrc = true)
    (hd : aligned .halfword (s.chan ch).internalDst = true)
    (hv : s.loadUnit .halfword (s.chan ch).internalSrc = .half (hi ++ lo))
    (hlo : registerAt s.cfg (s.chan ch).internalDst = some (c, 10))
    (hhi : registerAt s.cfg ((s.chan ch).internalDst + 1) = some (c, 11)) :
    s.transferUnit ch .halfword dSrc dDst =
      (((((s.emit (.busRead .sequential (s.chan ch).internalSrc (.half (hi ++ lo)))).emit
        (.busWrite .sequential (s.chan ch).internalDst (.half (hi ++ lo)))).writeCtlLo c lo).writeCtlHi c hi).advance
          ch dSrc dDst) := by
  have hregs : ∀ x ∈ unitAddrs .halfword (s.chan ch).internalDst, registerAt s.cfg x ≠ none := by
    intro x hx
    obtain ⟨k, hk, rfl⟩ := List.mem_map.mp hx
    have hk2 : k < 2 := List.mem_range.mp hk
    interval_cases k
    · rw [byteAddr_zero, hlo]; exact Option.some_ne_none _
    · exact hhi ▸ Option.some_ne_none _
  have horder : laneOrder s.cfg (.half (hi ++ lo)) = [0, 1] := by
    simp only [laneOrder, hlanes]; rfl
  have hbytes : (UnitVal.half (hi ++ lo)).bytes = [lo, hi] := by
    rw [UnitVal.bytes, extractLsb'_append_low, extractLsb'_append_high hi lo 0, extractLsb'_byte]
  rw [State.transferUnit_to_registers hb hs hd hregs hv.symm, horder, hbytes]
  generalize ht : (s.emit _).emit _ = t
  have hcfg : t.cfg = s.cfg := by rw [← ht]; rfl
  have hfirst : t.storeRegByte (byteAddr (s.chan ch).internalDst 0) lo = t.writeCtlLo c lo := by
    rw [byteAddr_zero, State.storeRegByte_of_hit lo (hcfg ▸ hlo)]
    rfl
  have hsecond : (t.writeCtlLo c lo).storeRegByte (byteAddr (s.chan ch).internalDst 1) hi
      = (t.writeCtlLo c lo).writeCtlHi c hi :=
    State.storeRegByte_of_hit (c := c) (off := 11) hi (by rw [State.writeCtlLo_cfg, hcfg]; exact hhi)
  show State.advance ((t.storeRegByte _ lo).storeRegByte _ hi) ch dSrc dDst = _
  rw [hfirst, hsecond]

/-- Settles O39: a call is what `exec` does for its instruction, a unit is its two accesses with their calls in between, and
a register byte met on the bus is a call. -/
theorem nestedOperationsActAsTheirInstructions : Obligations.NestedOperationsActAsTheirInstructions := by
  refine ⟨exec_instr, State.performAll_nil, ?several, ?order, ?byte, ?unit, ?controlBytes⟩
  case several =>
    intro s t k ks ht
    rw [exec_instr] at ht
    cases ht
    rfl
  case order =>
    rintro s r w ch u dSrc dDst v rfl rfl rfl
    rfl
  case byte =>
    intro s a b c off h
    rw [exec_decodeWrite, exec_decodeRead, State.storeRegByte_of_hit b h, State.busByte_of_hit h]
    exact ⟨rfl, rfl⟩
  case unit => exact fun _ _ _ _ _ _ hb hs hd h hv => State.transferUnit_to_registers hb hs hd h hv
  case controlBytes =>
    exact fun _ _ _ _ _ _ _ hb hlanes hs hd hv hlo hhi =>
      State.transferUnit_to_controlBytes hb hlanes hs hd hv hlo hhi

/-! ### A preemption inside a `Run` (R115, R157) -/

/-- A request for a lower index takes over from the running channel and leaves the flag. -/
theorem State.markRunnable_lower {s : State} {id : ChanIdx} (hrun : s.runSet ≠ 0) (hid : id < s.current) :
    s.markRunnable id = { s with runSet := insertChan s.runSet id, current := id, interleaved := true } := by
  rw [State.markRunnable, if_neg hrun, if_pos hid]

/-- With units left, budget and no preemption, the loop does one unit and goes on. -/
theorem State.runLoop_unit {ch : ChanIdx} {u : UnitSize} {dSrc dDst d : Int} {ds : List Int} {s : State}
    (hl : (s.chan ch).internalLength ≠ 0) (hd : 0 < d) (hi : s.interleaved = false) :
    State.runLoop ch u dSrc dDst (d :: ds) s
      = State.runLoop ch u dSrc dDst ds (State.transferUnit { s with budget := ds } ch u dSrc dDst) := by
  rw [State.runLoop, if_neg hl, if_neg (Int.not_le.mpr hd), if_neg (by simp [hi])]

/-- R115: with units left and budget, the loop consumes the flag and returns. -/
theorem State.runLoop_preempted {ch : ChanIdx} {u : UnitSize} {dSrc dDst d : Int} {ds : List Int} {s : State}
    (hl : (s.chan ch).internalLength ≠ 0) (hd : 0 < d) (hi : s.interleaved = true) :
    State.runLoop ch u dSrc dDst (d :: ds) s = { s with budget := ds, interleaved := false } := by
  rw [State.runLoop, if_neg hl, if_neg (Int.not_le.mpr hd), if_pos hi]

/-- A unit to plain memory, at whose write the bus delivers a FIFO request for a channel below `current`: the unit is done
as a whole, and the requested channel is current with the flag set. -/
theorem State.transferUnit_fifo_at_write {s : State} {ch : ChanIdx} {u : UnitSize} {dSrc dDst : Int} {f : FifoChan}
    {turns : List BusTurn} (hrun : s.runSet ≠ 0) (hf : f.idx < s.current)
    (hbus : s.bus = .quiet :: { BusTurn.quiet with calls := [.fifo f] } :: turns)
    (hmem : ∀ x ∈ unitAddrs u (s.chan ch).internalDst, registerAt s.cfg x = none) :
    ∃ t, s.transferUnit ch u dSrc dDst = t ∧ t.runSet = insertChan s.runSet f.idx ∧ t.current = f.idx
      ∧ t.interleaved = true
      ∧ t.chan ch = { s.chan ch with
          internalSrc := stepAddress (s.chan ch).internalSrc dSrc
          internalDst := stepAddress (s.chan ch).internalDst dDst
          internalLength := (s.chan ch).internalLength - 1 }
      ∧ SameOtherChannels ch s t ∧ irqsOf t.log = irqsOf s.log ∧ t.bus = turns := by
  have hread : s.turn.calls = [] := by simp [State.turn, hbus, BusTurn.quiet]
  have hwrite : s.nextTurn.turn.calls = [.fifo f] := by simp [State.turn, State.nextTurn, hbus]
  refine ⟨_, State.transferUnit_of_quiet_read hread, ?_⟩
  rw [hwrite]
  generalize hw : (s.readAccess u (s.chan ch).internalSrc).writeAccess (s.chan ch).internalDst
    (s.readValue u (s.chan ch).internalSrc) = w
  have hlog : irqsOf w.log = irqsOf s.log := by rw [← hw]; simp
  have hturns : w.bus = turns := by rw [← hw]; simp [hbus]
  obtain ⟨hchans, -, -, hset, hcur, -⟩ := State.writeAccess_block (s := s.readAccess u (s.chan ch).internalSrc)
    (a := (s.chan ch).internalDst) (v := s.readValue u (s.chan ch).internalSrc)
    (fun _ => by rw [State.readValue_size, State.readAccess_cfg]; exact hmem)
  rw [hw, State.readAccess_chans] at hchans
  rw [hw, State.readAccess_runSet] at hset
  rw [hw, State.readAccess_current] at hcur
  have hchan : ∀ d, w.chan d = s.chan d := State.chan_congr hchans
  have hfifo : w.performAll [.fifo f] =
      { w with runSet := insertChan w.runSet f.idx, current := f.idx, interleaved := true } :=
    State.markRunnable_lower (hset ▸ hrun) (hcur ▸ hf)
  rw [hfifo]
  refine ⟨congrArg (insertChan · f.idx) hset, rfl, rfl, ?_, fun d hd => ?_, hlog, hturns⟩
  · rw [← hchan ch]
    exact State.advance_chan_same _ _ _ _
  · exact (State.advance_chan_ne _ _ _ hd).trans (hchan d)

/-- Settles O43: the unit at whose write the request comes is done as a whole, and the next look of the loop at the flag
returns, since a unit is left. -/
theorem preemptionInsideARunFallsAfterAWholeUnit : Obligations.PreemptionInsideARunFallsAfterAWholeUnit := by
  intro s f d₁ d₂ ds turns hrun hf hlen hbudget hd₁ hd₂ hi hbus hplain
  rw [State.writeAddr, unitAddr_zero] at hplain
  have hleft : (s.chan s.current).internalLength ≠ 0 := fun h => by simp [h] at hlen
  obtain ⟨t, ht, hset, hcur, hflag, hchan, hothers, hlog, hturns⟩ := State.transferUnit_fifo_at_write
    (s := { s with budget := d₂ :: ds }) (dSrc := s.srcDelta s.current) (dDst := s.dstDelta s.current) hrun hf hbus
    (plainUnit_iff.mp hplain).2
  have hagain : (t.chan s.current).internalLength ≠ 0 := by
    rw [hchan]
    show (s.chan s.current).internalLength - 1 ≠ 0
    bv_omega
  refine ⟨{ t with budget := ds, interleaved := false }, ?_, hcur, rfl, ?_, ?_, hothers, hlog, rfl, hturns⟩
  · rw [exec_run hrun, State.runEngine, hbudget]
    congr 1
    refine (State.runLoop_unit hleft hd₁ hi).trans ?_
    exact (congrArg _ ht).trans (State.runLoop_preempted hagain hd₂ hflag)
  · intro d
    exact (congrArg (member · d) hset).trans (member_insertChan _ _ _)
  · rw [State.readAddr, State.writeAddr, ← unitAddr_succ _ _ 0, ← unitAddr_succ _ _ 0, unitAddr_zero, unitAddr_zero]
    exact hchan

/-! ### The log and bus memory through a step -/

/-- Settles O53: another operation adds to the log at most the byte a register read returns. -/
theorem onlyRunReachesTheBus : Obligations.OnlyRunReachesTheBus := by
  intro i s t ht hi
  obtain ⟨hmem, hbus, hbudget, -, -, hlog⟩ := exec_frame ht hi
  refine ⟨?_, hmem, hbus, hbudget⟩
  rcases hlog with hlog | ⟨c, off, b, hlog⟩
  · rw [hlog]
  · rw [hlog, busPorts_cons_regRead]

/-- A predicate of bus memory and the log that the units of a `Run` keep, and that neither a returned byte nor an interrupt
request disturbs, every step keeps: nothing else reaches memory or the log. -/
theorem step_keeps_mem_log {P : List Host.Cell → List Event → Prop}
    (hread : ∀ m es c off b, P m es → P m (.regRead c off b :: es)) (hirq : ∀ m es c, P m es → P m (.irq c :: es))
    (hunit : ∀ (r : State) (ch : ChanIdx) (u : UnitSize) (dSrc dDst : Int), P r.mem r.log →
      P (r.transferUnit ch u dSrc dDst).mem (r.transferUnit ch u dSrc dDst).log)
    {s t : State} (ht : step s = .next t) (h : P s.mem s.log) : P t.mem t.log := by
  obtain ⟨_, _, _, _, r, rfl, rfl | rfl | ⟨i, hexec⟩⟩ := step_cases ht
  · exact h
  · exact h
  · by_cases hi : i = .run
    · subst hi
      obtain ⟨q, hq, ⟨rfl, -⟩ | rfl | ⟨_, rfl⟩ | ⟨_, rfl⟩⟩ := exec_run_cases (P := fun q => P q.mem q.log) hexec h
        (fun q _ u dSrc dDst hq _ => hunit _ _ u dSrc dDst hq)
      · rw [State.complete_mem, State.complete_log]
        split
        · exact hirq _ _ _ hq
        · exact hq
      · exact hq
      · exact hq
      · exact hq
    · obtain ⟨hmem, -, -, -, -, hlog | ⟨c, off, b, hlog⟩⟩ := exec_frame hexec hi
      · rw [hmem, hlog]; exact h
      · rw [hmem, hlog]; exact hread _ _ _ _ _ h

/-- No event of the log is a bus access of a class other than sequential (R43). -/
def OnlySequential (es : List Event) : Prop :=
  ∀ e ∈ es, ∀ a v, e ≠ .busRead .other a v ∧ e ≠ .busWrite .other a v

theorem OnlySequential.cons {e : Event} {es : List Event} (h : OnlySequential es)
    (he : ∀ a v, e ≠ .busRead .other a v ∧ e ≠ .busWrite .other a v) : OnlySequential (e :: es) :=
  List.forall_mem_cons.mpr ⟨he, h⟩

theorem OnlySequential.cons_regRead {c : ChanIdx} {off : Nat} {b : Byte} {es : List Event} (h : OnlySequential es) :
    OnlySequential (.regRead c off b :: es) :=
  h.cons fun _ _ => ⟨nofun, nofun⟩

/-- A unit shows two accesses, both sequential, and of calls only the bytes that register reads return. -/
theorem State.transferUnit_onlySequential {s : State} (h : OnlySequential s.log) (ch : ChanIdx) (u : UnitSize)
    (dSrc dDst : Int) : OnlySequential (s.transferUnit ch u dSrc dDst).log := by
  have hread : OnlySequential (s.busRead u (s.chan ch).internalSrc).2.log :=
    State.busRead_log (fun _ _ _ _ => .cons_regRead) _ _ _ (h.cons fun _ _ => ⟨nofun, nofun⟩)
  exact State.busWrite_log (fun _ _ _ _ => .cons_regRead) _ _ _ (hread.cons fun _ _ => ⟨nofun, nofun⟩)

/-- Settles O54: units show sequential accesses, and everything else that reaches the log is no access. -/
theorem everyBusAccessIsSequential : Obligations.EveryBusAccessIsSequential :=
  fun _ _ ht hs => step_keeps_mem_log (P := fun _ es => OnlySequential es) (fun _ _ _ _ _ => .cons_regRead)
    (fun _ _ _ h => h.cons fun _ _ => ⟨nofun, nofun⟩)
    (fun _ ch u dSrc dDst h => State.transferUnit_onlySequential h ch u dSrc dDst) ht hs

/-- Settles O59: memory changes only by the writes of units, each of which keeps the canonical form. -/
theorem stepKeepsMemoryCanonical : Obligations.StepKeepsMemoryCanonical :=
  fun s t hs ht => step_keeps_mem_log (P := fun m _ => Memory.wf m = true) (fun _ _ _ _ _ h => h) (fun _ _ _ h => h)
    (fun r ch u dSrc dDst hr => State.busWrite_wf (by rwa [State.busRead_mem]) _ _) ht hs

/-! ### Lengths stay within mask + 1 (R25, R57) -/

theorem toNat_mask_add_one (mask : Half) : (mask.setWidth 32 + 1 : Word).toNat = mask.toNat + 1 := by
  have := mask.isLt
  rw [BitVec.toNat_add, BitVec.toNat_setWidth, show (1 : Word).toNat = 1 from rfl]
  omega

theorem latchLength_le (mask len : Half) : latchLength mask len ≤ mask.setWidth 32 + 1 := by
  rw [BitVec.le_def, toNat_mask_add_one]
  exact (latchLength_bounds mask len).2

/-- A length that is not zero does not underflow when it counts down. -/
theorem sub_one_le_of_ne_zero {n : Word} (h : n ≠ 0) : n - 1 ≤ n := by
  bv_omega

theorem lengthsBounded_stable : BlockStable State.LengthsBounded :=
  lengths_stable (P := fun g d len => len ≤ (g.lenMask.get d).setWidth 32 + 1)
    fun g d len => latchLength_le (g.lenMask.get d) len

theorem State.resetEvent_lengthsBounded (s : State) : s.resetEvent.LengthsBounded := fun c => by
  rw [State.resetEvent_chan]
  exact BitVec.le_def.mpr (Nat.zero_le _)

theorem State.advance_lengthsBounded {s : State} {ch : ChanIdx} (h : s.LengthsBounded)
    (hl : (s.chan ch).internalLength ≠ 0) (dSrc dDst : Int) : (s.advance ch dSrc dDst).LengthsBounded := fun c => by
  by_cases hc : c = ch
  · subst hc
    rw [State.advance_chan_same]
    exact BitVec.le_trans (sub_one_le_of_ne_zero hl) (h c)
  · rw [State.advance_chan_ne _ _ _ hc]
    exact h c

/-- A completion leaves a length as it was, or latches it anew (R121). -/
theorem State.complete_lengthsBounded {s : State} (h : s.LengthsBounded) (ch : ChanIdx) :
    (s.complete ch).LengthsBounded := fun c => by
  rw [State.complete_cfg]
  by_cases hc : c = ch
  · subst hc
    rw [State.complete_chan_same]
    split
    · exact latchLength_le _ _
    · exact h c
  · rw [State.complete_chan_ne _ hc]
    exact h c

/-- Settles O58: a length is latched within its mask + 1 and counts down from there only while it is not zero. -/
theorem stepKeepsLengthsBounded : Obligations.StepKeepsLengthsBounded :=
  fun s _ hs ht => lengthsBounded_stable.step ht hs s.resetEvent_lengthsBounded
    (fun _ _ dSrc dDst hr hl => State.advance_lengthsBounded hr hl dSrc dDst)
    (fun _ ch hr _ => State.complete_lengthsBounded hr ch)
    (fun _ hr => hr)

end Sys2Proof.Machine

/-! Proofs of the statements about the encoding (30_encoding.md): records and the operations they stand for, and the two
control bytes. -/

namespace Sys2Proof

/-! ### Records (R60, R61) -/

/-- An event's record decodes to the event of its entry point and channel, where there is one. -/
theorem decode_eventRecord {entry : Nat} {c : ChanIdx} {i : Instr} (hentry : entry < 256)
    (h : decodeEvent entry c = .inr i) (rest : List Byte) : decode (eventRecord entry c ++ rest) = .op i rest := by
  obtain ⟨hchan, hhigh, hformat⟩ := selector_fields 2 (by decide) c
  have hrecord : decodeRecord (BitVec.ofNat 8 entry) (selector 2 c) 0#8 0 = .inr i := by
    simp [decodeRecord, hchan, hhigh, hformat, Nat.mod_eq_of_lt hentry, h]
  simp [eventRecord, decode, readGroups, selector_ne_reset 2 (by decide) c, hrecord]

end Sys2Proof

namespace Sys2Proof.Machine

/-- Settles O5, by format: a register record decodes by its offset, where the reserved rows need theirs to be 12 or more,
and an event's record by its entry point and channel. -/
theorem decodeReadsBackEveryEncoding : Obligations.DecodeReadsBackEveryEncoding := by
  intro i rest hwf
  cases i with
  | wRsvd c off b =>
    have hoff : 12 ≤ off := of_decide_eq_true hwf
    rw [encode, decode_writeRecord, decodeWrite_reserved c b hoff]
  | rRsvd c off =>
    have hoff : 12 ≤ off := of_decide_eq_true hwf
    rw [encode, decode_readRecord, decodeRead_reserved c hoff]
  | wSrc0 c b | wSrc1 c b | wSrc2 c b | wSrc3 c b | wDst0 c b | wDst1 c b | wDst2 c b | wDst3 c b | wLen0 c b
  | wLen1 c b | wCtlLo c b | wCtlHi c b => exact decode_writeRecord c _ b rest
  | rZero0 c | rZero1 c | rZero2 c | rZero3 c | rZero4 c | rZero5 c | rZero6 c | rZero7 c | rZero8 c | rZero9 c
  | rCtlLo c | rCtlHi c => exact decode_readRecord c _ rest
  | triggerHBlank | triggerVBlank | fifoRequest1 | fifoRequest2 | run =>
    exact decode_eventRecord (by decide) rfl rest

/-- Settles O6: each record is the encoding of its operation, which decodes back. -/
theorem writtenOutRecordsDecodeByTheOffsetTable : Obligations.WrittenOutRecordsDecodeByTheOffsetTable :=
  ⟨decodeReadsBackEveryEncoding (.wSrc3 2 0x7A) [] rfl, decodeReadsBackEveryEncoding (.wDst3 1 0x04) [] rfl,
    decodeReadsBackEveryEncoding (.wLen1 3 0xC0) [] rfl, decodeReadsBackEveryEncoding (.wCtlHi 0 0x84) [] rfl,
    decodeReadsBackEveryEncoding (.rCtlLo 3) [] rfl, decodeReadsBackEveryEncoding (.rRsvd 0 256) [] rfl,
    decodeReadsBackEveryEncoding (.wRsvd 2 68719476747 0x80) [] rfl,
    decodeReadsBackEveryEncoding .fifoRequest1 [] rfl, decodeReadsBackEveryEncoding .run [] rfl⟩

/-! ### The control bytes (R62, R63, R94) -/

theorem Channel.getLsbD_ctlLo (ch : Channel) {j : Nat} (hj : j < 8) :
    ch.ctlLo.getLsbD j = ((ch.srcAddressControl.bit0 && decide (j = 7) || ch.dstAddressControl.bit1 && decide (j = 6))
      || ch.dstAddressControl.bit0 && decide (j = 5)) := by
  simp only [Channel.ctlLo, BitVec.getLsbD_or, getLsbD_placeBit _ (show 7 < 8 by decide) hj,
    getLsbD_placeBit _ (show 6 < 8 by decide) hj, getLsbD_placeBit _ (show 5 < 8 by decide) hj]

/-- R62: control low is rebuilt from the three bits it was stored as. -/
theorem Channel.ctlLo_storeCtlLo (ch : Channel) (b : Byte) : (ch.storeCtlLo b).ctlLo = b &&& 0xE0 := by
  refine BitVec.eq_of_getLsbD_eq fun j hj => ?_
  rw [Channel.getLsbD_ctlLo _ hj, BitVec.getLsbD_and]
  interval_cases j <;> simp [Channel.storeCtlLo]

/-- A bit of the byte put at its own position is the byte's bit there, and is clear at every other. -/
theorem getLsbD_and_position (b : Byte) (j p : Nat) :
    (b.getLsbD p && decide (j = p)) = (b.getLsbD j && decide (j = p)) := by
  by_cases h : j = p
  · rw [h]
  · simp [h]

/-- R63, R94: control high is rebuilt from the field bits it was stored as. At its own position a field gives back the
byte's bit, and in a layout that fills the byte every bit is at some field's position. -/
theorem Channel.ctlHi_storeCtlHi (ch : Channel) {l : CtlHiLayout} (hl : l.wf = true) (b : Byte) :
    (ch.storeCtlHi l b).ctlHi l = b := by
  refine BitVec.eq_of_getLsbD_eq fun j hj => ?_
  have hfield : (⟨j, hj⟩ : Fin 8) ∈ l.positions := CtlHiLayout.exists_position hl ⟨j, hj⟩
  simp only [CtlHiLayout.positions, List.mem_cons, List.not_mem_nil, or_false, Fin.ext_iff] at hfield
  rw [Channel.getLsbD_ctlHi _ _ hj]
  simp only [Channel.storeCtlHi, SrcControl.bit1_ofBits, TimingMode.bit1_ofBits, TimingMode.bit0_ofBits,
    UnitSize.bit_ofBit, getLsbD_and_position b j, ← Bool.and_or_distrib_left]
  refine Bool.and_eq_left_iff_imp.mpr fun _ => ?_
  simp only [Bool.or_eq_true, decide_eq_true_eq]
  tauto

/-- A read of control low returns the byte built from the live fields, and changes the log only. -/
theorem exec_rCtlLo (c : ChanIdx) (s : State) :
    exec (.rCtlLo c) s = .next { s with log := .regRead c 10 (s.chan c).ctlLo :: s.log } := rfl

/-- A read of control high does the same with its byte. -/
theorem exec_rCtlHi (c : ChanIdx) (s : State) :
    exec (.rCtlHi c) s = .next { s with log := .regRead c 11 ((s.chan c).ctlHi s.cfg.ctlHi) :: s.log } := rfl

@[simp] theorem State.writeCtlLo_chan_same (s : State) (c : ChanIdx) (b : Byte) :
    (s.writeCtlLo c b).chan c = (s.chan c).storeCtlLo b :=
  State.chan_setChan_same _ _ _

/-- What a latch does to the internal fields does not show in control high. -/
theorem State.writeCtlHi_chan_ctlHi (s : State) (c : ChanIdx) (b : Byte) (l : CtlHiLayout) :
    ((s.writeCtlHi c b).chan c).ctlHi l = ((s.chan c).storeCtlHi s.cfg.ctlHi b).ctlHi l := by
  obtain ⟨_, _, _, h⟩ := s.writeCtlHi_chan_same c b
  rw [h]
  rfl

/-- Settles O23: a read rebuilds the byte from the fields that the write stored. -/
theorem controlBytesReadBackAsWritten : Obligations.ControlBytesReadBackAsWritten := by
  refine fun c b s => ⟨⟨s.writeCtlLo c b, rfl, ?low⟩, fun hl => ⟨s.writeCtlHi c b, rfl, ?high⟩⟩
  case low => rw [exec_rCtlLo, State.writeCtlLo_chan_same, Channel.ctlLo_storeCtlLo]
  case high =>
    rw [exec_rCtlHi, State.writeCtlHi_cfg, State.writeCtlHi_chan_ctlHi, Channel.ctlHi_storeCtlHi _ hl]

end Sys2Proof.Machine

/-! Proofs of the statements about the register interface (40_register_interface.md): how an offset selects an operation, what
each write stores and leaves alone, what the rising edge of `enable` does, and what each read returns. -/

namespace Sys2Proof.Machine

/-! ### Lane writes and what a reload takes from them (R81 to R83, R121, R122) -/

theorem exec_srcWrite (k : Fin 4) (c : ChanIdx) (b : Byte) (s : State) :
    exec (.srcWrite k c b) s = .next (s.writeSrcLane c k b) := by
  fin_cases k <;> rfl

theorem exec_dstWrite (k : Fin 4) (c : ChanIdx) (b : Byte) (s : State) :
    exec (.dstWrite k c b) s = .next (s.writeDstLane c k b) := by
  fin_cases k <;> rfl

theorem exec_lenWrite (k : Fin 2) (c : ChanIdx) (b : Byte) (s : State) :
    exec (.lenWrite k c b) s = .next (s.writeLenLane c k b) := by
  fin_cases k <;> rfl

theorem State.writeDstLane_chan_same (s : State) (c : ChanIdx) (k : Nat) (b : Byte) :
    (s.writeDstLane c k b).chan c = { s.chan c with dstAddress := mergeWordLane (s.chan c).dstAddress k b } :=
  State.chan_setChan_same _ _ _

theorem State.writeLenLane_chan_same (s : State) (c : ChanIdx) (k : Nat) (b : Byte) :
    (s.writeLenLane c k b).chan c = { s.chan c with length := mergeHalfLane (s.chan c).length k b } :=
  State.chan_setChan_same _ _ _

/-- R122: in increment-and-reload mode the destination starts again from the programmed one, masked. -/
theorem State.reloadDst_internalDst {s : State} {c : ChanIdx} (h : (s.chan c).dstAddressControl = .incrementReload) :
    ((s.reloadDst c).chan c).internalDst = (s.chan c).dstAddress &&& s.cfg.dstMask.get c := by
  rw [State.reloadDst, if_pos h, State.chan_setChan_same]

/-- R121: the length starts again from the programmed one. -/
theorem State.reloadLength_internalLength (s : State) (c : ChanIdx) :
    ((s.reloadLength c).chan c).internalLength = latchLength (s.cfg.lenMask.get c) (s.chan c).length := by
  rw [State.reloadLength, State.chan_setChan_same]

theorem latchLength_zero_toNat (mask : Half) : (latchLength mask 0).toNat = mask.toNat + 1 :=
  (latchLength_toNat mask 0).trans (if_pos BitVec.zero_and)

/-- Settles O10: a source write is the lane merge of the model, whose bits are the byte's in its lane and the old ones
elsewhere. -/
theorem wSrcReplacesOneByteLaneAndNothingElse : Obligations.WSrcReplacesOneByteLaneAndNothingElse :=
  fun k c b s => ⟨_, exec_srcWrite k c b s, fun _ hj => getLsbD_mergeWordLane _ k b hj⟩

/-- Settles O11: the same for a destination write, and the reload reads the merged address. -/
theorem wDstReplacesOneByteLaneAndFeedsTheNextReload : Obligations.WDstReplacesOneByteLaneAndFeedsTheNextReload := by
  refine fun k c b s =>
    ⟨_, _, exec_dstWrite k c b s, rfl, fun _ hj => getLsbD_mergeWordLane _ k b hj, fun hmode => ?reload⟩
  case reload =>
    rw [State.reloadDst_internalDst (by rwa [State.writeDstLane_chan_same]), State.writeDstLane_chan_same,
      State.writeDstLane_cfg]

/-- Settles O12: the same for a length write, and the reload latches the merged length. -/
theorem wLenReplacesOneByteLaneAndFeedsTheNextReload : Obligations.WLenReplacesOneByteLaneAndFeedsTheNextReload := by
  intro k c b s
  have hreload : (((s.writeLenLane c k b).reloadLength c).chan c).internalLength =
      latchLength (s.cfg.lenMask.get c) (mergeHalfLane (s.chan c).length k b) := by
    rw [State.reloadLength_internalLength, State.writeLenLane_cfg, State.writeLenLane_chan_same]
  refine ⟨_, _, exec_lenWrite k c b s, rfl, fun _ hj => getLsbD_mergeHalfLane _ k b hj, hreload, fun hzero => ?_⟩
  rw [← latchLength_zero_toNat, ← hzero]
  exact congrArg BitVec.toNat hreload

/-! ### Control writes (R84 to R86) -/

/-- Settles O13: the two fields are stored by their codes, which read back as the bits they were stored from. -/
theorem wCtlLoStoresTwoFieldsAndNothingElse : Obligations.WCtlLoStoresTwoFieldsAndNothingElse :=
  fun _ _ _ => ⟨_, _, rfl, DstControl.bit1_ofBits _ _, DstControl.bit0_ofBits _ _, SrcControl.bit0_ofBits _ _,
    SrcControl.bit1_ofBits _ _⟩

theorem State.writeCtlHi_sameEnvironment (s : State) (c : ChanIdx) (b : Byte) : SameEnvironment s (s.writeCtlHi c b) :=
  ⟨s.writeCtlHi_cfg c b, s.writeCtlHi_irqFlags c b, s.writeCtlHi_budget c b, s.writeCtlHi_bus c b, s.writeCtlHi_port c b,
    s.writeCtlHi_resetReq c b, s.writeCtlHi_freeCount c b⟩

theorem State.writeCtlHi_sameMemory (s : State) (c : ChanIdx) (b : Byte) : SameMemory s (s.writeCtlHi c b) := fun a => by
  rw [State.writeCtlHi_mem]

/-- Settles O14: but for the internal fields the written channel is what the store of the seven fields makes of it. -/
theorem wCtlHiStoresSevenFields : Obligations.WCtlHiStoresSevenFields := by
  intro c b s
  obtain ⟨_, _, _, hchan⟩ := s.writeCtlHi_chan_same c b
  refine ⟨s.writeCtlHi c b, rfl, ?_⟩
  rw [hchan]
  exact ⟨SrcControl.bit1_ofBits _ _, SrcControl.bit0_ofBits _ _, rfl, UnitSize.bit_ofBit _, rfl,
    TimingMode.bit1_ofBits _ _, TimingMode.bit0_ofBits _ _, rfl, rfl, rfl, rfl, rfl, rfl,
    fun _ hd => s.writeCtlHi_chan_ne b hd, s.writeCtlHi_sameMemory c b, s.writeCtlHi_sameEnvironment c b,
    s.writeCtlHi_log c b⟩

/-- Settles O15, by what a control-high write does to the two masks. -/
theorem wCtlHiRecomputesBlankMembership : Obligations.WCtlHiRecomputesBlankMembership :=
  fun c b s => ⟨_, rfl, s.writeCtlHi_masks c b⟩

/-! ### The edge of `enable` (R87 to R89) -/

/-- R88: with immediate timing arming schedules what the arbitrator makes of the schedule before the latch. -/
theorem State.arm_sameSchedule_of_immediate {s : State} {c : ChanIdx} (h : (s.chan c).timingMode = .immediate) :
    SameSchedule (s.markRunnable c) (s.arm c) := by
  have hlatch : SameSchedule s (s.latch c) := ⟨rfl, rfl, rfl⟩
  rw [State.arm, if_pos h]
  exact hlatch.markRunnable c

/-- R88: with any other timing it schedules nothing. -/
theorem State.arm_sameSchedule_of_not_immediate {s : State} {c : ChanIdx} (h : (s.chan c).timingMode ≠ .immediate) :
    SameSchedule s (s.arm c) := by
  rw [State.arm, if_neg h]
  exact ⟨rfl, rfl, rfl⟩

theorem State.storeCtlHi_sameSchedule (s : State) (c : ChanIdx) (b : Byte) : SameSchedule s (s.storeCtlHi c b) :=
  ⟨rfl, rfl, rfl⟩

theorem SameSchedule.trans {s t u : State} (hst : SameSchedule s t) (htu : SameSchedule t u) : SameSchedule s u := by
  obtain ⟨hrun, hcurrent, hinterleaved⟩ := hst
  obtain ⟨hrun', hcurrent', hinterleaved'⟩ := htu
  exact ⟨hrun'.trans hrun, hcurrent'.trans hcurrent, hinterleaved'.trans hinterleaved⟩

/-- Settles O16: with a rising edge the stored state is armed, and the store keeps the schedule that arming starts from. -/
theorem risingEdgeLatchesAndSchedulesImmediate : Obligations.RisingEdgeLatchesAndSchedulesImmediate := by
  intro c b s hwas hnow
  have hedge : risingEdge (s.chan c).enable (b.getLsbD s.cfg.ctlHi.enable) = true := by
    rw [hwas, hnow]; rfl
  have hstore := s.storeCtlHi_sameSchedule c b
  refine ⟨s.writeCtlHi c b, rfl, ?_⟩
  rw [State.writeCtlHi_chan_of_rising hedge, State.writeCtlHi_rising hedge]
  refine ⟨rfl, rfl, rfl, fun hmode => ?immediate, fun hmode => ?other⟩
  all_goals rw [← s.storeCtlHi_chan_same] at hmode
  case immediate => exact (hstore.markRunnable c).trans (State.arm_sameSchedule_of_immediate hmode)
  case other => exact hstore.trans (State.arm_sameSchedule_of_not_immediate hmode)

theorem risingEdge_eq_false {was now : Bool} (h : was = true ∨ now = false) : risingEdge was now = false := by
  rcases h with rfl | rfl
  · rfl
  · exact Bool.and_false _

/-- Settles O17: without a rising edge nothing follows the store, which touches neither internal fields nor schedule. -/
theorem noRisingEdgeNeitherLatchesNorSchedules : Obligations.NoRisingEdgeNeitherLatchesNorSchedules := by
  intro c b s h
  have hlevel := risingEdge_eq_false h
  refine ⟨s.writeCtlHi c b, rfl, State.writeCtlHi_sameInternals fun _ => hlevel, ?_⟩
  rw [State.writeCtlHi_level hlevel]
  exact s.storeCtlHi_sameSchedule c b

/-! ### Reserved writes and the dispatch of writes (R80, R90) -/

/-- Settles O19: the reserved row answers the state it was given. -/
theorem wRsvdChangesNothing : Obligations.WRsvdChangesNothing := fun _ _ _ _ _ => rfl

theorem decodeWrite_src (k : Fin 4) (c : ChanIdx) (b : Byte) : decodeWrite c k b = .srcWrite k c b := by
  fin_cases k <;> rfl

theorem decodeWrite_dst (k : Fin 4) (c : ChanIdx) (b : Byte) : decodeWrite c (4 + k) b = .dstWrite k c b := by
  fin_cases k <;> rfl

theorem decodeWrite_len (k : Fin 2) (c : ChanIdx) (b : Byte) : decodeWrite c (8 + k) b = .lenWrite k c b := by
  fin_cases k <;> rfl

/-- Only the control-high write reaches the controller. -/
theorem State.regWrite_sameController (s : State) (c : ChanIdx) {off : Nat} (b : Byte) (h : off ≠ 11) :
    SameController s (s.regWrite c off b) := by
  rw [State.regWrite, if_neg h]
  (repeat' split) <;> exact ⟨rfl, rfl, rfl, rfl, rfl⟩

/-- Settles O7: a write's record decodes by its offset, and what `Write` does at an offset stays in its channel and, but for
control high, out of the controller. -/
theorem writeDispatchesOnTheOffsetAlone : Obligations.WriteDispatchesOnTheOffsetAlone := by
  refine fun c off b rest s => ⟨decodeWrite c off b, s.regWrite c off b, decode_writeRecord c off b rest,
    exec_decodeWrite s c off b, ?src, ?dst, ?len, ?ctlLo, ?ctlHi, decodeWrite_reserved c b, fun _ hd => ?others,
    s.regWrite_sameController c b⟩
  case src => rintro k rfl; exact decodeWrite_src k c b
  case dst => rintro k rfl; exact decodeWrite_dst k c b
  case len => rintro k rfl; exact decodeWrite_len k c b
  case ctlLo => rintro rfl; rfl
  case ctlHi => rintro rfl; rfl
  case others => exact s.regWrite_chan_ne off b hd

/-! ### Reads that return 0x00, and the dispatch of reads (R91, R92, R95, R96) -/

theorem exec_zeroRead (k : Fin 10) (c : ChanIdx) (s : State) : exec (.zeroRead k c) s = .next (s.returnByte c k 0) := by
  fin_cases k <;> rfl

/-- Settles O20: both kinds of row return 0x00, and a returned byte is recorded and nothing more. -/
theorem writeOnlyAndReservedOffsetsReadZero : Obligations.WriteOnlyAndReservedOffsetsReadZero :=
  ⟨exec_zeroRead, fun _ _ _ _ => rfl⟩

theorem decodeRead_zero (k : Fin 10) (c : ChanIdx) : decodeRead c k = .zeroRead k c := by
  fin_cases k <;> rfl

/-- Only the two control bytes read as anything but 0x00. -/
theorem State.regByte_eq_zero (s : State) (c : ChanIdx) {off : Nat} (hlo : off ≠ 10) (hhi : off ≠ 11) :
    s.regByte c off = 0 := by
  rw [State.regByte, if_neg hlo, if_neg hhi]

/-- Settles O8: a read's record decodes by its offset, and what `Read` does at an offset is to return its byte. -/
theorem readDispatchesOnTheOffsetAndChangesNothing : Obligations.ReadDispatchesOnTheOffsetAndChangesNothing := by
  refine fun c off rest s => ⟨decodeRead c off, s.regByte c off, decode_readRecord c off rest, exec_decodeRead s c off,
    ?zero, ?ctlLo, ?ctlHi, decodeRead_reserved c, s.regByte_eq_zero c⟩
  case zero => rintro k rfl; exact decodeRead_zero k c
  case ctlLo => rintro rfl; rfl
  case ctlHi => rintro rfl; rfl

/-! ### Reads of the control bytes (R93, R94) -/

/-- Settles O21: of the three field bits of control low each stands at its own position, and none below 5. -/
theorem rCtlLoReconstructsTheControlLowByte : Obligations.RCtlLoReconstructsTheControlLowByte := by
  refine fun c s => ⟨_, exec_rCtlLo c s, ?bit7, ?bit6, ?bit5, fun j hj => ?low⟩
  all_goals rw [Channel.getLsbD_ctlLo _ (by omega)]
  case low =>
    have h7 : j ≠ 7 := by omega
    have h6 : j ≠ 6 := by omega
    have h5 : j ≠ 5 := by omega
    simp [h7, h6, h5]
  all_goals simp

/-- The field bits of control high, each with the position the layout gives it, in the order of
`CtlHiLayout.positions`. -/
def Channel.ctlHiBits (ch : Channel) (l : CtlHiLayout) : List (Bool × Fin 8) :=
  [(ch.srcAddressControl.bit1, l.srcControl1), (ch.repeats, l.repeats), (ch.unitSize.bit, l.unitSize),
    (ch.allowGamepakDrive, l.gamepak), (ch.timingMode.bit0, l.timing0), (ch.timingMode.bit1, l.timing1),
    (ch.interruptOnCompletion, l.interrupt), (ch.enable, l.enable)]

theorem Channel.ctlHiBits_positions (ch : Channel) (l : CtlHiLayout) : (ch.ctlHiBits l).map Prod.snd = l.positions := rfl

/-- A bit of control high is set when some field bit at its position is. -/
theorem Channel.getLsbD_ctlHi_eq_any (ch : Channel) (l : CtlHiLayout) (p : Fin 8) :
    (ch.ctlHi l).getLsbD p = (ch.ctlHiBits l).any fun f => f.1 && decide (p = f.2) := by
  simp only [Channel.getLsbD_ctlHi _ _ p.isLt, Channel.ctlHiBits, Fin.val_inj, List.any_cons, List.any_nil, Bool.or_false]
  ac_rfl

/-- R63: where no two field bits share a position, control high holds each at its own. -/
theorem Channel.getLsbD_ctlHi_of_mem {ch : Channel} {l : CtlHiLayout} (hl : l.wf = true) {v : Bool} {p : Fin 8}
    (h : (v, p) ∈ ch.ctlHiBits l) : (ch.ctlHi l).getLsbD p = v := by
  have hnodup : ((ch.ctlHiBits l).map Prod.snd).Nodup := of_decide_eq_true hl
  rw [Channel.getLsbD_ctlHi_eq_any, Bool.eq_iff_iff, List.any_eq_true]
  constructor
  · rintro ⟨⟨w, q⟩, hmem, hset⟩
    obtain ⟨hw, hq⟩ : w = true ∧ p = q := by simpa using hset
    have hsame := List.inj_on_of_nodup_map hnodup h hmem hq
    rw [(Prod.mk.inj hsame).1, hw]
  · exact fun hv => ⟨(v, p), h, by simp [hv]⟩

/-- Settles O22: each field bit is among those that control high is made of. -/
theorem rCtlHiReconstructsTheControlHighByte : Obligations.RCtlHiReconstructsTheControlHighByte := by
  intro c s hl
  refine ⟨_, exec_rCtlHi c s, ?_, ?_, ?_, ?_, ?_, ?_, ?_, ?_⟩ <;>
    exact Channel.getLsbD_ctlHi_of_mem hl (by simp [Channel.ctlHiBits])

end Sys2Proof.Machine

/-! Proofs of the statements about the priority arbitrator (41_arbitrator.md): what `lowest?` finds, what marking a channel
does to the schedule, and which of two immediate channels is served first. -/

namespace Sys2Proof.Machine

/-! ### `Lowest` and `MarkRunnable` (R100, R101) -/

/-- Settles O24, by what `lowest?` finds and when it finds nothing. -/
theorem lowestIsTheLeastMember : Obligations.LowestIsTheLeastMember :=
  fun _ => ⟨lowest?_eq_none, fun _ => lowest?_spec⟩

/-- Settles O25: each branch of `markRunnable` meets the one clause whose guard it satisfies; the other two guards
contradict its own. -/
theorem markRunnableSchedulesAndPreempts : Obligations.MarkRunnableSchedulesAndPreempts := by
  intro s id
  have hset := member_insertChan s.runSet id
  rcases s.markRunnable_cases id with ⟨hempty, hmark⟩ | ⟨hne, hlt, hmark⟩ | ⟨hne, hle, hmark⟩
  · exact ⟨_, id, s.interleaved, hmark, hset, fun _ => ⟨rfl, rfl⟩, fun hne => absurd hempty hne,
      fun hne => absurd hempty hne⟩
  · exact ⟨_, id, true, hmark, hset, fun hempty => absurd hempty hne, fun _ _ => ⟨rfl, rfl⟩,
      fun _ hle => absurd hlt (Fin.not_lt.mpr hle)⟩
  · exact ⟨_, s.current, s.interleaved, hmark, hset, fun hempty => absurd hempty hne,
      fun _ hlt => absurd hlt (Fin.not_lt.mpr hle), fun _ _ => ⟨rfl, rfl⟩⟩

/-! ### Two immediate channels (R106) -/

/-- R28, read off the members of `runSet`: the member with no member below it is `current`. -/
theorem State.CurrentIsLowest.current_eq {s : State} {c : ChanIdx} (h : s.CurrentIsLowest)
    (hmem : member s.runSet c = true) (hbelow : ∀ d, d < c → member s.runSet d = false) : s.current = c :=
  Option.some.inj ((h (ne_zero_of_member hmem)).symm.trans (lowest?_spec.mpr ⟨hmem, hbelow⟩))

/-- R88: a rising edge with immediate timing puts its channel into `runSet`. -/
theorem State.writeCtlHi_runSet_of_immediate {s : State} {c : ChanIdx} {b : Byte} (hwas : (s.chan c).enable = false)
    (hnow : b.getLsbD s.cfg.ctlHi.enable = true) (hmode : ((s.writeCtlHi c b).chan c).timingMode = .immediate) :
    (s.writeCtlHi c b).runSet = insertChan s.runSet c := by
  obtain ⟨_, ⟨⟩, -, -, -, himmediate, -⟩ := risingEdgeLatchesAndSchedulesImmediate c b s hwas hnow
  rw [(himmediate hmode).1, State.markRunnable_runSet]

/-- Rising edges of two channels with immediate timing, on an empty `runSet`, leave exactly these two runnable. -/
theorem State.member_runSet_of_two_immediate {s : State} {a b : ChanIdx} {x y : Byte} (hempty : s.runSet = 0)
    (hab : a ≠ b) (ha : (s.chan a).enable = false) (hb : (s.chan b).enable = false)
    (hx : x.getLsbD s.cfg.ctlHi.enable = true) (hy : y.getLsbD s.cfg.ctlHi.enable = true)
    (hma : (((s.writeCtlHi a x).writeCtlHi b y).chan a).timingMode = .immediate)
    (hmb : (((s.writeCtlHi a x).writeCtlHi b y).chan b).timingMode = .immediate) (d : ChanIdx) :
    member ((s.writeCtlHi a x).writeCtlHi b y).runSet d = (decide (d = a) || decide (d = b)) := by
  rw [State.writeCtlHi_chan_ne _ _ hab] at hma
  have hfirst : (s.writeCtlHi a x).runSet = insertChan s.runSet a := State.writeCtlHi_runSet_of_immediate ha hx hma
  have hsecond : ((s.writeCtlHi a x).writeCtlHi b y).runSet = insertChan (s.writeCtlHi a x).runSet b :=
    State.writeCtlHi_runSet_of_immediate (by rwa [State.writeCtlHi_chan_ne _ _ hab.symm])
      (by rwa [State.writeCtlHi_cfg]) hmb
  rw [hsecond, hfirst, hempty]
  simp

/-- R106: where `current` is the lowest runnable channel and exactly `i` and a higher `j` are runnable, `i` is `current`,
and its completion without repeat hands over to `j`. -/
theorem State.current_of_two_runnable {u : State} {i j : ChanIdx} (hlow : u.CurrentIsLowest) (hij : i < j)
    (hset : ∀ d, member u.runSet d = (decide (d = i) || decide (d = j))) :
    u.current = i ∧ member u.runSet i = true ∧ member u.runSet j = true
      ∧ ((u.chan i).repeats = false →
          (u.complete i).current = j ∧ member (u.complete i).runSet i = false ∧ member (u.complete i).runSet j = true) := by
  have hi : member u.runSet i = true := by simp [hset]
  have hj : member u.runSet j = true := by simp [hset]
  have hbelow : ∀ d, d < i → member u.runSet d = false := fun d hd => by simp [hset, hd.ne, (hd.trans hij).ne]
  refine ⟨hlow.current_eq hi hbelow, hi, hj, fun hrep => ?_⟩
  have hleft : ∀ d, member (u.complete i).runSet d = decide (d = j) := fun d => by
    rw [State.complete_runSet, if_neg (by simp [hrep]), member_removeChan, hset]
    by_cases hd : d = i
    · simp [hd, hij.ne]
    · simp [hd]
  have hj' : member (u.complete i).runSet j = true := by simp [hleft]
  have hbelow' : ∀ d, d < j → member (u.complete i).runSet d = false := fun d hd => by simp [hleft, hd.ne]
  exact ⟨(u.complete_lowest i).current_eq hj' hbelow', hbelow' i hij, hj'⟩

/-- Settles O27: whichever order the two are enabled in, `runSet` holds the two and no other, and control-high writes and
completions keep `current` its lowest member. -/
theorem lowerIndexedOfTwoImmediateChannelsIsCurrent : Obligations.LowerIndexedOfTwoImmediateChannelsIsCurrent := by
  rintro s _ _ i j a b x y hempty hij horder ha hb hx hy ⟨⟩ ⟨⟩ hma hmb
  have hlow := State.writeCtlHi_lowest (State.writeCtlHi_lowest (State.currentIsLowest_of_empty hempty) a x) b y
  have hab : a ≠ b := by
    rcases horder with ⟨rfl, rfl⟩ | ⟨rfl, rfl⟩
    · exact hij.ne
    · exact hij.ne'
  have hset := State.member_runSet_of_two_immediate hempty hab ha hb hx hy hma hmb
  refine State.current_of_two_runnable hlow hij fun d => ?_
  rcases horder with ⟨rfl, rfl⟩ | ⟨rfl, rfl⟩
  · exact hset d
  · rw [hset d, Bool.or_comm]

end Sys2Proof.Machine

/-! Proofs of the statements about the transfer engine (42_transfer_engine.md): the delta table, what completion does with
its channel, the first look of a `Run`, one unit on plain memory, and the units of a `Run` on a bus that brings nothing. -/

namespace Sys2Proof.Machine

/-! ### The delta table (R112) -/

/-- Settles O35: each entry is an equation of the model's own table. -/
theorem deltaTableIsAsListed : Obligations.DeltaTableIsAsListed :=
  fun _ => ⟨⟨rfl, rfl, rfl, rfl, rfl, rfl, rfl, rfl⟩, ⟨rfl, rfl, rfl, rfl, rfl, rfl, rfl, rfl⟩⟩

/-! ### Completion (R120 to R126) -/

/-- Settles O46, by what completion adds to the log and to the flag register. -/
theorem completionRaisesTheConfiguredInterrupt : Obligations.CompletionRaisesTheConfiguredInterrupt := by
  intro s ch
  rw [State.complete_log, State.complete_irqFlags]
  exact ⟨fun h => ⟨if_pos h, if_pos h⟩, fun h => ⟨if_neg (by simp [h]), if_neg (by simp [h])⟩⟩

/-- Settles O47: a repeating channel latches its length anew, and is taken out of `runSet` only with a timing that is not
immediate. -/
theorem repeatingCompletionRearmsTheChannel : Obligations.RepeatingCompletionRearmsTheChannel := by
  refine fun s ch hrep => ⟨⟨_, by rw [State.complete_chan_same, if_pos hrep]⟩, fun c => ?members,
    fun _ hd => s.complete_chan_ne hd, s.complete_interleaved ch⟩
  case members =>
    rw [State.complete_runSet]
    by_cases him : (s.chan ch).timingMode = .immediate
    · rw [if_pos ⟨hrep, him⟩]
      simp [him]
    · rw [if_neg (fun h => him h.2), member_removeChan]
      simp [him]

/-- Settles O49: without repeat completion clears `enable` and takes the channel out of `runSet`. -/
theorem nonRepeatingCompletionDisablesTheChannel : Obligations.NonRepeatingCompletionDisablesTheChannel := by
  refine fun s ch hrep => ⟨by rw [State.complete_chan_same, if_neg (by simp [hrep])], fun c => ?members,
    fun _ hd => s.complete_chan_ne hd, s.complete_hblankMask ch, s.complete_vblankMask ch, s.complete_interleaved ch⟩
  case members => rw [State.complete_runSet, if_neg (by simp [hrep]), member_removeChan]

/-- D22: a completion that leaves nothing runnable reselects nothing. -/
theorem State.complete_current_of_empty {s : State} {ch : ChanIdx} (h : (s.complete ch).runSet = 0) :
    (s.complete ch).current = s.current := by
  rw [State.complete, State.reselect_runSet] at h
  rw [State.complete, State.reselect_of_empty h, State.settle_current, State.raiseCompletion_current]

/-- Settles O50: the last step of completion reselects. -/
theorem completionReselectsTheLowestRunnableChannel : Obligations.CompletionReselectsTheLowestRunnableChannel :=
  fun s ch => ⟨s.complete_lowest ch, State.complete_current_of_empty⟩

/-- Settles O48, by what completion makes of its channel with repeat and without. -/
theorem destinationIsReloadedOnlyInReloadModeOnRepeat : Obligations.DestinationIsReloadedOnlyInReloadModeOnRepeat := by
  intro s ch
  rw [State.complete_chan_same]
  by_cases hrep : (s.chan ch).repeats = true
  · simp [hrep]
  · simp [hrep]

/-! ### The first look of a `Run` (R113 to R115) -/

/-- R113: with no unit left the loop completes, whatever the draws. -/
theorem State.runLoop_finished {ch : ChanIdx} {u : UnitSize} {dSrc dDst : Int} {s : State}
    (hl : (s.chan ch).internalLength = 0) (ds : List Int) : State.runLoop ch u dSrc dDst ds s = s.complete ch := by
  cases ds with
  | nil => exact if_pos hl
  | cons d ds => exact if_pos hl

/-- R114: with units left and no draw left the loop returns. -/
theorem State.runLoop_no_draw {ch : ChanIdx} {u : UnitSize} {dSrc dDst : Int} {s : State}
    (hl : (s.chan ch).internalLength ≠ 0) : State.runLoop ch u dSrc dDst [] s = s :=
  if_neg hl

/-- R114: with units left, a draw that is not positive is taken and the loop returns. -/
theorem State.runLoop_exhausted {ch : ChanIdx} {u : UnitSize} {dSrc dDst d : Int} {ds : List Int} {s : State}
    (hl : (s.chan ch).internalLength ≠ 0) (hd : d ≤ 0) :
    State.runLoop ch u dSrc dDst (d :: ds) s = { s with budget := ds } := by
  rw [State.runLoop, if_neg hl, if_pos hd]

theorem State.complete_busPorts (s : State) (ch : ChanIdx) : busPorts (s.complete ch).log = busPorts s.log := by
  rw [State.complete_log]
  split
  · exact busPorts_cons_irq _ _
  · rfl

/-- Settles O32: each clause is the branch of the loop that its premises select. -/
theorem runYieldsOnBudgetThenOnPreemptionAndCompletesOnLength :
    Obligations.RunYieldsOnBudgetThenOnPreemptionAndCompletesOnLength := by
  refine ⟨fun s hrun hl => ⟨fun hbudget => ?noDraw, fun d ds hbudget hd => ?exhausted⟩,
    fun s d ds hrun hl hbudget hd hi => ?preempted, fun s hrun hl => ⟨_, ?finished, rfl, s.complete_budget _,
      s.complete_interleaved _, s.complete_busPorts _⟩⟩
  all_goals rw [exec_run hrun, State.runEngine]
  case noDraw => rw [hbudget, State.runLoop_no_draw hl]
  case exhausted => rw [hbudget, State.runLoop_exhausted hl hd]
  case preempted => rw [hbudget, State.runLoop_preempted hl hd hi]
  case finished => rw [State.runLoop_finished hl]

/-! ### One unit to plain memory (R116 to R118) -/

/-- Bytes stored from `a` up leave every other address alone. -/
theorem State.read_storeMemBytes_ne {s : State} {a : Word} {bs : List Byte} {x : Nat}
    (h : ∀ k, k < bs.length → (byteAddr a k).toNat ≠ x) :
    Memory.read (s.storeMemBytes a bs).mem x = Memory.read s.mem x := by
  induction bs generalizing s a with
  | nil => rfl
  | cons b bs ih =>
    have hfirst : x ≠ a.toNat := by simpa [byteAddr_zero] using (h 0 (Nat.succ_pos _)).symm
    have hrest : ∀ k, k < bs.length → (byteAddr (a + 1) k).toNat ≠ x := fun k hk => by
      rw [byteAddr_succ]
      exact h (k + 1) (Nat.succ_lt_succ hk)
    rw [State.storeMemBytes, ih hrest, State.storeMemByte]
    split
    · rfl
    · exact Memory.read_write_ne _ _ hfirst

section UnitToMemory

variable {s : State} {ch : ChanIdx} {u : UnitSize} {dSrc dDst : Int} (hb : s.bus = [])
  (hd : plainUnit s.cfg u (s.chan ch).internalDst = true)
include hb hd

/-- A unit written to plain memory: the read, the write shown, its bytes stored, the advance. -/
theorem State.transferUnit_to_memory {v : UnitVal} (hv : v = s.readValue u (s.chan ch).internalSrc) :
    s.transferUnit ch u dSrc dDst = (((s.readAccess u (s.chan ch).internalSrc).emit
      (.busWrite .sequential (s.chan ch).internalDst v)).storeMemBytes (s.chan ch).internalDst v.bytes).advance
        ch dSrc dDst := by
  obtain ⟨halign, hmiss⟩ := plainUnit_iff.mp hd
  have hsize : v.size = u := by rw [hv, State.readValue_size]
  rw [← hsize] at halign hmiss
  have hb' : (s.readAccess u (s.chan ch).internalSrc).bus = [] := by simp [hb]
  rw [State.transferUnit_of_quiet_read (by rw [State.turn_nil hb]; rfl), State.nextTurn_nil hb, State.turn_nil hb, ← hv,
    State.writeAccess_aligned hb' halign, State.storeUnit_of_miss (by simpa using hmiss)]
  rfl

/-- R116: it leaves every byte of memory outside its destination alone. -/
theorem State.transferUnit_mem_frame {a : Nat} (ha : ∀ k, k < u.bytes → (byteAddr (s.chan ch).internalDst k).toNat ≠ a) :
    Memory.read (s.transferUnit ch u dSrc dDst).mem a = Memory.read s.mem a := by
  rw [State.transferUnit_to_memory hb hd rfl]
  refine (State.read_storeMemBytes_ne (by rwa [UnitVal.length_bytes, State.readValue_size])).trans ?_
  rw [State.emit_mem, State.readAccess_mem]

/-- R116, R117: read from plain memory, it puts the bytes of its source there. -/
theorem State.transferUnit_mem_copy (hm : s.MemoryCanonical) (hs : plainUnit s.cfg u (s.chan ch).internalSrc = true)
    {k : Nat} (hk : k < u.bytes) :
    Memory.read (s.transferUnit ch u dSrc dDst).mem (byteAddr (s.chan ch).internalDst k).toNat
      = Memory.read s.mem (byteAddr (s.chan ch).internalSrc k).toNat := by
  obtain ⟨hdAlign, hdMiss⟩ := plainUnit_iff.mp hd
  obtain ⟨hsAlign, hsMiss⟩ := plainUnit_iff.mp hs
  have hfit := aligned_fits hdAlign
  have hlen : (s.loadUnit u (s.chan ch).internalSrc).bytes.length = u.bytes := by
    rw [UnitVal.length_bytes, ← State.readValue_aligned hb hsAlign, State.readValue_size]
  rw [State.transferUnit_to_memory hb hd rfl, State.readValue_aligned hb hsAlign]
  refine (State.read_storeMemBytes (by rw [State.emit_mem, State.readAccess_mem]; exact hm) (by rwa [hlen])
    (fun j hj => by simpa using hdMiss _ (mem_unitAddrs (hlen ▸ hj))) _).trans ?_
  rw [byteAddr_toNat (by omega), hlen, if_pos (by omega), Nat.add_sub_cancel_left, State.loadUnit_bytes hk,
    State.busByte, hsMiss _ (mem_unitAddrs hk)]

/-- With an aligned source no free value is used. -/
theorem State.transferUnit_freeCount (hs : aligned u (s.chan ch).internalSrc = true) :
    (s.transferUnit ch u dSrc dDst).freeCount = s.freeCount := by
  rw [State.transferUnit_to_memory hb hd rfl, State.readAccess_aligned hb hs]
  exact State.storeMemBytes_freeCount _ _ _

end UnitToMemory

/-- Settles O37: what is stored is what was loaded, byte by byte, and the rest is what any unit does on such a bus. -/
theorem unitCopiesMemoryAndAdvances : Obligations.UnitCopiesMemoryAndAdvances := by
  intro s ch u dSrc dDst hm hb hs hd
  obtain ⟨v, hv, -, hcontroller, hothers, hchan, hbus, hlog⟩ :=
    State.transferUnit_quiet (dSrc := dSrc) (dDst := dDst) hb (plainUnit_iff.mp hd).2
  exact ⟨fun k hk => State.transferUnit_mem_copy hb hd hm hs hk,
    fun a ha => State.transferUnit_mem_frame hb hd fun k hk => ha _ (mem_unitAddrs hk),
    ⟨v, by rw [hv, State.readValue_size], hlog⟩, hchan, hothers, hcontroller,
    s.transferUnit_cfg .., s.transferUnit_irqFlags .., s.transferUnit_budget .., hbus.trans hb.symm,
    s.transferUnit_port .., s.transferUnit_resetReq .., State.transferUnit_freeCount hb hd (plainUnit_iff.mp hs).1⟩

/-! ### The units of a `Run` on a bus that brings nothing (R118, R129) -/

/-- `t` is where `n` units of channel `ch` lead from `s` on a bus that brings nothing, as far as the block goes: both
addresses `n` deltas further, the length `n` lower, and the rest of the block as it was. -/
structure UnitsDone (ch : ChanIdx) (dSrc dDst : Int) (n : Nat) (s t : State) : Prop where
  bus : t.bus = []
  cfg : t.cfg = s.cfg
  chan : t.chan ch = { s.chan ch with
    internalSrc := unitAddr (s.chan ch).internalSrc dSrc n
    internalDst := unitAddr (s.chan ch).internalDst dDst n
    internalLength := (s.chan ch).internalLength - BitVec.ofNat 32 n }
  others : SameOtherChannels ch s t
  controller : SameController s t

/-- None of the first `n` units of channel `ch` is stored to the register blocks. -/
def State.UnitsMissRegisters (s : State) (ch : ChanIdx) (u : UnitSize) (dDst : Int) (n : Nat) : Prop :=
  ∀ k, k < n → ∀ x ∈ unitAddrs u (unitAddr (s.chan ch).internalDst dDst k), registerAt s.cfg x = none

theorem State.unitsMissRegisters_of_plain {s : State} {ch : ChanIdx} {u : UnitSize} {dDst : Int} {n : Nat}
    (h : ∀ k, k < n → plainUnit s.cfg u (unitAddr (s.chan ch).internalDst dDst k) = true) :
    s.UnitsMissRegisters ch u dDst n :=
  fun k hk => (plainUnit_iff.mp (h k hk)).2

theorem State.UnitsMissRegisters.of_succ {s : State} {ch : ChanIdx} {u : UnitSize} {dDst : Int} {n : Nat}
    (h : s.UnitsMissRegisters ch u dDst (n + 1)) : s.UnitsMissRegisters ch u dDst n :=
  fun k hk => h k (hk.trans n.lt_succ_self)

/-- One delta past unit `n` is unit `n + 1`. -/
theorem unitAddr_add_delta (b : Word) (d : Int) (n : Nat) : unitAddr b d n + BitVec.ofInt 32 d = unitAddr b d (n + 1) := by
  rw [unitAddr, unitAddr, BitVec.add_assoc, ← BitVec.ofInt_add]
  congr 2
  push_cast
  ring

theorem SameController.trans {s t r : State} (hst : SameController s t) (htr : SameController t r) :
    SameController s r := by
  obtain ⟨hh, hv, hrun, hcur, hi⟩ := hst
  obtain ⟨hh', hv', hrun', hcur', hi'⟩ := htr
  exact ⟨hh'.trans hh, hv'.trans hv, hrun'.trans hrun, hcur'.trans hcur, hi'.trans hi⟩

namespace UnitsDone

variable {ch : ChanIdx} {u : UnitSize} {dSrc dDst : Int} {n : Nat} {s t : State}

theorem zero (hb : s.bus = []) : UnitsDone ch dSrc dDst 0 s s where
  bus := hb
  cfg := rfl
  chan := by rw [unitAddr_zero, unitAddr_zero, BitVec.sub_zero]
  others _ _ := rfl
  controller := ⟨rfl, rfl, rfl, rfl, rfl⟩

/-- The draws are no part of it. -/
theorem withBudget (h : UnitsDone ch dSrc dDst n s t) (ds : List Int) :
    UnitsDone ch dSrc dDst n s { t with budget := ds } :=
  ⟨h.bus, h.cfg, h.chan, h.others, h.controller⟩

theorem internalDst_eq (h : UnitsDone ch dSrc dDst n s t) :
    (t.chan ch).internalDst = unitAddr (s.chan ch).internalDst dDst n := by
  rw [h.chan]

theorem internalSrc_eq (h : UnitsDone ch dSrc dDst n s t) :
    (t.chan ch).internalSrc = unitAddr (s.chan ch).internalSrc dSrc n := by
  rw [h.chan]

/-- While no more units are done than there were, none is lost from the count. -/
theorem length_toNat (h : UnitsDone ch dSrc dDst n s t) (hn : n ≤ (s.chan ch).internalLength.toNat) :
    (t.chan ch).internalLength.toNat = (s.chan ch).internalLength.toNat - n := by
  have hlt := (s.chan ch).internalLength.isLt
  rw [h.chan, BitVec.toNat_sub, BitVec.toNat_ofNat]
  omega

/-- With all units done the length is zero. -/
theorem chan_of_all (h : UnitsDone ch dSrc dDst n s t) (hn : (s.chan ch).internalLength.toNat = n) :
    t.chan ch = { s.chan ch with
      internalSrc := unitAddr (s.chan ch).internalSrc dSrc n
      internalDst := unitAddr (s.chan ch).internalDst dDst n
      internalLength := 0 } := by
  have hzero : (s.chan ch).internalLength - BitVec.ofNat 32 n = 0 := by
    rw [← hn, BitVec.ofNat_toNat, BitVec.setWidth_eq]
    exact BitVec.sub_self _
  rw [h.chan, hzero]

/-- The next unit meets no register either. -/
theorem next_misses (h : UnitsDone ch dSrc dDst n s t) (hs : s.UnitsMissRegisters ch u dDst (n + 1)) :
    ∀ x ∈ unitAddrs u (t.chan ch).internalDst, registerAt t.cfg x = none := by
  rw [h.internalDst_eq, h.cfg]
  exact hs n n.lt_succ_self

/-- One more unit that meets no register. -/
theorem transferUnit (h : UnitsDone ch dSrc dDst n s t) (hs : s.UnitsMissRegisters ch u dDst (n + 1)) :
    UnitsDone ch dSrc dDst (n + 1) s (t.transferUnit ch u dSrc dDst) := by
  obtain ⟨_, -, -, hcontroller, hothers, hchan, hbus, -⟩ :=
    State.transferUnit_quiet (dSrc := dSrc) (dDst := dDst) h.bus (h.next_misses hs)
  refine ⟨hbus, (t.transferUnit_cfg ..).trans h.cfg, ?chan, fun d hd => (hothers d hd).trans (h.others d hd),
    h.controller.trans hcontroller⟩
  case chan =>
    rw [hchan, h.chan]
    simp only [unitAddr_add_delta, BitVec.ofNat_add, BitVec.sub_sub]
    rfl

/-- The parameters a `Run` samples (R110, R111) are what they were, so a `Run` from here goes on with the same loop. -/
theorem runEngine_eq (h : UnitsDone s.current dSrc dDst n s t) :
    t.runEngine = State.runLoop s.current (s.chan s.current).unitSize (s.srcDelta s.current) (s.dstDelta s.current)
      t.budget t := by
  obtain ⟨-, -, -, hcurrent, -⟩ := h.controller
  simp only [State.runEngine, hcurrent, h.chan, h.cfg]
  rfl

end UnitsDone

namespace State

variable (ch : ChanIdx) (u : UnitSize) (dSrc dDst : Int)

/-- The last of `n + 1` units follows `n` units. -/
theorem units_snoc (n : Nat) (s : State) : units ch u dSrc dDst (n + 1) s =
    transferUnit { units ch u dSrc dDst n s with budget := (units ch u dSrc dDst n s).budget.tail } ch u dSrc dDst := by
  induction n generalizing s with
  | zero => rfl
  | succ n ih =>
    rw [units, ih]
    rfl

@[simp] theorem units_irqFlags (n : Nat) (s : State) : (units ch u dSrc dDst n s).irqFlags = s.irqFlags := by
  induction n with
  | zero => rfl
  | succ n ih => rw [units_snoc, transferUnit_irqFlags]; exact ih

@[simp] theorem units_port (n : Nat) (s : State) : (units ch u dSrc dDst n s).port = s.port := by
  induction n with
  | zero => rfl
  | succ n ih => rw [units_snoc, transferUnit_port]; exact ih

@[simp] theorem units_resetReq (n : Nat) (s : State) : (units ch u dSrc dDst n s).resetReq = s.resetReq := by
  induction n with
  | zero => rfl
  | succ n ih => rw [units_snoc, transferUnit_resetReq]; exact ih

/-- R114: each unit takes one draw. -/
@[simp] theorem units_budget (n : Nat) (s : State) : (units ch u dSrc dDst n s).budget = s.budget.drop n := by
  induction n with
  | zero => rfl
  | succ n ih => rw [units_snoc, transferUnit_budget, ih, List.tail_drop]

theorem units_canonical (n : Nat) {s : State} (h : s.MemoryCanonical) : (units ch u dSrc dDst n s).MemoryCanonical := by
  induction n with
  | zero => exact h
  | succ n ih =>
    rw [units_snoc]
    exact busWrite_wf (by rw [busRead_mem]; exact ih) _ _

variable {ch u dSrc dDst} {n : Nat} {s : State}

theorem units_done (hb : s.bus = []) (hs : s.UnitsMissRegisters ch u dDst n) :
    UnitsDone ch dSrc dDst n s (units ch u dSrc dDst n s) := by
  induction n with
  | zero => exact .zero hb
  | succ n ih =>
    rw [units_snoc]
    exact ((ih hs.of_succ).withBudget _).transferUnit hs

/-- Such units neither read nor write the draws that they take. -/
theorem units_budget_update (x : List Int) (hb : s.bus = []) (hs : s.UnitsMissRegisters ch u dDst n) :
    units ch u dSrc dDst n { s with budget := x } = { units ch u dSrc dDst n s with budget := x.drop n } := by
  induction n with
  | zero => rfl
  | succ n ih =>
    have hdone : UnitsDone ch dSrc dDst n s (units ch u dSrc dDst n s) := units_done hb hs.of_succ
    have hmiss := hdone.next_misses hs
    rw [units_snoc, units_snoc, ih hs.of_succ]
    generalize units ch u dSrc dDst n s = r at hdone hmiss ⊢
    rw [transferUnit_budget_update r.budget.tail hdone.bus hmiss, ← List.tail_drop]
    exact transferUnit_budget_update (x.drop n).tail hdone.bus hmiss

/-- R129: unit `k` reads and writes `k` deltas from where the channel stood, and nothing else is shown. -/
theorem units_log (hb : s.bus = []) (hs : s.UnitsMissRegisters ch u dDst n) :
    ∃ es : List Event, (units ch u dSrc dDst n s).log = es ++ s.log ∧ irqsOf es = []
      ∧ busPorts es.reverse = (List.range n).flatMap fun k =>
          [.reads (unitAddr (s.chan ch).internalSrc dSrc k), .writes (unitAddr (s.chan ch).internalDst dDst k)] := by
  induction n with
  | zero => exact ⟨[], rfl, rfl, rfl⟩
  | succ n ih =>
    obtain ⟨es, hlog, hirqs, hports⟩ := ih hs.of_succ
    have hdone := (units_done (dSrc := dSrc) hb hs.of_succ).withBudget (units ch u dSrc dDst n s).budget.tail
    obtain ⟨v, -, -, -, -, -, -, hunit⟩ :=
      transferUnit_quiet (dSrc := dSrc) (dDst := dDst) hdone.bus (hdone.next_misses hs)
    rw [hdone.internalDst_eq, hdone.internalSrc_eq] at hunit
    rw [units_snoc]
    refine ⟨_ :: _ :: es, hunit.trans (congrArg (_ :: _ :: ·) hlog), hirqs, ?_⟩
    rw [List.range_succ, List.flatMap_append, ← hports]
    simp [busPorts, Event.port?]

/-- R116: units written to plain memory leave every byte outside their destinations alone. -/
theorem units_mem_frame (hb : s.bus = [])
    (hd : ∀ k, k < n → plainUnit s.cfg u (unitAddr (s.chan ch).internalDst dDst k) = true) {a : Nat}
    (ha : ∀ k, k < n → ∀ x ∈ unitAddrs u (unitAddr (s.chan ch).internalDst dDst k), x.toNat ≠ a) :
    Memory.read (units ch u dSrc dDst n s).mem a = Memory.read s.mem a := by
  induction n with
  | zero => rfl
  | succ n ih =>
    have hd' : ∀ k, k < n → plainUnit s.cfg u (unitAddr (s.chan ch).internalDst dDst k) = true :=
      fun k hk => hd k (hk.trans n.lt_succ_self)
    have hdone := (units_done (dSrc := dSrc) hb (unitsMissRegisters_of_plain hd')).withBudget
      (units ch u dSrc dDst n s).budget.tail
    rw [units_snoc, transferUnit_mem_frame hdone.bus
      (by rw [hdone.internalDst_eq, hdone.cfg]; exact hd n n.lt_succ_self)
      (by rw [hdone.internalDst_eq]; exact fun k hk => ha n n.lt_succ_self _ (mem_unitAddrs hk))]
    exact ih hd' fun k hk => ha k (hk.trans n.lt_succ_self)

end State

/-! ### A `Run` with budget (R113, R129) -/

/-- `n` units as a `Run` from `s` performs them, with the channel, the size and the deltas sampled at its entry. -/
def State.afterUnits (s : State) (n : Nat) : State :=
  State.units s.current (s.chan s.current).unitSize (s.srcDelta s.current) (s.dstDelta s.current) n s

theorem State.afterUnits_done {s : State} {n : Nat} (hb : s.bus = [])
    (hd : ∀ k, k < n → plainUnit s.cfg (s.chan s.current).unitSize (s.writeAddr s.current k) = true) :
    UnitsDone s.current (s.srcDelta s.current) (s.dstDelta s.current) n s (s.afterUnits n) :=
  State.units_done hb (State.unitsMissRegisters_of_plain hd)

/-- With positive draws, units left and no preemption, a `Run` does one unit a draw and goes on with the other draws. -/
theorem State.exec_run_draws {s : State} {ps qs : List Int} (hrun : s.runSet ≠ 0) (hp : ∀ d ∈ ps, 0 < d)
    (hl : ps.length ≤ (s.chan s.current).internalLength.toNat) (hi : s.interleaved = false) (hb : s.bus = [])
    (hbudget : s.budget = ps ++ qs)
    (hd : ∀ k, k < ps.length → plainUnit s.cfg (s.chan s.current).unitSize (s.writeAddr s.current k) = true) :
    exec .run s = .next (State.runLoop s.current (s.chan s.current).unitSize (s.srcDelta s.current)
      (s.dstDelta s.current) qs (s.afterUnits ps.length)) := by
  rw [exec_run hrun, State.runEngine, hbudget]
  exact congrArg _ (State.runLoop_prefix ps qs s hp hl hi hb hbudget hd)

/-- With budget for all its units, a `Run` does them and completes. -/
theorem State.exec_run_all {s : State} {n : Nat} (hrun : s.runSet ≠ 0)
    (hn : (s.chan s.current).internalLength.toNat = n) (hbudget : n ≤ s.budget.length)
    (hp : ∀ d ∈ s.budget.take n, 0 < d) (hi : s.interleaved = false) (hb : s.bus = [])
    (hd : ∀ k, k < n → plainUnit s.cfg (s.chan s.current).unitSize (s.writeAddr s.current k) = true) :
    exec .run s = .next ((s.afterUnits n).complete s.current) := by
  have hlen : (s.budget.take n).length = n := List.length_take_of_le hbudget
  have hfinished : ((s.afterUnits n).chan s.current).internalLength = 0 := by
    rw [(State.afterUnits_done hb hd).chan_of_all hn]
  rw [State.exec_run_draws hrun hp (by rw [hlen, hn]) hi hb (List.take_append_drop n s.budget).symm
    (by rwa [hlen]), hlen, State.runLoop_finished hfinished]

/-- Settles O40: a `Run` with budget is its units and a completion, which changes no memory. -/
theorem runPerformsAllRemainingUnitsAndCompletes : Obligations.RunPerformsAllRemainingUnitsAndCompletes := by
  intro s n hrun hn hbudget hp hi hb hd
  have hdone := State.afterUnits_done hb hd
  refine ⟨_, s.afterUnits n, State.exec_run_all hrun hn hbudget hp hi hb hd, rfl, hdone.chan_of_all hn, hdone.others,
    hdone.controller, State.units_budget .., State.units_irqFlags .., hdone.cfg, hdone.bus, State.units_port ..,
    State.units_resetReq .., State.units_log hb (State.unitsMissRegisters_of_plain hd), fun a ha => ?_⟩
  rw [State.complete_mem]
  exact State.units_mem_frame hb hd ha

/-- Settles O42: at the end of its draws a `Run` has done one unit a draw and still has the parameters it sampled, so the
next one goes on with the same loop. -/
theorem budgetYieldLosesAndRepeatsNoUnit : Obligations.BudgetYieldLosesAndRepeatsNoUnit := by
  intro s ps qs hrun hp hl hi hb hd
  have hdone := State.afterUnits_done hb hd
  have hafter : ∀ x : List Int,
      State.afterUnits { s with budget := x } ps.length = { s.afterUnits ps.length with budget := x.drop ps.length } :=
    fun x => State.units_budget_update x hb (State.unitsMissRegisters_of_plain hd)
  have hlength := hdone.length_toNat hl.le
  have hleft : ((s.afterUnits ps.length).chan s.current).internalLength ≠ 0 :=
    BitVec.toNat_ne.mpr (show _ ≠ 0 by omega)
  have hfirst : exec .run { s with budget := ps } = .next { s.afterUnits ps.length with budget := [] } := by
    refine (State.exec_run_draws (s := { s with budget := ps }) (qs := []) hrun hp hl.le hi hb
      (List.append_nil ps).symm hd).trans ?_
    rw [hafter, List.drop_length]
    exact congrArg _ (State.runLoop_no_draw hleft)
  have hwhole := State.exec_run_draws (s := { s with budget := ps ++ qs }) hrun hp hl.le hi hb rfl hd
  rw [hafter, List.drop_left] at hwhole
  refine ⟨_, hfirst, ?_, hdone.controller, ?_⟩
  · show ((s.afterUnits ps.length).chan s.current).internalLength.toNat + ps.length = _
    omega
  · obtain ⟨-, -, hset, -, -⟩ := hdone.controller
    rw [exec_run (by rw [← hset] at hrun; exact hrun), hwhole]
    exact congrArg _ (hdone.withBudget qs).runEngine_eq

/-! ### What a `Run` leaves alone (R130) -/

/-- `r` is `s` with some of the units done that its current channel has left. -/
def State.ReachedByUnits (s r : State) : Prop :=
  ∃ n, n ≤ (s.chan s.current).internalLength.toNat
    ∧ UnitsDone s.current (s.srcDelta s.current) (s.dstDelta s.current) n s r

/-- A `Run` whose units meet no register ends in a completion or a yield after some number of them. -/
theorem State.exec_run_units {s t : State} (hb : s.bus = [])
    (hs : s.UnitsMissRegisters s.current (s.chan s.current).unitSize (s.dstDelta s.current)
      (s.chan s.current).internalLength.toNat) (ht : exec .run s = .next t) :
    ∃ n r, UnitsDone s.current (s.srcDelta s.current) (s.dstDelta s.current) n s r
      ∧ (t = r.complete s.current ∨ t = r ∨ (∃ es, t = { r with budget := es })
        ∨ ∃ es, t = { r with budget := es, interleaved := false }) := by
  have hrun : s.runSet ≠ 0 := (exec_run_answers_iff s).mp ⟨t, ht⟩
  rw [exec_run hrun] at ht
  cases ht
  have hstep : ∀ (r : State) (ds : List Int), s.ReachedByUnits r → (r.chan s.current).internalLength ≠ 0 →
      r.interleaved = false → s.ReachedByUnits (State.transferUnit { r with budget := ds } s.current
        (s.chan s.current).unitSize (s.srcDelta s.current) (s.dstDelta s.current)) := by
    rintro r ds ⟨n, hn, hr⟩ hleft -
    have hlength := hr.length_toNat hn
    have hlt : n < (s.chan s.current).internalLength.toNat := by
      have : (r.chan s.current).internalLength.toNat ≠ 0 := BitVec.toNat_ne.mp hleft
      omega
    exact ⟨n + 1, hlt, (hr.withBudget ds).transferUnit fun k hk => hs k (by omega)⟩
  obtain ⟨r, ⟨n, -, hr⟩, hend⟩ := State.runLoop_cases hstep s.budget s ⟨0, Nat.zero_le _, .zero hb⟩
  exact ⟨n, r, hr, hend.imp And.left id⟩

/-- Settles O45: units change the captured channel's internal fields only, completion clears or keeps its `enable`
and its bit of `runSet`, and a yield changes no channel. -/
theorem runTouchesOnlyTheCapturedChannel : Obligations.RunTouchesOnlyTheCapturedChannel := by
  intro s t _ hb hs ht
  obtain ⟨n, r, hr, hend⟩ := State.exec_run_units hb hs ht
  obtain ⟨hh, hv, hset, -, -⟩ := hr.controller
  rcases hend with rfl | rfl | ⟨es, rfl⟩ | ⟨es, rfl⟩
  case inl =>
    refine ⟨fun d hd => (r.complete_chan_ne hd).trans (hr.others d hd), (r.complete_hblankMask _).trans hh,
      (r.complete_vblankMask _).trans hv, fun d hd => ?members, ?chan⟩
    case members =>
      rw [State.complete_runSet, ← hset]
      split
      · rfl
      · simp [hd]
    case chan =>
      rw [State.complete_chan_same, hr.chan]
      split
      · exact ⟨_, _, _, _, rfl⟩
      · exact ⟨_, _, _, _, rfl⟩
  all_goals exact ⟨hr.others, hh, hv, fun d _ => congrArg (member · d) hset, _, _, _, _, hr.chan⟩

/-! ### A block copied to a disjoint one (R129) -/

/-- Byte `j` of unit `k` of a block, where the block does not wrap. -/
theorem unitByte_toNat {B : Word} {m k j : Nat} (h : B.toNat + (k * m + j) < 4294967296) :
    (byteAddr (unitAddr B (m : Int) k) j).toNat = B.toNat + (k * m + j) := by
  rw [byteAddr_unitAddr, byteAddr_toNat h]

/-- The units of an aligned block of plain memory that does not wrap are plain. -/
theorem plainUnit_of_block {g : Config} {u : UnitSize} {B : Word} {n : Nat} (ha : aligned u B = true)
    (hfit : B.toNat + n * u.bytes ≤ 4294967296) (hplain : ∀ j, j < n * u.bytes → registerAt g (byteAddr B j) = none)
    {k : Nat} (hk : k < n) : plainUnit g u (unitAddr B u.bytes k) = true := by
  have hin : (k + 1) * u.bytes ≤ n * u.bytes := Nat.mul_le_mul_right _ hk
  rw [Nat.succ_mul] at hin
  have hpos : 0 < u.bytes := by cases u <;> decide
  have haddr : (unitAddr B u.bytes k).toNat = B.toNat + k * u.bytes := by
    rw [← byteAddr_zero (unitAddr B u.bytes k), unitByte_toNat (by omega), Nat.add_zero]
  refine plainUnit_iff.mpr ⟨?align, fun x hx => ?miss⟩
  case align =>
    rw [aligned, decide_eq_true_eq] at ha ⊢
    rw [haddr, Nat.add_mul_mod_self_right, ha]
  case miss =>
    obtain ⟨j, hj, rfl⟩ := List.mem_map.mp hx
    have hj' : j < u.bytes := List.mem_range.mp hj
    rw [byteAddr_unitAddr]
    exact hplain _ (by omega)

/-- Unit `n` of two blocks of plain memory: its bytes are copied to their place in the other block, and nothing else
changes. -/
theorem State.transferUnit_copy_block {r : State} {ch : ChanIdx} {u : UnitSize} {dSrc dDst : Int} {n : Nat} {S D : Word}
    (hb : r.bus = []) (hm : r.MemoryCanonical) (hS : (r.chan ch).internalSrc = unitAddr S u.bytes n)
    (hD : (r.chan ch).internalDst = unitAddr D u.bytes n) (hsrc : plainUnit r.cfg u (unitAddr S u.bytes n) = true)
    (hdst : plainUnit r.cfg u (unitAddr D u.bytes n) = true) (hSfit : S.toNat + (n * u.bytes + u.bytes) ≤ 4294967296)
    (hDfit : D.toNat + (n * u.bytes + u.bytes) ≤ 4294967296) :
    (∀ i, i < u.bytes → Memory.read (r.transferUnit ch u dSrc dDst).mem (D.toNat + (n * u.bytes + i))
      = Memory.read r.mem (S.toNat + (n * u.bytes + i)))
    ∧ ∀ a, (a < D.toNat + n * u.bytes ∨ D.toNat + (n * u.bytes + u.bytes) ≤ a) →
      Memory.read (r.transferUnit ch u dSrc dDst).mem a = Memory.read r.mem a := by
  rw [← hS] at hsrc
  rw [← hD] at hdst
  refine ⟨fun i hi => ?copied, fun a ha => State.transferUnit_mem_frame hb hdst fun k hk => ?outside⟩
  case copied =>
    have hunit := State.transferUnit_mem_copy (dSrc := dSrc) (dDst := dDst) hb hdst hm hsrc hi
    rwa [hD, hS, unitByte_toNat (by omega), unitByte_toNat (by omega)] at hunit
  case outside =>
    rw [hD, unitByte_toNat (by omega)]
    omega

/-- Units that increment over two disjoint blocks of plain memory copy one to the other: a unit reads where no unit before
it wrote. -/
theorem State.units_copy_block {s : State} {ch : ChanIdx} {u : UnitSize} {n : Nat} {S D : Word}
    (hS : (s.chan ch).internalSrc = S) (hD : (s.chan ch).internalDst = D) (hm : s.MemoryCanonical) (hb : s.bus = [])
    (hsrc : ∀ k, k < n → plainUnit s.cfg u (unitAddr S u.bytes k) = true)
    (hdst : ∀ k, k < n → plainUnit s.cfg u (unitAddr D u.bytes k) = true)
    (hSfit : S.toNat + n * u.bytes ≤ 4294967296) (hDfit : D.toNat + n * u.bytes ≤ 4294967296)
    (hdisjoint : S.toNat + n * u.bytes ≤ D.toNat ∨ D.toNat + n * u.bytes ≤ S.toNat) :
    (∀ j, j < n * u.bytes →
      Memory.read (State.units ch u u.bytes u.bytes n s).mem (D.toNat + j) = Memory.read s.mem (S.toNat + j))
    ∧ ∀ a, (a < D.toNat ∨ D.toNat + n * u.bytes ≤ a) →
      Memory.read (State.units ch u u.bytes u.bytes n s).mem a = Memory.read s.mem a := by
  induction n with
  | zero => exact ⟨fun j hj => absurd hj (by omega), fun _ _ => rfl⟩
  | succ n ih =>
    rw [Nat.succ_mul] at hSfit hDfit hdisjoint ⊢
    have hdst' : ∀ k, k < n → plainUnit s.cfg u (unitAddr D u.bytes k) = true :=
      fun k hk => hdst k (hk.trans n.lt_succ_self)
    obtain ⟨hcopied, hkept⟩ := ih (fun k hk => hsrc k (hk.trans n.lt_succ_self)) hdst' (by omega) (by omega) (by omega)
    have hdone := (State.units_done (dSrc := u.bytes) hb (State.unitsMissRegisters_of_plain (hD ▸ hdst'))).withBudget
      (State.units ch u u.bytes u.bytes n s).budget.tail
    have hcanon := State.units_canonical ch u u.bytes u.bytes n hm
    rw [State.units_snoc]
    obtain ⟨hunit, hframe⟩ := State.transferUnit_copy_block (dSrc := u.bytes) (dDst := u.bytes) hdone.bus hcanon
      (hS ▸ hdone.internalSrc_eq) (hD ▸ hdone.internalDst_eq) (by rw [hdone.cfg]; exact hsrc n n.lt_succ_self)
      (by rw [hdone.cfg]; exact hdst n n.lt_succ_self) hSfit hDfit
    refine ⟨fun j hj => ?_, fun a ha => (hframe a (by omega)).trans (hkept a (by omega))⟩
    by_cases hbefore : j < n * u.bytes
    · exact (hframe _ (by omega)).trans (hcopied j hbefore)
    · obtain ⟨i, rfl⟩ := Nat.exists_eq_add_of_le (Nat.not_lt.mp hbefore)
      exact (hunit i (by omega)).trans (hkept _ (by omega))

/-- Settles O41: the units copy the block, and completion changes no memory. -/
theorem runCopiesADisjointBlock : Obligations.RunCopiesADisjointBlock := by
  intro s n u S D hm hrun hn hbudget hp hi hb hu hS hD hdS hdD haS haD hSfit hDfit hdisjoint hplain
  have hsrc : ∀ k, k < n → plainUnit s.cfg u (unitAddr S u.bytes k) = true :=
    fun k hk => plainUnit_of_block haS hSfit (fun j hj => (hplain j hj).1) hk
  have hdst : ∀ k, k < n → plainUnit s.cfg u (unitAddr D u.bytes k) = true :=
    fun k hk => plainUnit_of_block haD hDfit (fun j hj => (hplain j hj).2) hk
  refine ⟨_, State.exec_run_all hrun hn hbudget hp hi hb ?_, ?_⟩
  · rw [← hu]
    simpa only [State.writeAddr, hdD, ← hD] using hdst
  · rw [State.complete_mem, State.afterUnits, hdS, hdD, ← hu]
    exact State.units_copy_block hS.symm hD.symm hm hb hsrc hdst hSfit hDfit hdisjoint

end Sys2Proof.Machine

/-! Proofs of the statements about triggers and demand (43_triggers_and_demand.md): what the documented blank triggers and
their optional variant do to the schedule, and what a FIFO request does. -/

namespace Sys2Proof.Machine

/-! ### The documented blank triggers (R140 to R142) -/

theorem member_and (S T : ChanSet) (c : ChanIdx) : member (S &&& T) c = (member S c && member T c) :=
  BitVec.getLsbD_and

theorem exec_triggerHBlank_documented {s : State} (h : s.cfg.trigger = .documented) :
    exec .triggerHBlank s = .next (s.documentedTrigger s.hblankMask) := by
  simp only [exec, execTriggerHBlank, State.hblankTrigger, h]

theorem exec_triggerVBlank_documented {s : State} (h : s.cfg.trigger = .documented) :
    exec .triggerVBlank s = .next (s.documentedTrigger s.vblankMask) := by
  simp only [exec, execTriggerVBlank, State.vblankTrigger, h]

theorem State.documentedTrigger_of_lowest {s : State} {mask : ChanSet} {id : ChanIdx}
    (h : lowest? (s.runSet &&& mask) = some id) : s.documentedTrigger mask = s.markRunnable id := by
  rw [State.documentedTrigger, h]

theorem State.documentedTrigger_of_disjoint {s : State} {mask : ChanSet} (h : s.runSet &&& mask = 0) :
    s.documentedTrigger mask = s := by
  rw [State.documentedTrigger, lowest?_eq_none.mpr h]

/-- Settles O28: `lowest?` of the runnable members of the mask decides between the two outcomes. -/
theorem blankTriggersRemarkTheLowestRunnableMember : Obligations.BlankTriggersRemarkTheLowestRunnableMember := by
  intro s h
  rw [exec_triggerHBlank_documented h, exec_triggerVBlank_documented h]
  exact ⟨fun _ hid => congrArg _ (State.documentedTrigger_of_lowest hid),
    fun hnone => congrArg _ (State.documentedTrigger_of_disjoint hnone),
    fun _ hid => congrArg _ (State.documentedTrigger_of_lowest hid),
    fun hnone => congrArg _ (State.documentedTrigger_of_disjoint hnone)⟩

/-- R28: no runnable channel is below `current`. -/
theorem State.CurrentIsLowest.current_le {s : State} {c : ChanIdx} (h : s.CurrentIsLowest)
    (hmem : member s.runSet c = true) : s.current ≤ c := by
  obtain ⟨-, hbelow⟩ := lowest?_spec.mp (h (ne_zero_of_member hmem))
  by_contra hlt
  exact Bool.false_ne_true ((hbelow c (not_le.mp hlt)).symm.trans hmem)

/-- R142: the documented rule only marks a channel that is runnable already, and under R28 that one is not below
`current`. -/
theorem State.CurrentIsLowest.documentedTrigger_eq_self {s : State} (h : s.CurrentIsLowest) (mask : ChanSet) :
    s.documentedTrigger mask = s := by
  by_cases hnone : s.runSet &&& mask = 0
  · exact State.documentedTrigger_of_disjoint hnone
  · obtain ⟨id, hid⟩ := exists_lowest hnone
    have hboth : member (s.runSet &&& mask) id = true := (lowest?_spec.mp hid).1
    have hmem : member s.runSet id = true := by
      rw [member_and, Bool.and_eq_true] at hboth
      exact hboth.1
    rw [State.documentedTrigger_of_lowest hid, State.markRunnable_of_member hmem (h.current_le hmem)]

/-- Settles O29: the documented rule is inert under R28, whatever the mask. -/
theorem documentedBlankTriggersAreInert : Obligations.DocumentedBlankTriggersAreInert := by
  intro s h hlow
  rw [exec_triggerHBlank_documented h, exec_triggerVBlank_documented h]
  exact ⟨congrArg _ (hlow.documentedTrigger_eq_self _), congrArg _ (hlow.documentedTrigger_eq_self _)⟩

/-! ### The optional variant (R144) -/

theorem exec_triggerHBlank_scan {s : State} (h : s.cfg.trigger = .scan) :
    exec .triggerHBlank s = .next (s.scanTrigger .hblank) := by
  simp only [exec, execTriggerHBlank, State.hblankTrigger, h]

theorem exec_triggerVBlank_scan {s : State} (h : s.cfg.trigger = .scan) :
    exec .triggerVBlank s = .next (s.scanTrigger .vblank) := by
  simp only [exec, execTriggerVBlank, State.vblankTrigger, h]

/-- The scan of one channel adds that channel to `runSet` if it is enabled with the mode, and no other. -/
theorem State.member_scanOne_runSet (s : State) (m : TimingMode) (c d : ChanIdx) :
    member (s.scanOne m c).runSet d
      = (member s.runSet d || (decide (d = c) && ((s.chan c).enable && decide ((s.chan c).timingMode = m)))) := by
  unfold State.scanOne
  split
  case isTrue h => rw [State.markRunnable_runSet, member_insertChan, h, Bool.and_true]
  case isFalse h => rw [Bool.eq_false_of_not_eq_true h, Bool.and_false, Bool.or_false]

/-- R144: the four scans each look at the channel as it was, and channel `d` is added by its own alone. -/
theorem State.member_scanTrigger_runSet (s : State) (m : TimingMode) (d : ChanIdx) :
    member (s.scanTrigger m).runSet d
      = (member s.runSet d || ((s.chan d).enable && decide ((s.chan d).timingMode = m))) := by
  simp only [State.scanTrigger, State.member_scanOne_runSet, State.scanOne_chan]
  fin_cases d <;> simp

/-- Settles O30, by what a scan adds to `runSet`. -/
theorem scanTriggersMarkEveryEnabledChannelOfTheMode : Obligations.ScanTriggersMarkEveryEnabledChannelOfTheMode := by
  intro s h
  exact ⟨⟨_, exec_triggerHBlank_scan h, s.scanTrigger_chans _, s.member_scanTrigger_runSet _⟩,
    ⟨_, exec_triggerVBlank_scan h, s.scanTrigger_chans _, s.member_scanTrigger_runSet _⟩⟩

/-! ### FIFO requests (R143) -/

/-- R104: a marked channel leaves the block pending. -/
theorem State.markRunnable_pending (s : State) (c : ChanIdx) : (s.markRunnable c).pending = true := by
  rw [State.pending, State.markRunnable_runSet]
  exact decide_eq_true (insertChan_ne_zero _ _)

/-- Settles O26: a request is `markRunnable` of its channel, with no condition. -/
theorem fifoRequestMarksItsChannelRunnable : Obligations.FifoRequestMarksItsChannelRunnable :=
  fun s => ⟨rfl, rfl, s.markRunnable_pending⟩

end Sys2Proof.Machine

/-! Proofs of the statements about exceptions (60_exceptions.md): the block raises none, and its interrupt requests come from
completions. -/

namespace Sys2Proof.Machine

/-! ### Interrupt requests (R152, R153) -/

/-- From `s` to `t` no interrupt was requested, and the parameters, the flag bit of each channel among them, are the same. -/
structure NoIrqBetween (s t : State) : Prop where
  irqs : irqsOf t.log = irqsOf s.log
  irqFlags : t.irqFlags = s.irqFlags
  cfg : t.cfg = s.cfg

/-- The accesses of a unit, and the calls they bring, show no interrupt request. -/
theorem State.transferUnit_irqs (s : State) (ch : ChanIdx) (u : UnitSize) (dSrc dDst : Int) :
    irqsOf (s.transferUnit ch u dSrc dDst).log = irqsOf s.log := by
  have hread : irqsOf (s.busRead u (s.chan ch).internalSrc).2.log = irqsOf s.log :=
    State.busRead_log (P := fun es => irqsOf es = irqsOf s.log) (fun _ _ _ _ h => h) _ _ _ rfl
  exact State.busWrite_log (P := fun es => irqsOf es = irqsOf s.log) (fun _ _ _ _ h => h) _ _ _ hread

theorem NoIrqBetween.transferUnit {s r : State} (h : NoIrqBetween s r) (ch : ChanIdx) (u : UnitSize) (dSrc dDst : Int) :
    NoIrqBetween s (r.transferUnit ch u dSrc dDst) where
  irqs := (r.transferUnit_irqs ..).trans h.irqs
  irqFlags := (r.transferUnit_irqFlags ..).trans h.irqFlags
  cfg := (r.transferUnit_cfg ..).trans h.cfg

/-- R152: an operation other than `RUN` requests no interrupt. -/
theorem noIrqBetween_of_exec {i : Instr} {s t : State} (ht : exec i s = .next t) (hi : i ≠ .run) : NoIrqBetween s t := by
  obtain ⟨-, -, -, hflags, hcfg, hlog | ⟨c, off, b, hlog⟩⟩ := exec_frame ht hi
  · exact ⟨congrArg irqsOf hlog, hflags, hcfg⟩
  · exact ⟨by rw [hlog, irqsOf_cons_regRead], hflags, hcfg⟩

/-- R152: a `RUN` has requested no interrupt when it comes to its completion with no unit left, nor when it yields. -/
theorem exec_run_noIrqBetween {s t : State} (ht : exec .run s = .next t) :
    (∃ u, NoIrqBetween s u ∧ t = u.complete s.current ∧ (u.chan s.current).internalLength = 0) ∨ NoIrqBetween s t := by
  have hunit : ∀ (q : State) (ds : List Int) (u : UnitSize) (dSrc dDst : Int), NoIrqBetween s q →
      (q.chan s.current).internalLength ≠ 0 →
      NoIrqBetween s (State.transferUnit { q with budget := ds } s.current u dSrc dDst) := fun q ds u dSrc dDst hq _ =>
    have hdrawn : NoIrqBetween s { q with budget := ds } := ⟨hq.irqs, hq.irqFlags, hq.cfg⟩
    hdrawn.transferUnit s.current u dSrc dDst
  obtain ⟨r, hr, hend⟩ := exec_run_cases ht ⟨rfl, rfl, rfl⟩ hunit
  obtain ⟨hcomplete, hzero⟩ | rfl | ⟨_, rfl⟩ | ⟨_, rfl⟩ := hend
  · exact .inl ⟨r, hr, hcomplete, hzero⟩
  · exact .inr hr
  · exact .inr ⟨hr.irqs, hr.irqFlags, hr.cfg⟩
  · exact .inr ⟨hr.irqs, hr.irqFlags, hr.cfg⟩

/-- Settles O52: nothing before the end of a `RUN` requests an interrupt, and its completion does so as configured (O46). -/
theorem interruptRequestsComeFromCompletionsOnly : Obligations.InterruptRequestsComeFromCompletionsOnly := by
  intro i s t ht
  by_cases hi : i = .run
  case neg =>
    have h := noIrqBetween_of_exec ht hi
    exact .inl ⟨h.irqs, h.irqFlags⟩
  subst hi
  obtain ⟨u, h, rfl, hzero⟩ | h := exec_run_noIrqBetween ht
  · obtain ⟨hraised, hquiet⟩ := completionRaisesTheConfiguredInterrupt u s.current
    by_cases hirq : (u.chan s.current).interruptOnCompletion = true
    · obtain ⟨hlog, hflags⟩ := hraised hirq
      refine .inr ⟨rfl, u, rfl, hzero, hirq, h.irqs, h.irqFlags, ?_, ?_⟩
      · rw [hlog, irqsOf_cons_irq, h.irqs]
      · rw [hflags, h.irqFlags, h.cfg]
    · obtain ⟨hlog, hflags⟩ := hquiet (Bool.eq_false_of_not_eq_true hirq)
      exact .inl ⟨(congrArg irqsOf hlog).trans h.irqs, hflags.trans h.irqFlags⟩
  · exact .inl ⟨h.irqs, h.irqFlags⟩

end Sys2Proof.Machine

/-! Proofs of the statements about reset and hazards (70_reset_and_hazards.md): the reset event, a preemption between two
invocations, the fairness of the CPU loop, and a channel that repeats for ever. -/

namespace Sys2Proof.Machine

/-! ### The reset event (R170) -/

/-- Settles O4: on either way the step is the reset event, of a state that differs from `s` at most in the bytes at its port. -/
theorem resetEventClearsTheBlockOnly : Obligations.ResetEventClearsTheBlockOnly := by
  intro s p harrives
  have hstep : step s = .next (State.resetEvent { s with port := p }) := by
    rcases harrives with ⟨hreq, rfl⟩ | ⟨hreq, hport⟩
    · exact step_resetReq hreq
    · exact step_of_reset hreq (hport ▸ decode_resetRecord p)
  exact ⟨_, hstep, fun _ => rfl, rfl, rfl, rfl, rfl, rfl, rfl, rfl, rfl, rfl, rfl, rfl, rfl, rfl, rfl⟩

/-! ### A preemption between two invocations (R180) -/

/-- R101: a channel below `current` takes its place, and the flag records it. -/
theorem State.markRunnable_of_lt_current {s : State} {c : ChanIdx} (hrun : s.runSet ≠ 0) (hc : c < s.current) :
    s.markRunnable c = { s with runSet := insertChan s.runSet c, current := c, interleaved := true } := by
  rw [State.markRunnable, if_neg hrun, if_pos hc]

/-- Settles O44: the rising edge marks its channel runnable, which preempts, and latches a length that is not zero, so that
the next `RUN` comes as far as its look at the flag. -/
theorem preemptionBetweenRunsSpendsOneInvocation : Obligations.PreemptionBetweenRunsSpendsOneInvocation := by
  intro s t c b d ds hrun hc hwas hnow ht hmode hd
  obtain ⟨_, hexec, -, -, hlength, himmediate, -⟩ := risingEdgeLatchesAndSchedulesImmediate c b s hwas hnow
  cases ht.symm.trans hexec
  obtain ⟨hset, hcurrent, hflag⟩ := himmediate hmode
  rw [State.markRunnable_of_lt_current hrun hc] at hset hcurrent hflag
  have hpending : t.runSet ≠ 0 := hset ▸ insertChan_ne_zero s.runSet c
  have hleft : (t.chan t.current).internalLength ≠ 0 := by
    rw [hcurrent, hlength]
    exact latchLength_ne_zero _ _
  obtain ⟨-, hpreempted, -⟩ := runYieldsOnBudgetThenOnPreemptionAndCompletesOnLength
  exact ⟨hcurrent, hflag, hpreempted { t with budget := d :: ds } d ds hpending hleft rfl hd hflag⟩

/-! ### The fairness of the CPU loop (R104, R190) -/

/-- The port is served, and no reset event is asked for. -/
def State.Served (s : State) : Prop := s.port = [] ∧ s.resetReq = false

/-- With bytes at the port a step refuses them, or takes some. -/
theorem step_takes_bytes {s : State} (hreq : s.resetReq = false) (hport : s.port ≠ []) :
    (∃ r, step s = .refused r) ∨ ∃ t, step s = .next t ∧ t.resetReq = false ∧ t.port.length < s.port.length := by
  obtain ⟨hshorter, hshorter'⟩ := length_decode s.port
  cases hdecode : decode s.port with
  | bad e => exact .inl ⟨_, step_of_bad hreq hport hdecode⟩
  | reset rest => exact .inr ⟨_, step_of_reset hreq hdecode, rfl, hshorter' rest hdecode⟩
  | op i rest =>
    cases hexec : exec i { s with port := rest } with
    | fault f => cases f
    | refused r => exact .inl ⟨r, (step_of_op hreq hdecode).trans hexec⟩
    | next t =>
      obtain ⟨hrest, hreq'⟩ := exec_port hexec
      exact .inr ⟨t, (step_of_op hreq hdecode).trans hexec, hreq'.trans hreq, hrest ▸ hshorter i rest hdecode⟩

/-- With no reset request, one step for each byte at the port suffices to serve it, unless bytes are refused. -/
theorem served_or_refused (m : Nat) {s : State} (hm : s.port.length ≤ m) (hreq : s.resetReq = false) :
    ∃ n t, n ≤ m ∧ stepN n s = .next t ∧ (t.Served ∨ ∃ r, step t = .refused r) := by
  induction m generalizing s with
  | zero => exact ⟨0, s, le_rfl, rfl, .inl ⟨List.length_eq_zero_iff.mp (Nat.le_zero.mp hm), hreq⟩⟩
  | succ m ih =>
    by_cases hport : s.port = []
    · exact ⟨0, s, Nat.zero_le _, rfl, .inl ⟨hport, hreq⟩⟩
    · obtain hrefused | ⟨u, hstep, hreq', hshorter⟩ := step_takes_bytes hreq hport
      · exact ⟨0, s, Nat.zero_le _, rfl, .inr hrefused⟩
      · obtain ⟨n, t, hn, hsteps, hend⟩ := ih (by omega) hreq'
        exact ⟨n + 1, t, Nat.succ_le_succ hn, (stepN_succ hstep).trans hsteps, hend⟩

/-- The same from any state: a reset request is served first, and leaves the port as it is. -/
theorem served_or_refused_of_any (s : State) :
    ∃ n t, n ≤ s.port.length + 1 ∧ stepN n s = .next t ∧ (t.Served ∨ ∃ r, step t = .refused r) := by
  cases hreq : s.resetReq with
  | true =>
    obtain ⟨n, t, hn, hsteps, hend⟩ := served_or_refused s.port.length (s := s.resetEvent) le_rfl rfl
    exact ⟨n + 1, t, Nat.succ_le_succ hn, (stepN_succ (step_resetReq hreq)).trans hsteps, hend⟩
  | false => exact served_or_refused _ (Nat.le_succ _) hreq

/-- R190: with the port served and the block pending, the next step is a `RUN` that goes on. -/
theorem State.Served.step_eq_run {s : State} (h : s.Served) (hpending : s.pending = true) :
    ∃ u, exec .run s.supplied = .next u ∧ step s = .next u := by
  obtain ⟨hport, hreq⟩ := h
  have hrun : s.runSet ≠ 0 := of_decide_eq_true hpending
  have hexec := exec_run (s := s.supplied) hrun
  exact ⟨_, hexec, (step_loop hreq hport hrun).trans hexec⟩

/-- Settles O33: the steps that serve the port, and the `RUN` that follows them. -/
theorem pendingBlockIsRunAgain : Obligations.PendingBlockIsRunAgain := by
  intro s
  obtain ⟨n, t, hn, hsteps, hserved | hrefused⟩ := served_or_refused_of_any s
  · have ⟨hport, hreq⟩ := hserved
    refine ⟨n, t, hn, hsteps, .inl ⟨hport, hreq, fun hpending => ?_⟩⟩
    obtain ⟨u, hrun, hstep⟩ := hserved.step_eq_run hpending
    exact ⟨u, hrun, hstep, stepN_snoc hsteps hstep⟩
  · exact ⟨n, t, hn, hsteps, .inr hrefused⟩

/-! ### Runs of the machine that do not end (R177) -/

/-- A step from a port that holds what agents send goes on, and leaves such a port. -/
theorem State.PortHoldsSignals.step {s : State} (h : s.PortHoldsSignals) :
    ∃ t, Machine.step s = .next t ∧ t.PortHoldsSignals := by
  obtain ⟨ks, hport⟩ := h
  cases hreq : s.resetReq with
  | true => exact ⟨_, step_resetReq hreq, ks, hport⟩
  | false =>
    cases ks with
    | nil =>
      by_cases hrun : s.runSet = 0
      · exact ⟨_, step_idle hreq hport hrun, _, s.supplied_port⟩
      · have hexec := exec_run (s := s.supplied) hrun
        exact ⟨_, (step_loop hreq hport hrun).trans hexec, _, (exec_port hexec).1.trans s.supplied_port⟩
    | cons k ks =>
      rw [portBytes_cons] at hport
      cases k with
      | reset => exact ⟨_, step_of_reset hreq (hport ▸ decode_resetRecord _), ks, rfl⟩
      | call k =>
        have hexec := exec_instr { s with port := portBytes ks } k
        exact ⟨_, (step_of_op hreq (hport ▸ decode_callRecord k _)).trans hexec, ks, (exec_port hexec).1⟩

/-- So any number of steps go on. -/
theorem State.PortHoldsSignals.stepN (n : Nat) {s : State} (h : s.PortHoldsSignals) :
    ∃ t, Machine.stepN n s = .next t ∧ t.PortHoldsSignals := by
  induction n generalizing s with
  | zero => exact ⟨s, rfl, h⟩
  | succ n ih =>
    obtain ⟨u, hstep, hu⟩ := h.step
    rw [stepN_succ hstep]
    exact ih hu

/-! ### An endlessly repeating channel and the operations but `RUN` (R177) -/

namespace State.EndlessRepeat

variable {s t : State} {c : ChanIdx}

theorem runSet_ne_zero (h : s.EndlessRepeat c) : s.runSet ≠ 0 := ne_zero_of_member h.1

/-- Only the channel's bit of `runSet`, its repeat flag and its timing mode count. -/
theorem congr (h : s.EndlessRepeat c) (hset : t.runSet = s.runSet) (hrep : (t.chan c).repeats = (s.chan c).repeats)
    (hmode : (t.chan c).timingMode = (s.chan c).timingMode) : t.EndlessRepeat c := by
  rwa [State.EndlessRepeat, hset, hrep, hmode]

/-- Marking a channel takes none out of `runSet`. -/
theorem markRunnable (h : s.EndlessRepeat c) (id : ChanIdx) : (s.markRunnable id).EndlessRepeat c := by
  obtain ⟨hmem, hrep, hmode⟩ := h
  refine ⟨?_, by rwa [State.markRunnable_chan], by rwa [State.markRunnable_chan]⟩
  rw [State.markRunnable_runSet, member_insertChan, hmem, Bool.true_or]

theorem documentedTrigger (h : s.EndlessRepeat c) (mask : ChanSet) : (s.documentedTrigger mask).EndlessRepeat c := by
  unfold State.documentedTrigger
  split
  · exact h.markRunnable _
  · exact h

theorem scanOne (h : s.EndlessRepeat c) (m : TimingMode) (d : ChanIdx) : (s.scanOne m d).EndlessRepeat c := by
  unfold State.scanOne
  split
  · exact h.markRunnable d
  · exact h

theorem scanTrigger (h : s.EndlessRepeat c) (m : TimingMode) : (s.scanTrigger m).EndlessRepeat c :=
  (((h.scanOne m 0).scanOne m 1).scanOne m 2).scanOne m 3

theorem hblankTrigger (h : s.EndlessRepeat c) : s.hblankTrigger.EndlessRepeat c := by
  unfold State.hblankTrigger
  split
  · exact h.documentedTrigger _
  · exact h.scanTrigger _

theorem vblankTrigger (h : s.EndlessRepeat c) : s.vblankTrigger.EndlessRepeat c := by
  unfold State.vblankTrigger
  split
  · exact h.documentedTrigger _
  · exact h.scanTrigger _

/-- A channel record replaced by one with its repeat flag and its timing mode. -/
theorem setChan (h : s.EndlessRepeat c) {d : ChanIdx} {x : Channel} (hrep : x.repeats = (s.chan d).repeats)
    (hmode : x.timingMode = (s.chan d).timingMode) : (s.setChan d x).EndlessRepeat c := by
  by_cases hd : c = d
  · subst hd
    exact h.congr rfl (by rwa [State.chan_setChan_same]) (by rwa [State.chan_setChan_same])
  · exact h.congr rfl (by rw [State.chan_setChan_ne _ _ hd]) (by rw [State.chan_setChan_ne _ _ hd])

theorem arm (h : s.EndlessRepeat c) (d : ChanIdx) : (s.arm d).EndlessRepeat c := by
  have hlatch : (s.latch d).EndlessRepeat c := h.setChan rfl rfl
  unfold State.arm
  split
  · exact hlatch.markRunnable d
  · exact hlatch

/-- A control-high write of another channel. -/
theorem writeCtlHi (h : s.EndlessRepeat c) {d : ChanIdx} (b : Byte) (hd : c ≠ d) :
    (s.writeCtlHi d b).EndlessRepeat c := by
  have hchan : (s.storeCtlHi d b).chan c = s.chan c := State.chan_setChan_ne _ _ hd
  have hstore : (s.storeCtlHi d b).EndlessRepeat c := h.congr rfl (by rw [hchan]) (by rw [hchan])
  unfold State.writeCtlHi
  split
  · exact hstore.arm d
  · exact hstore

/-- Every operation but `RUN` and a control-high write of the channel keeps it so. -/
theorem exec {i : Instr} (h : s.EndlessRepeat c) (hrun : i ≠ .run) (hhi : ∀ b, i ≠ .wCtlHi c b)
    (ht : Machine.exec i s = .next t) : t.EndlessRepeat c := by
  cases i with
  | run => exact absurd rfl hrun
  | wCtlHi d b =>
    cases ht
    exact h.writeCtlHi b fun hd => hhi b (by rw [hd])
  | wSrc0 d b | wSrc1 d b | wSrc2 d b | wSrc3 d b | wDst0 d b | wDst1 d b | wDst2 d b | wDst3 d b | wLen0 d b
  | wLen1 d b | wCtlLo d b =>
    cases ht
    exact h.setChan rfl rfl
  | triggerHBlank =>
    cases ht
    exact h.hblankTrigger
  | triggerVBlank =>
    cases ht
    exact h.vblankTrigger
  | fifoRequest1 | fifoRequest2 =>
    cases ht
    exact h.markRunnable _
  | _ =>
    cases ht
    exact h

end State.EndlessRepeat

/-! ### `RUN` after `RUN` of an endlessly repeating channel (R124, R177, R178) -/

/-- Unit `k` of the transfer that starts at unit `n` is unit `n + k`. -/
theorem unitAddr_add (b : Word) (d : Int) (n k : Nat) : unitAddr (unitAddr b d n) d k = unitAddr b d (n + k) := by
  rw [unitAddr, unitAddr, unitAddr, BitVec.add_assoc, ← BitVec.ofInt_add, ← Int.add_mul, Int.natCast_add]

/-- Channel `c` repeats for ever and is `current`, on a quiet bus, with all that it will ever write in plain bus memory. -/
structure State.RepeatsAlone (s : State) (c : ChanIdx) : Prop where
  endless : s.EndlessRepeat c
  lowest : s.CurrentIsLowest
  current : s.current = c
  bus : s.bus = []
  plain : s.DestinationStaysPlain c

namespace State.RepeatsAlone

variable {s r : State} {c : ChanIdx}

theorem lowest?_runSet (h : s.RepeatsAlone c) : lowest? s.runSet = some c := by
  rw [h.lowest h.endless.runSet_ne_zero, h.current]

/-- Units leave the schedule alone, and where one of them stands the following ones are units of the same transfer. -/
theorem of_unitsDone {dSrc : Int} {n : Nat} (h : s.RepeatsAlone c) (hr : UnitsDone c dSrc (s.dstDelta c) n s r) :
    r.RepeatsAlone c := by
  obtain ⟨-, -, hset, hcurrent, -⟩ := hr.controller
  have hdelta : r.dstDelta c = s.dstDelta c := by rw [State.dstDelta, hr.chan]; rfl
  refine ⟨h.endless.congr hset (by rw [hr.chan]) (by rw [hr.chan]), h.lowest.congr hset hcurrent,
    hcurrent.trans h.current, hr.bus, fun k => ?_⟩
  rw [State.writeAddr, hdelta, hr.cfg, hr.chan, unitAddr_add]
  exact ⟨(h.plain (n + k)).1, (h.plain k).2⟩

/-- Completion re-arms the channel and reselects it; a reload puts the destination where it is known to stay plain. -/
theorem complete (h : s.RepeatsAlone c) : (s.complete c).RepeatsAlone c := by
  obtain ⟨-, hrep, hmode⟩ := h.endless
  have hchan := s.complete_chan_same c
  rw [if_pos hrep] at hchan
  have hset : (s.complete c).runSet = s.runSet := by rw [State.complete_runSet, if_pos ⟨hrep, hmode⟩]
  have hendless : (s.complete c).EndlessRepeat c := h.endless.congr hset (by rw [hchan]) (by rw [hchan])
  have hlow := s.complete_lowest c
  have hcurrent : lowest? (s.complete c).runSet = some (s.complete c).current := hlow hendless.runSet_ne_zero
  rw [hset, h.lowest?_runSet] at hcurrent
  have hdelta : (s.complete c).dstDelta c = s.dstDelta c := by rw [State.dstDelta, hchan]; rfl
  refine ⟨hendless, hlow, (Option.some.inj hcurrent).symm, (s.complete_bus c).trans h.bus, fun k => ?_⟩
  rw [State.writeAddr, hdelta, State.complete_cfg, hchan]
  refine ⟨?_, (h.plain k).2⟩
  by_cases hreload : (s.chan c).dstAddressControl = .incrementReload
  · rw [if_pos hreload]
    exact (h.plain k).2
  · rw [if_neg hreload]
    exact (h.plain k).1

/-- A `RUN` keeps it so and touches no other channel, wherever it yields and when it completes. -/
theorem exec_run (h : s.RepeatsAlone c) :
    ∃ t, exec .run s = .next t ∧ t.RepeatsAlone c ∧ SameOtherChannels c s t := by
  obtain rfl := h.current
  have hexec := Machine.exec_run h.endless.runSet_ne_zero
  have hmiss := State.unitsMissRegisters_of_plain (n := (s.chan s.current).internalLength.toNat)
    fun k _ => (h.plain k).1
  obtain ⟨n, r, hr, hend⟩ := State.exec_run_units h.bus hmiss hexec
  have hrest := h.of_unitsDone hr
  refine ⟨_, hexec, ?_⟩
  rcases hend with ht | ht | ⟨es, ht⟩ | ⟨es, ht⟩ <;> rw [ht]
  case inl => exact ⟨hrest.complete, fun d hd => (r.complete_chan_ne hd).trans (hr.others d hd)⟩
  all_goals exact ⟨⟨hrest.endless, hrest.lowest, hrest.current, hrest.bus, hrest.plain⟩, hr.others⟩

/-- So does any number of them. -/
theorem runN (n : Nat) (h : s.RepeatsAlone c) :
    ∃ t, Machine.runN n s = .next t ∧ t.RepeatsAlone c ∧ SameOtherChannels c s t := by
  induction n generalizing s with
  | zero => exact ⟨s, rfl, h, fun _ _ => rfl⟩
  | succ n ih =>
    obtain ⟨u, hexec, hu, hsame⟩ := h.exec_run
    obtain ⟨t, hruns, ht, hsame'⟩ := ih hu
    exact ⟨t, (runN_succ hexec).trans hruns, ht, fun d hd => (hsame' d hd).trans (hsame d hd)⟩

end State.RepeatsAlone

/-- Settles O34: a port of signals never stops a step, no operation but those named ends the repetition, and a `RUN` of the
channel leaves it where it can be run again. -/
theorem endlessRepeatIsRunForEver : Obligations.EndlessRepeatIsRunForEver := by
  refine ⟨fun n _ h => h.stepN n, fun _ _ _ _ hrun hhi h ht => h.exec hrun hhi ht,
    fun n s c hendless hlow hcurrent hb hplain => ?_⟩
  obtain ⟨t, hruns, ht, hsame⟩ := State.RepeatsAlone.runN n ⟨hendless, hlow, hcurrent, hb, hplain⟩
  exact ⟨t, hruns, ht.endless, ht.current, decide_eq_true ht.endless.runSet_ne_zero, hsame⟩

end Sys2Proof.Machine
